-- ==== Sys2Proof/Word.lean ====
section
/-! DEFINITION. The word types of the block: every register, operand bus and delay word is 64 bits
(00_scope.md R6 `XLEN`), a command word is 16 bits (`CMDLEN`), a register address 8 bits (`ALEN`). -/

namespace Sys2Proof

/-- An IEEE 754 binary64 value as its 64-bit pattern (00_scope.md R10, R15: sign in bit 63,
exponent in bits 62:52, fraction in bits 51:0). -/
abbrev F64 := BitVec 64

/-- An unsigned 64-bit integer register (00_scope.md R14). -/
abbrev U64 := BitVec 64

/-- A signed two's-complement 64-bit integer register (00_scope.md R14). -/
abbrev S64 := BitVec 64

/-- The 16-bit command or unit-operation select word (30_encoding.md R80). -/
abbrev CmdWord := BitVec 16

/-- The 64-bit operand word that comes with a host command (30_encoding.md R80). -/
abbrev WData := BitVec 64

/-- An 8-bit control-register address (20_memory.md R61). -/
abbrev RegAddr := BitVec 8

end Sys2Proof
end

