-- ==== Sys2Proof/Syntax.lean ====
section
/-! DEFINITION. The instructions: one constructor for each of the 32 rows of spec/opcode_table.json.
A host command that uses its 64-bit operand word WDATA carries it (30_encoding.md R83); a unit
operation carries only its instance field, its operands being on the operand buses. -/

namespace Sys2Proof

/-- Host commands (30_encoding.md R85) and unit operations (R86). -/
inductive Instr where
  /-- NOP, 46_engine_commands.md R211. -/
  | nop
  /-- WRREG a, with the value to store; R212. -/
  | wrreg (a : RegAddr) (wdata : WData)
  /-- RDREG a, R213. -/
  | rdreg (a : RegAddr)
  /-- RDMEM, with the delay-memory word address; R215. -/
  | rdmem (wdata : WData)
  /-- PREPARE, R214. -/
  | prepare
  /-- RENDER, with the block length; R216. -/
  | render (n : WData)
  /-- RELEASE, R218. -/
  | release
  /-- PA.INC, 40 R101. -/
  | paInc
  /-- PA.ADV k, 40 R103. -/
  | paAdv (k : BitVec 4)
  /-- PA.VAL k, 40 R102. -/
  | paVal (k : BitVec 4)
  /-- OSC.SIN k, 40 R104. -/
  | oscSin (k : BitVec 4)
  /-- ENV.BATCH, 41 R121. -/
  | envBatch
  /-- ENV.RT, 41 R122. -/
  | envRt
  /-- JNY.BUILD, 42 R131. -/
  | jnyBuild
  /-- JNY.EVAL, 42 R132. -/
  | jnyEval
  /-- NZ.PREP, 43 R152. -/
  | nzPrep
  /-- NZ.WHITE, 43 R153. -/
  | nzWhite
  /-- NZ.PINK, 43 R155. -/
  | nzPink
  /-- NZ.BROWN, 43 R154. -/
  | nzBrown
  /-- NZ.LFO, 43 R156. -/
  | nzLfo
  /-- NZ.LPF, 43 R157. -/
  | nzLpf
  /-- NZ.PROC, 43 R158. -/
  | nzProc
  /-- RV.PREP c, 44 R171. -/
  | rvPrep (c : BitVec 1)
  /-- RV.COMB c, j, 44 R173. -/
  | rvComb (c : BitVec 1) (j : BitVec 3)
  /-- RV.AP c, 44 R174. -/
  | rvAp (c : BitVec 1)
  /-- RV.PROC c, 44 R175. -/
  | rvProc (c : BitVec 1)
  /-- GAIN.LIN, 45 R191. -/
  | gainLin
  /-- MIX.DRY, 45 R192. -/
  | mixDry
  /-- MIX.WET, 45 R193. -/
  | mixWet
  /-- SAT.TANH, 45 R194. -/
  | satTanh
  /-- SAT.KNEE, 45 R195. -/
  | satKnee
  /-- SAMPLE, 46 R217. -/
  | sample
  deriving DecidableEq, Repr

end Sys2Proof
end

