-- ==== Sys2Proof/WellFormed.lean ====
section
/-! DEFINITION. Which terms of `Instr` are instructions: the instance fields within the sets that
30_encoding.md R86 gives; every other value is reserved. -/

namespace Sys2Proof

/-- The accumulator field of PA.ADV, PA.VAL and OSC.SIN is 0 to 4 (30_encoding.md R86: "the legal
set is `k ≤ 4`; `k` = 5 to 15 is reserved"). -/
def accumulatorOk (k : BitVec 4) : Bool := decide (k.toNat ≤ 4)

/-- The comb field of RV.COMB is 0 to 3 (30_encoding.md R86, mask 0xF4FF). -/
def combOk (j : BitVec 3) : Bool := decide (j.toNat ≤ 3)

/-- An instruction of the opcode table with its fields in range. -/
def Instr.wf : Instr → Bool
  | .nop => true
  | .wrreg _ _ => true
  | .rdreg _ => true
  | .rdmem _ => true
  | .prepare => true
  | .render _ => true
  | .release => true
  | .paInc => true
  | .paAdv k => accumulatorOk k
  | .paVal k => accumulatorOk k
  | .oscSin k => accumulatorOk k
  | .envBatch => true
  | .envRt => true
  | .jnyBuild => true
  | .jnyEval => true
  | .nzPrep => true
  | .nzWhite => true
  | .nzPink => true
  | .nzBrown => true
  | .nzLfo => true
  | .nzLpf => true
  | .nzProc => true
  | .rvPrep _ => true
  | .rvComb _ j => combOk j
  | .rvAp _ => true
  | .rvProc _ => true
  | .gainLin => true
  | .mixDry => true
  | .mixWet => true
  | .satTanh => true
  | .satKnee => true
  | .sample => true

/-- The seven host commands (30_encoding.md R85); the rest are unit operations (R86). -/
def Instr.isHost : Instr → Bool
  | .nop => true
  | .wrreg _ _ => true
  | .rdreg _ => true
  | .rdmem _ => true
  | .prepare => true
  | .render _ => true
  | .release => true
  | .paInc => false
  | .paAdv _ => false
  | .paVal _ => false
  | .oscSin _ => false
  | .envBatch => false
  | .envRt => false
  | .jnyBuild => false
  | .jnyEval => false
  | .nzPrep => false
  | .nzWhite => false
  | .nzPink => false
  | .nzBrown => false
  | .nzLfo => false
  | .nzLpf => false
  | .nzProc => false
  | .rvPrep _ => false
  | .rvComb _ _ => false
  | .rvAp _ => false
  | .rvProc _ => false
  | .gainLin => false
  | .mixDry => false
  | .mixWet => false
  | .satTanh => false
  | .satKnee => false
  | .sample => false

end Sys2Proof
end

