-- ==== Sys2Proof/Decode.lean ====
section
/-! DEFINITION. The decoder and the encoder (30_encoding.md R80 to R88). `decodeHost` is the decoder
of the host port, total on any word (R88); `decodeSelect` reads a unit-operation select word by the
match and mask columns of R86; `decode` is the two together, by the major opcode. -/

namespace Sys2Proof

/-- Why a word is no instruction. -/
inductive Reject where
  /-- op is 0x7 or 0x9 to 0xF at either decoder, or a select word's op is not 0x8 (R81, R87). -/
  | reservedOp
  /-- A unit operation on the host port (R87: "every word with `op` = 0x8"). -/
  | unitOperation
  /-- A host command with `k ≠ 0` (R87). -/
  | nonzeroInstance
  /-- A format-H0 command with `a ≠ 0` (R87). -/
  | nonzeroAddress
  /-- A select word whose number `u` is in no row of R86. -/
  | reservedUnit
  /-- A select word whose instance field is outside its row's set (R86). -/
  | reservedInstance
  deriving DecidableEq, Repr

/-- The major opcode, bits 15:12 (30_encoding.md R81). -/
def opField (w : CmdWord) : Nat := (w.extractLsb' 12 4).toNat

/-- The instance field, bits 11:8 (30_encoding.md R81). -/
def kField (w : CmdWord) : BitVec 4 := w.extractLsb' 8 4

/-- The address or unit-operation field, bits 7:0 (30_encoding.md R81). -/
def aField (w : CmdWord) : BitVec 8 := w.extractLsb' 0 8

/-- Bit 3 of the instance field: the channel of a reverb operation (30_encoding.md R86). -/
def channelField (w : CmdWord) : BitVec 1 := w.extractLsb' 11 1

/-- Bits 2:0 of the instance field: the line of a reverb operation (30_encoding.md R86). -/
def lineField (w : CmdWord) : BitVec 3 := w.extractLsb' 8 3

/-- A format-H0 command: its `a` field must be 0 (30_encoding.md R82, R87). -/
def formatH0 (w : CmdWord) (i : Instr) : Except Reject Instr :=
  if aField w = 0 then .ok i else .error .nonzeroAddress

/-- The host port's decoder (30_encoding.md R88) of a command word and its WDATA. -/
def decodeHost (w : CmdWord) (wdata : WData) : Except Reject Instr :=
  if opField w = 8 then .error .unitOperation
  else if 7 ≤ opField w then .error .reservedOp
  else if kField w ≠ 0 then .error .nonzeroInstance
  else
    match opField w with
    | 0 => formatH0 w .nop
    | 1 => .ok (.wrreg (aField w) wdata)
    | 2 => .ok (.rdreg (aField w))
    | 3 => formatH0 w (.rdmem wdata)
    | 4 => formatH0 w .prepare
    | 5 => formatH0 w (.render wdata)
    | 6 => formatH0 w .release
    | _ => .error .reservedOp

/-- A unit operation whose instance field must be 0 (30_encoding.md R86, `k` column 0). -/
def instanceZero (w : CmdWord) (i : Instr) : Except Reject Instr :=
  if kField w = 0 then .ok i else .error .reservedInstance

/-- A unit operation on an accumulator, `k` in 0..4 (30_encoding.md R86). -/
def instanceAccumulator (w : CmdWord) (i : BitVec 4 → Instr) : Except Reject Instr :=
  if accumulatorOk (kField w) then .ok (i (kField w)) else .error .reservedInstance

/-- A reverb operation whose line field must be `j` (30_encoding.md R86). -/
def instanceLine (w : CmdWord) (j : BitVec 3) (i : BitVec 1 → Instr) : Except Reject Instr :=
  if lineField w = j then .ok (i (channelField w)) else .error .reservedInstance

/-- The reading of a unit-operation select word (30_encoding.md R86). -/
def decodeSelect (w : CmdWord) : Except Reject Instr :=
  if opField w ≠ 8 then .error .reservedOp
  else
    match (aField w).toNat with
    | 0x00 => instanceZero w .paInc
    | 0x01 => instanceAccumulator w .paAdv
    | 0x02 => instanceAccumulator w .paVal
    | 0x03 => instanceAccumulator w .oscSin
    | 0x10 => instanceZero w .envBatch
    | 0x11 => instanceZero w .envRt
    | 0x20 => instanceZero w .jnyBuild
    | 0x21 => instanceZero w .jnyEval
    | 0x30 => instanceZero w .nzPrep
    | 0x31 => instanceZero w .nzWhite
    | 0x32 => instanceZero w .nzPink
    | 0x33 => instanceZero w .nzBrown
    | 0x34 => instanceZero w .nzLfo
    | 0x35 => instanceZero w .nzLpf
    | 0x36 => instanceZero w .nzProc
    | 0x40 => instanceLine w 0 .rvPrep
    | 0x41 =>
      if combOk (lineField w) then .ok (.rvComb (channelField w) (lineField w))
      else .error .reservedInstance
    | 0x42 => instanceLine w 4 .rvAp
    | 0x43 => instanceLine w 0 .rvProc
    | 0x50 => instanceZero w .gainLin
    | 0x51 => instanceZero w .mixDry
    | 0x52 => instanceZero w .mixWet
    | 0x53 => instanceZero w .satTanh
    | 0x54 => instanceZero w .satKnee
    | 0x60 => instanceZero w .sample
    | _ => .error .reservedUnit

/-- Any word of the opcode table with its operand word: unit operations by op = 0x8, host commands
otherwise (30_encoding.md R81). -/
def decode (w : CmdWord) (wdata : WData) : Except Reject Instr :=
  if opField w = 8 then decodeSelect w else decodeHost w wdata

/-- A word from its three fields (30_encoding.md R81). -/
def fields (op k : BitVec 4) (a : BitVec 8) : CmdWord := op ++ k ++ a

/-- A reverb select word from channel, line and unit-operation number (30_encoding.md R86). -/
def reverbFields (c : BitVec 1) (j : BitVec 3) (u : BitVec 8) : CmdWord := (8#4) ++ c ++ j ++ u

/-- The 16-bit word of an instruction (the `match` columns of 30_encoding.md R85 and R86). -/
def encodeWord : Instr → CmdWord
  | .nop => fields 0 0 0
  | .wrreg a _ => fields 1 0 a
  | .rdreg a => fields 2 0 a
  | .rdmem _ => fields 3 0 0
  | .prepare => fields 4 0 0
  | .render _ => fields 5 0 0
  | .release => fields 6 0 0
  | .paInc => fields 8 0 0x00
  | .paAdv k => fields 8 k 0x01
  | .paVal k => fields 8 k 0x02
  | .oscSin k => fields 8 k 0x03
  | .envBatch => fields 8 0 0x10
  | .envRt => fields 8 0 0x11
  | .jnyBuild => fields 8 0 0x20
  | .jnyEval => fields 8 0 0x21
  | .nzPrep => fields 8 0 0x30
  | .nzWhite => fields 8 0 0x31
  | .nzPink => fields 8 0 0x32
  | .nzBrown => fields 8 0 0x33
  | .nzLfo => fields 8 0 0x34
  | .nzLpf => fields 8 0 0x35
  | .nzProc => fields 8 0 0x36
  | .rvPrep c => reverbFields c 0 0x40
  | .rvComb c j => reverbFields c j 0x41
  | .rvAp c => reverbFields c 4 0x42
  | .rvProc c => reverbFields c 0 0x43
  | .gainLin => fields 8 0 0x50
  | .mixDry => fields 8 0 0x51
  | .mixWet => fields 8 0 0x52
  | .satTanh => fields 8 0 0x53
  | .satKnee => fields 8 0 0x54
  | .sample => fields 8 0 0x60

/-- The operand word of an instruction; 0 where WDATA is ignored (30_encoding.md R83, R89). -/
def encodeWData : Instr → WData
  | .wrreg _ v => v
  | .rdmem v => v
  | .render n => n
  | .nop => 0
  | .rdreg _ => 0
  | .prepare => 0
  | .release => 0
  | .paInc => 0
  | .paAdv _ => 0
  | .paVal _ => 0
  | .oscSin _ => 0
  | .envBatch => 0
  | .envRt => 0
  | .jnyBuild => 0
  | .jnyEval => 0
  | .nzPrep => 0
  | .nzWhite => 0
  | .nzPink => 0
  | .nzBrown => 0
  | .nzLfo => 0
  | .nzLpf => 0
  | .nzProc => 0
  | .rvPrep _ => 0
  | .rvComb _ _ => 0
  | .rvAp _ => 0
  | .rvProc _ => 0
  | .gainLin => 0
  | .mixDry => 0
  | .mixWet => 0
  | .satTanh => 0
  | .satKnee => 0
  | .sample => 0

/-- The words of an instruction: the command word and its operand word (30_encoding.md R80: "the
pair is one transfer on the command port"). -/
def encode (i : Instr) : CmdWord × WData := (encodeWord i, encodeWData i)

/-- The command word of a transfer given as one number: its bits 15:0. DESIGN CHOICE (log 7): R80
makes a transfer a pair and lays no bits out. -/
def transferWord (bits : Nat) : CmdWord := BitVec.ofNat 16 bits

/-- The operand word of a transfer given as one number: the 64 bits above the command word, bits 79:16.
DESIGN CHOICE (log 7), as in `transferWord`. -/
def transferWData (bits : Nat) : WData := BitVec.ofNat 64 (bits / 2 ^ 16)

/-- The instruction the decoder reads from an instruction whose low `nbits` bits are `w` and whose
bits above them are 0; the pair lies in them as `transferWord` and `transferWData` say (log 7). -/
def decodeTableWord (nbits w : Nat) : Option Instr :=
  match decode (transferWord (w % 2 ^ nbits)) (transferWData (w % 2 ^ nbits)) with
  | .ok i => some i
  | .error _ => none

end Sys2Proof
end

