-- ==== Sys2Proof/Config.lean ====
section
/-! DEFINITION. What the spec leaves open: constants with no body, so that nothing can be proved of
their values. The properties the spec requires of SIN, POW, TANH and RND are imposed where they are
used (Machine/Functions.lean). -/

namespace Sys2Proof

/-- The operation whose NaN result is asked for (93_implementation_defined.md U9). -/
inductive NanOp where
  | add | sub | mul | div | neg | abs
  deriving DecidableEq, Repr

/-- FREE VALUE (log 1). Sign and payload of the NaN that an operation gives on these operands
(00_scope.md R10 "a quiet NaN whose payload is unspecified", 93_implementation_defined.md U9).
The second operand of a one-operand operation is given as 0. -/
opaque Config.nanBits : NanOp → F64 → F64 → BitVec 64

/-- FREE VALUE (log 3). The sine ROM with its quantiser, before properties P1 and P2 are imposed
(00_scope.md R11). -/
opaque Config.sinRom : F64 → F64

/-- FREE VALUE (log 3). The power unit before properties P3 to P5 are imposed (00_scope.md R12). -/
opaque Config.powUnit : F64 → F64 → F64

/-- FREE VALUE (log 3). The hyperbolic-tangent unit before properties P6 to P8 are imposed
(00_scope.md R13). -/
opaque Config.tanhUnit : F64 → F64

/-- FREE VALUE (log 4). The values the random port delivers where nothing is known of them, before
the range of 43_noise_synthesizer.md R151 is imposed; the argument is the draw number within a session
(00_scope.md R6). -/
opaque Config.rndPort : Nat → F64

/-- FREE VALUE (log 20). What JNY.EVAL gives of these keyframe times and values at this time where
the times do not rise strictly (42_journey_interpolator.md R135). -/
opaque Config.journeyOutside : Vector F64 5 → Vector F64 5 → F64 → F64

/-- FREE VALUE (log 12). `f64_floor_to_u64` outside the domain on which 00_scope.md R14 defines it. -/
opaque Config.floorOutside : F64 → U64

end Sys2Proof
end

