-- ==== Sys2Proof/Machine/Constants.lean ====
section
/-! DEFINITION. The named constants of 00_scope.md R9, each the pattern that rule prints, and the
small numerals the rules write out (0.0, 0.5, 1.0, 2.0, 4.0, 10.0, 20.0). -/

namespace Sys2Proof.Machine

/-- +0.0 -/
def fZero : F64 := 0x0000000000000000
/-- 0.5, the constant of rule R156. -/
def fHalf : F64 := 0x3FE0000000000000
/-- 1.0 -/
def fOne : F64 := 0x3FF0000000000000
/-- 2.0, the divisor of rule R217 step 2. -/
def fTwo : F64 := 0x4000000000000000
/-- 10.0, the base of rule R191. -/
def fTen : F64 := 0x4024000000000000
/-- 20.0, the divisor of rule R191. -/
def fTwenty : F64 := 0x4034000000000000
/-- 308.0, the bound of property P5 (00_scope.md R12). -/
def f308 : F64 := 0x4073400000000000

/-- TWO_PI -/
def twoPi : F64 := 0x401921FB54442D18
/-- K_ENV_B = 4.0 -/
def kEnvB : F64 := 0x4010000000000000
/-- K_ENV_R = 0.9 -/
def kEnvR : F64 := 0x3FECCCCCCCCCCCCD
/-- K_BROWN_IN = 0.05 -/
def kBrownIn : F64 := 0x3FA999999999999A
/-- K_BROWN_LEAK = 1.01 -/
def kBrownLeak : F64 := 0x3FF028F5C28F5C29
/-- K_BROWN_GAIN = 3.5 -/
def kBrownGain : F64 := 0x400C000000000000
/-- K_PINK_GAIN = 0.12 -/
def kPinkGain : F64 := 0x3FBEB851EB851EB8
/-- K_LPF_BASE = 0.005 -/
def kLpfBase : F64 := 0x3F747AE147AE147B
/-- K_LPF_DEPTH = 0.05 -/
def kLpfDepth : F64 := 0x3FA999999999999A
/-- K_LFO_SLOW = 0.05 Hz -/
def kLfoSlow : F64 := 0x3FA999999999999A
/-- K_LFO_FAST = 0.2 Hz -/
def kLfoFast : F64 := 0x3FC999999999999A
/-- K_LFO_SPLIT = 8 Hz -/
def kLfoSplit : F64 := 0x4020000000000000
/-- T_COMB[0..3] and T_AP in the order of the lines (rule R171). -/
def delayTimes : Vector F64 5 :=
  #v[0x3F9E69AD42C3C9EF, 0x3FA2FEC56D5CFAAD, 0x3FA50B0F27BB2FEC, 0x3FA65FD8ADAB9F56,
    0x3F747AE147AE147B]
/-- G_COMB = 0.84 -/
def gComb : F64 := 0x3FEAE147AE147AE1
/-- G_AP = 0.5 -/
def gAp : F64 := 0x3FE0000000000000
/-- K_COMB_SUM = 0.25 -/
def kCombSum : F64 := 0x3FD0000000000000
/-- K_WET = 0.12 -/
def kWet : F64 := 0x3FBEB851EB851EB8
/-- K_KNEE_T = 0.9 -/
def kKneeT : F64 := 0x3FECCCCCCCCCCCCD
/-- K_KNEE_R = 0.1 -/
def kKneeR : F64 := 0x3FB999999999999A
/-- M[0..4], the milestones 0, 0.25, 0.5, 0.75, 1.0. -/
def milestones : Vector F64 5 :=
  #v[0x0000000000000000, 0x3FD0000000000000, 0x3FE0000000000000, 0x3FE8000000000000,
    0x3FF0000000000000]

end Sys2Proof.Machine
end

