-- ==== Sys2Proof/Machine/Float.lean ====
section
/-! DEFINITION. IEEE 754 binary64 arithmetic (00_scope.md R10): every operation is the exact result
rounded once, to nearest, ties to even, subnormals kept, nothing trapped. A finite value is held as a
whole number of units of 2^-1074 (the smallest subnormal), so that an exact result is a quotient of
two natural numbers and `roundMag` is the one place where rounding is said. A NaN result has a free
sign and payload (93_implementation_defined.md U9; logs 1 and 2). -/

namespace Sys2Proof.Machine

/-- The pattern of infinity without its sign. -/
def infMag : Nat := 0x7FF0000000000000

/-- The number of units of 2^-1074 in 1. -/
def unitsPerOne : Nat := 2 ^ 1074

/-- The sign bit (00_scope.md R15). -/
def fsign (x : F64) : Bool := decide (2 ^ 63 ≤ x.toNat)

/-- Bits 62:0 as a number; it rises with the absolute value. -/
def fmag (x : F64) : Nat := x.toNat % 2 ^ 63

/-- The value with that sign and those bits 62:0. -/
def fpack (s : Bool) (m : Nat) : F64 := BitVec.ofNat 64 ((if s then 2 ^ 63 else 0) + m % 2 ^ 63)

/-- Exponent all ones and a fraction other than 0. -/
def fisNaN (x : F64) : Bool := decide (infMag < fmag x)

/-- Exponent all ones and fraction 0. -/
def fisInf (x : F64) : Bool := decide (fmag x = infMag)

/-- Neither NaN nor infinity. -/
def fisFinite (x : F64) : Bool := decide (fmag x < infMag)

/-- The units of 2^-1074 in the finite value whose bits 62:0 are `m`: a subnormal is its fraction,
a normal number its 53-bit significand shifted by its exponent less one. -/
def magUnits (m : Nat) : Nat :=
  if m / 2 ^ 52 = 0 then m else (2 ^ 52 + m % 2 ^ 52) * 2 ^ (m / 2 ^ 52 - 1)

/-- Round to nearest, ties to even: the whole number nearest to `num / den`. -/
def nearestEven (num den : Nat) : Nat :=
  if den < 2 * (num % den) ∨ (2 * (num % den) = den ∧ num / den % 2 = 1) then num / den + 1
  else num / den

/-- How many low bits of a result of `f` whole units are rounded away, so that 53 bits are left. -/
def roundShift (f : Nat) : Nat := Nat.log2 f - 52

/-- Bits 62:0 of the binary64 value nearest to `num / den` units, infinity when it is too large. -/
def roundMag (num den : Nat) : Nat :=
  min (roundShift (num / den) * 2 ^ 52 + nearestEven num (den * 2 ^ roundShift (num / den))) infMag

/-- The quiet NaN with the sign and the low 51 payload bits of `b`. -/
def quietNaN (b : BitVec 64) : F64 := fpack (fsign b) (infMag + 2 ^ 51 + b.toNat % 2 ^ 51)

/-- The NaN with the sign and fraction of `b`; a fraction of 0, which would be an infinity, gives
the quiet NaN of payload 0. Every NaN is one of these. -/
def anyNaN (b : BitVec 64) : F64 :=
  if b.toNat % 2 ^ 52 = 0 then fpack (fsign b) (infMag + 2 ^ 51)
  else fpack (fsign b) (infMag + b.toNat % 2 ^ 52)

/-- The NaN an arithmetic operation gives on these operands. -/
def nanResult (op : NanOp) (a b : F64) : F64 := quietNaN (Config.nanBits op a b)

/-- The signed number of units of a finite value. -/
def funits (x : F64) : Int := if fsign x then -(magUnits (fmag x) : Int) else (magUnits (fmag x) : Int)

/-- The sum of two finite values: an exact zero is -0.0 only if both operands are negative zeros. -/
def finiteSum (a b : F64) : F64 :=
  if funits a + funits b = 0 then fpack (fsign a && fsign b) 0
  else fpack (decide (funits a + funits b < 0)) (roundMag (funits a + funits b).natAbs 1)

/-- The sum of two values that are not NaN; infinities of opposite sign are an invalid operation. -/
def sumOf (op : NanOp) (a b : F64) : F64 :=
  if fisInf a then
    if fisInf b && fsign a != fsign b then nanResult op a b else a
  else if fisInf b then b
  else finiteSum a b

/-- The pattern with its sign bit changed. -/
def flipSign (x : F64) : F64 := fpack (!fsign x) (fmag x)

/-- `a + b` -/
def fadd (a b : F64) : F64 :=
  if fisNaN a || fisNaN b then nanResult .add a b else sumOf .add a b

/-- `a - b` -/
def fsub (a b : F64) : F64 :=
  if fisNaN a || fisNaN b then nanResult .sub a b else sumOf .sub a (flipSign b)

/-- `a × b`; infinity times zero is an invalid operation. -/
def fmul (a b : F64) : F64 :=
  if fisNaN a || fisNaN b then nanResult .mul a b
  else if fisInf a || fisInf b then
    if fmag a == 0 || fmag b == 0 then nanResult .mul a b else fpack (fsign a != fsign b) infMag
  else fpack (fsign a != fsign b) (roundMag (magUnits (fmag a) * magUnits (fmag b)) unitsPerOne)

/-- `a ÷ b`; 0 ÷ 0 and infinity ÷ infinity are invalid operations, another value ÷ 0 an infinity. -/
def fdiv (a b : F64) : F64 :=
  if fisNaN a || fisNaN b then nanResult .div a b
  else if fisInf a then
    if fisInf b then nanResult .div a b else fpack (fsign a != fsign b) infMag
  else if fisInf b then fpack (fsign a != fsign b) 0
  else if fmag b == 0 then
    if fmag a == 0 then nanResult .div a b else fpack (fsign a != fsign b) infMag
  else fpack (fsign a != fsign b) (roundMag (magUnits (fmag a) * unitsPerOne) (magUnits (fmag b)))

/-- Unary `-`; the sign and payload of a NaN that goes through it are free (U9). -/
def fneg (x : F64) : F64 :=
  if fisNaN x then anyNaN (Config.nanBits .neg x 0) else flipSign x

/-- `abs`; the sign and payload of a NaN that goes through it are free (U9). -/
def fabs (x : F64) : F64 :=
  if fisNaN x then anyNaN (Config.nanBits .abs x 0) else fpack false (fmag x)

/-- A whole number that orders the values that are not NaN; both zeros give 0. -/
def forder (x : F64) : Int := if fsign x then -(fmag x : Int) else (fmag x : Int)

/-- `a < b`; false when an operand is NaN. -/
def flt (a b : F64) : Bool := !fisNaN a && !fisNaN b && decide (forder a < forder b)

/-- `a <= b`; false when an operand is NaN. -/
def fle (a b : F64) : Bool := !fisNaN a && !fisNaN b && decide (forder a ≤ forder b)

/-- 2^63 as a value. -/
def fTwoPow63 : F64 := 0x43E0000000000000

/-- `u64_to_f64` (00_scope.md R14): the nearest binary64. -/
def u64ToF64 (n : U64) : F64 := fpack false (roundMag (n.toNat * unitsPerOne) 1)

/-- The domain on which 00_scope.md R14 defines `f64_floor_to_u64`. -/
def floorDomain (x : F64) : Bool := fle fZero x && flt x fTwoPow63

/-- `f64_floor_to_u64` (00_scope.md R14): the largest integer not above `x`; outside its domain a
free value (log 12). -/
def f64FloorToU64 (x : F64) : U64 :=
  if floorDomain x then BitVec.ofNat 64 (magUnits (fmag x) / unitsPerOne) else Config.floorOutside x

end Sys2Proof.Machine
end

