-- ==== Sys2Proof/Machine/Functions.lean ====
section
/-! DEFINITION. The configuration functions SIN, POW, TANH and the random stream RND (00_scope.md R11
to R13, 43_noise_synthesizer.md R151). Each is a free function of Config with the properties the spec
requires imposed: where the free function breaks a required property, a value that meets it stands in
its place. Every function with the properties is obtained so (take it for the free one), and nothing
more than the properties can be proved (log 3, log 4). -/

namespace Sys2Proof.Machine

/-- `lo ≤ x ≤ hi`, false for a NaN. -/
def inRange (lo hi x : F64) : Bool := fle lo x && fle x hi

/-- -1.0 -/
def fMinusOne : F64 := 0xBFF0000000000000

/-- `0 ≤ x < TWO_PI`, the range of a phase (00_scope.md R11). -/
def phaseInRange (x : F64) : Bool := fle fZero x && flt x twoPi

/-- `y` where it lies in `lo..hi`, else `other`. -/
def keepIn (lo hi other y : F64) : F64 := if inRange lo hi y then y else other

/-- SIN (00_scope.md R11): P1 `SIN(+0.0) = +0.0`; P2 in [-1, 1] on `0 ≤ x < TWO_PI`. -/
def SIN (x : F64) : F64 :=
  if x = fZero then fZero
  else if phaseInRange x then keepIn fMinusOne fOne fZero (Config.sinRom x)
  else Config.sinRom x

/-- A finite exponent above 0 (00_scope.md R12, properties P3 and P4). -/
def positiveExponent (e : F64) : Bool := fisFinite e && flt fZero e

/-- An exponent for which P5 makes `POW(10.0, e)` finite and positive (00_scope.md R12). -/
def decimalExponent (e : F64) : Bool := flt (fneg f308) e && flt e f308

/-- POW (00_scope.md R12): P3 `POW(+0.0, e) = +0.0`; P4 in [0, 1] for a base in [0, 1]; P5
`POW(10.0, y)` finite and positive for `-308 < y < 308`. -/
def POW (x e : F64) : F64 :=
  if positiveExponent e && inRange fZero fOne x then
    if x = fZero then fZero else keepIn fZero fOne fZero (Config.powUnit x e)
  else if x = fTen && decimalExponent e then
    if fisFinite (Config.powUnit x e) && flt fZero (Config.powUnit x e) then Config.powUnit x e
    else fOne
  else Config.powUnit x e

/-- TANH (00_scope.md R13): P6 `TANH(+0.0) = +0.0`; P7 in [-1, 1] for an operand that is not NaN;
P8 a NaN for a NaN. -/
def TANH (x : F64) : F64 :=
  if fisNaN x then
    if fisNaN (Config.tanhUnit x) then Config.tanhUnit x else x
  else if x = fZero then fZero
  else keepIn fMinusOne fOne fZero (Config.tanhUnit x)

/-- RND (00_scope.md R6), the random stream by draw number within a session, where nothing of it is
given: in [-1, 1], hence no NaN (43_noise_synthesizer.md R151). -/
def RND (n : Nat) : F64 := keepIn fMinusOne fOne fZero (Config.rndPort n)

end Sys2Proof.Machine
end

