-- ==== Sys2Proof/Machine/State.lean ====
section
/-! DEFINITION. The state of the block (10_state.md R20 to R38), the reasons a step can stop, and the
state after reset (70_reset_and_hazards.md R271). -/

namespace Sys2Proof.Machine

/-- Why the machine stops with a fault. -/
inductive Fault where
  /-- An access to a delay word that does not exist (20_memory.md R62: an address is valid exactly
  when `o < RV_LEN[c][j]`). Raised by RV.COMB, RV.AP and RV.PROC, and by SAMPLE and RENDER through
  them, only where a cursor is not below its line's length, which no session reaches (44 R177).
  Safe: the spec gives such an access no effect (log 10). -/
  | delayWordAbsent
  deriving DecidableEq, Repr

/-- Why the machine gives an instruction no meaning. -/
inductive Refusal where
  /-- The instruction of that name has no meaning in this model yet. Safe. -/
  | notModelled (mnemonic : String)
  /-- A select word, or an instance field, that 30_encoding.md R86 reserves. Raised by the sequencer
  slot and by a term of Instr that is not well formed. Safe (log 11). -/
  | reservedSelect
  deriving DecidableEq, Repr

/-- The pending parameter registers, written by the host (10_state.md R23, R24). -/
structure Pending where
  mode : U64
  sampleRate : F64
  duration : F64
  softness : F64
  gainDb : F64
  entType : S64
  noiseType : S64
  noiseLevel : F64
  pulseCnt : U64
  carrierCnt : U64
  pulse : Vector F64 5
  carrier : Vector F64 5
  deriving DecidableEq, Repr

/-- The active parameter registers, read by the session (10_state.md R26). -/
structure Active where
  /-- A_MODE -/
  mode : U64
  /-- A_FS -/
  fs : F64
  /-- A_SOFT -/
  soft : F64
  /-- A_GAIN_DB -/
  gainDb : F64
  /-- GAIN_LIN -/
  gainLin : F64
  /-- A_ENT -/
  ent : S64
  /-- A_NTYPE -/
  ntype : S64
  /-- A_NLEVEL -/
  nlevel : F64
  /-- A_PULSE -/
  pulse : Vector F64 5
  /-- A_CARRIER -/
  carrier : Vector F64 5
  /-- KF_T -/
  kfT : Vector F64 5
  deriving DecidableEq, Repr

/-- STATUS.STATE (10_state.md R27); codes 5 to 7 never occur. -/
inductive EngineState where
  | idle | preparing | rendering | complete | failed
  deriving DecidableEq, Repr

/-- STATUS.ERR (10_state.md R27, 60_exceptions.md R242). -/
inductive ErrClass where
  | none | configuration | resource | runtime
  deriving DecidableEq, Repr

/-- The fields of STATUS (10_state.md R27); its other bits read 0. -/
structure Status where
  state : EngineState
  err : ErrClass
  detail : BitVec 8
  jnyOn : Bool
  capNoise : Bool
  capReverb : Bool
  capJourney : Bool
  /-- ENV_SEL: false the batch curve, true the real-time curve. -/
  envSel : Bool
  /-- SAT_SEL: false the tanh saturator, true the soft-knee clipper. -/
  satSel : Bool
  deriving DecidableEq, Repr

/-- The noise registers (10_state.md R32). -/
structure Noise where
  brown : F64
  lpf : F64
  cnt : U64
  lfoRate : F64
  row : Vector F64 7
  deriving DecidableEq, Repr

/-- A delay word that holds something else than +0.0, with its offset in its line. -/
abbrev DelayCell := Nat × F64

/-- The contents of one delay line: offsets strictly rising, no word equal to +0.0, which is what an
unlisted word of the line reads as (44_reverb_network.md R171 zero-fills; log 9). -/
abbrev DelayLine := List DelayCell

/-- One channel's reverb network (44_reverb_network.md R170): RV_LEN[c], RV_IDX[c] (10_state.md R33)
and the delay lines DM[c] (R34). Lines 0 to 3 are the combs, line 4 the all-pass. -/
structure Network where
  len : Vector U64 5
  idx : Vector U64 5
  line : Vector DelayLine 5
  deriving DecidableEq, Repr

/-- One pair on the sink port (20_memory.md R68). -/
structure OutPair where
  left : F64
  right : F64
  last : Bool
  deriving DecidableEq, Repr

/-- The response codes (30_encoding.md R84); codes 5 to 7 are never produced. -/
inductive Resp where
  | ok | errIllegal | errState | errAddr | errRo
  deriving DecidableEq, Repr

/-- RESP and RDATA of one command (30_encoding.md R84). -/
structure Response where
  resp : Resp
  rdata : U64
  deriving DecidableEq, Repr

/-- What the outside presents: a command with its operand word (30_encoding.md R80), or the reset
input (70_reset_and_hazards.md R270). -/
inductive PortEvent where
  | command (word : CmdWord) (wdata : WData)
  | reset
  deriving DecidableEq, Repr

/-- The whole state. -/
structure State where
  pend : Pending
  act : Active
  status : Status
  pos : U64
  total : U64
  draws : U64
  ph : Vector F64 5
  nz : Noise
  rv : Vector Network 2
  out : List OutPair
  /-- What the command port and the reset input still present, first first (log 6). -/
  port : List PortEvent
  /-- The last response given (log 16). -/
  resp : Option Response
  /-- The values of the session's random stream that are given, by draw number (log 4). -/
  rndGiven : List F64
  /-- DELAY_CAP (00_scope.md R6); `none` is no limit (log 5). -/
  delayCap : Option Nat
  /-- MODEL'S OWN: the select word presented to the sequencer alone (log 7). -/
  sel : Option CmdWord
  /-- MODEL'S OWN: the first operand bus of a unit operation run alone (log 8). -/
  opA : F64
  /-- MODEL'S OWN: the second operand bus (log 8). -/
  opB : F64
  /-- MODEL'S OWN: the one-bit operand bus (log 8). -/
  opLast : Bool
  /-- MODEL'S OWN: the first result bus (log 8). -/
  resA : F64
  /-- MODEL'S OWN: the second result bus (log 8). -/
  resB : F64
  deriving DecidableEq, Repr

/-- The pending registers after reset (70_reset_and_hazards.md R271). -/
def Pending.reset : Pending where
  mode := 0
  sampleRate := 0x40E5888000000000
  duration := 0
  softness := 0
  gainDb := 0xC024000000000000
  entType := 0
  noiseType := 0xFFFFFFFFFFFFFFFF
  noiseLevel := 0x3FD3333333333333
  pulseCnt := 1
  carrierCnt := 1
  pulse := #v[0, 0, 0, 0, 0]
  carrier := #v[0, 0, 0, 0, 0]

/-- Every active register at all-zero bits (10_state.md R26). -/
def Active.zero : Active where
  mode := 0
  fs := 0
  soft := 0
  gainDb := 0
  gainLin := 0
  ent := 0
  ntype := 0
  nlevel := 0
  pulse := #v[0, 0, 0, 0, 0]
  carrier := #v[0, 0, 0, 0, 0]
  kfT := #v[0, 0, 0, 0, 0]

/-- STATUS all zero: Idle, no error, no flag (10_state.md R27). -/
def Status.zero : Status where
  state := .idle
  err := .none
  detail := 0
  jnyOn := false
  capNoise := false
  capReverb := false
  capJourney := false
  envSel := false
  satSel := false

/-- The noise registers at all-zero bits (10_state.md R32). -/
def Noise.zero : Noise where
  brown := 0
  lpf := 0
  cnt := 0
  lfoRate := 0
  row := #v[0, 0, 0, 0, 0, 0, 0]

/-- No line allocated: lengths and cursors 0, no word (10_state.md R33, R34). -/
def Network.empty : Network where
  len := #v[0, 0, 0, 0, 0]
  idx := #v[0, 0, 0, 0, 0]
  line := #v[[], [], [], [], []]

/-- The state after reset (70_reset_and_hazards.md R271): Idle, nothing allocated, nothing emitted.
The ports present nothing, no response was given, and the model's own fields are at the values of
logs 4, 5, 6, 7, 8 and 16. -/
def State.reset : State where
  pend := Pending.reset
  act := Active.zero
  status := Status.zero
  pos := 0
  total := 0
  draws := 0
  ph := #v[0, 0, 0, 0, 0]
  nz := Noise.zero
  rv := #v[Network.empty, Network.empty]
  out := []
  port := []
  resp := none
  rndGiven := []
  delayCap := none
  sel := none
  opA := 0
  opB := 0
  opLast := false
  resA := 0
  resB := 0

end Sys2Proof.Machine
end

