-- ==== Sys2Proof/Machine/Flags.lean ====
section
/-! DEFINITION. There are no condition codes and no arithmetic flags (10_state.md R30). What stands in
their place is STATUS: the codes of its fields, the word read at address 0x20 (10_state.md R27), and
the capability flags and strategy selectors that PREPARE derives from the mode. -/

namespace Sys2Proof.Machine

/-- STATE codes (10_state.md R27). -/
def stateCode : EngineState → BitVec 3
  | .idle => 0
  | .preparing => 1
  | .rendering => 2
  | .complete => 3
  | .failed => 4

/-- ERR codes (60_exceptions.md R242). -/
def errCode : ErrClass → BitVec 2
  | .none => 0
  | .configuration => 1
  | .resource => 2
  | .runtime => 3

/-- RESP codes (30_encoding.md R84). -/
def respCode : Resp → BitVec 3
  | .ok => 0
  | .errIllegal => 1
  | .errState => 2
  | .errAddr => 3
  | .errRo => 4

/-- STATUS as the host reads it (10_state.md R27): bits 63:22, 7:6 and 3 read 0. -/
def statusWord (st : Status) : U64 :=
  (0#42) ++ BitVec.ofBool st.satSel ++ BitVec.ofBool st.envSel ++ BitVec.ofBool st.capJourney
    ++ BitVec.ofBool st.capReverb ++ BitVec.ofBool st.capNoise ++ BitVec.ofBool st.jnyOn
    ++ st.detail ++ (0#2) ++ errCode st.err ++ (0#1) ++ stateCode st.state

/-- The flags of a BATCH session (10_state.md R27, 46_engine_commands.md R214): all capabilities,
`ENV_SEL = SAT_SEL = 0`, a journey exactly when `jny`. -/
def batchFlags (jny : Bool) (st : Status) : Status :=
  { st with capNoise := true, capReverb := true, capJourney := true, envSel := false,
            satSel := false, jnyOn := jny }

/-- The flags of a STREAM session (10_state.md R27, 46_engine_commands.md R214): no capability, no
journey, `ENV_SEL = SAT_SEL = 1`. -/
def streamFlags (st : Status) : Status :=
  { st with capNoise := false, capReverb := false, capJourney := false, envSel := true,
            satSel := true, jnyOn := false }

end Sys2Proof.Machine
end

