-- ==== Sys2Proof/Machine/Registers.lean ====
section
/-! DEFINITION. The control-register space: the map of 10_state.md R37, the reading of every register
and the writing of the RW ones (10_state.md R22). -/

namespace Sys2Proof.Machine

/-- The registers of 10_state.md R37. -/
inductive Reg where
  | mode | sampleRate | duration | softness | gainDb | entType | noiseType | noiseLevel
  | pulseCnt | carrierCnt
  | pulse (i : Fin 5) | carrier (i : Fin 5)
  | status | pos | total | draws
  | aMode | aFs | aSoft | aGainDb | gainLin | aEnt | aNtype | aNlevel
  | aPulse (i : Fin 5) | aCarrier (i : Fin 5) | kfT (i : Fin 5) | ph (i : Fin 5)
  | nzBrown | nzLpf | nzCnt | nzLfoRate | nzRow (i : Fin 7)
  | rvLen (c : Fin 2) (j : Fin 5) | rvIdx (c : Fin 2) (j : Fin 5)
  deriving DecidableEq, Repr

/-- The element of a block of five registers starting at `base`. -/
def blockIndex (base n : Nat) : Option (Fin 5) :=
  if h : base ≤ n ∧ n < base + 5 then some ⟨n - base, by omega⟩ else none

/-- The element of the block of seven registers starting at `base`. -/
def rowIndex (base n : Nat) : Option (Fin 7) :=
  if h : base ≤ n ∧ n < base + 7 then some ⟨n - base, by omega⟩ else none

/-- The register arrays of 10_state.md R37, by address. -/
def arrayAt (n : Nat) : Option Reg :=
  (blockIndex 0x10 n).map Reg.pulse
    <|> (blockIndex 0x18 n).map Reg.carrier
    <|> (blockIndex 0x30 n).map Reg.aPulse
    <|> (blockIndex 0x38 n).map Reg.aCarrier
    <|> (blockIndex 0x40 n).map Reg.kfT
    <|> (blockIndex 0x48 n).map Reg.ph
    <|> (rowIndex 0x58 n).map Reg.nzRow
    <|> (blockIndex 0x60 n).map (Reg.rvLen 0)
    <|> (blockIndex 0x68 n).map (Reg.rvLen 1)
    <|> (blockIndex 0x70 n).map (Reg.rvIdx 0)
    <|> (blockIndex 0x78 n).map (Reg.rvIdx 1)

/-- The register at an address, none where the address is undefined (10_state.md R37). -/
def regAt (a : RegAddr) : Option Reg :=
  match a.toNat with
  | 0x00 => some .mode
  | 0x01 => some .sampleRate
  | 0x02 => some .duration
  | 0x03 => some .softness
  | 0x04 => some .gainDb
  | 0x05 => some .entType
  | 0x06 => some .noiseType
  | 0x07 => some .noiseLevel
  | 0x08 => some .pulseCnt
  | 0x09 => some .carrierCnt
  | 0x20 => some .status
  | 0x21 => some .pos
  | 0x22 => some .total
  | 0x23 => some .draws
  | 0x28 => some .aMode
  | 0x29 => some .aFs
  | 0x2A => some .aSoft
  | 0x2B => some .aGainDb
  | 0x2C => some .gainLin
  | 0x2D => some .aEnt
  | 0x2E => some .aNtype
  | 0x2F => some .aNlevel
  | 0x50 => some .nzBrown
  | 0x51 => some .nzLpf
  | 0x52 => some .nzCnt
  | 0x53 => some .nzLfoRate
  | n => arrayAt n

/-- The address of a register (10_state.md R37; RV_LEN and RV_IDX as 10_state.md R33 says). -/
def regAddr : Reg → RegAddr
  | .mode => 0x00
  | .sampleRate => 0x01
  | .duration => 0x02
  | .softness => 0x03
  | .gainDb => 0x04
  | .entType => 0x05
  | .noiseType => 0x06
  | .noiseLevel => 0x07
  | .pulseCnt => 0x08
  | .carrierCnt => 0x09
  | .pulse i => BitVec.ofNat 8 (0x10 + i.val)
  | .carrier i => BitVec.ofNat 8 (0x18 + i.val)
  | .status => 0x20
  | .pos => 0x21
  | .total => 0x22
  | .draws => 0x23
  | .aMode => 0x28
  | .aFs => 0x29
  | .aSoft => 0x2A
  | .aGainDb => 0x2B
  | .gainLin => 0x2C
  | .aEnt => 0x2D
  | .aNtype => 0x2E
  | .aNlevel => 0x2F
  | .aPulse i => BitVec.ofNat 8 (0x30 + i.val)
  | .aCarrier i => BitVec.ofNat 8 (0x38 + i.val)
  | .kfT i => BitVec.ofNat 8 (0x40 + i.val)
  | .ph i => BitVec.ofNat 8 (0x48 + i.val)
  | .nzBrown => 0x50
  | .nzLpf => 0x51
  | .nzCnt => 0x52
  | .nzLfoRate => 0x53
  | .nzRow i => BitVec.ofNat 8 (0x58 + i.val)
  | .rvLen c j => BitVec.ofNat 8 (0x60 + 8 * c.val + j.val)
  | .rvIdx c j => BitVec.ofNat 8 (0x70 + 8 * c.val + j.val)

/-- The value read from a register (46_engine_commands.md R213). -/
def readReg (s : State) : Reg → U64
  | .mode => s.pend.mode
  | .sampleRate => s.pend.sampleRate
  | .duration => s.pend.duration
  | .softness => s.pend.softness
  | .gainDb => s.pend.gainDb
  | .entType => s.pend.entType
  | .noiseType => s.pend.noiseType
  | .noiseLevel => s.pend.noiseLevel
  | .pulseCnt => s.pend.pulseCnt
  | .carrierCnt => s.pend.carrierCnt
  | .pulse i => s.pend.pulse[i]
  | .carrier i => s.pend.carrier[i]
  | .status => statusWord s.status
  | .pos => s.pos
  | .total => s.total
  | .draws => s.draws
  | .aMode => s.act.mode
  | .aFs => s.act.fs
  | .aSoft => s.act.soft
  | .aGainDb => s.act.gainDb
  | .gainLin => s.act.gainLin
  | .aEnt => s.act.ent
  | .aNtype => s.act.ntype
  | .aNlevel => s.act.nlevel
  | .aPulse i => s.act.pulse[i]
  | .aCarrier i => s.act.carrier[i]
  | .kfT i => s.act.kfT[i]
  | .ph i => s.ph[i]
  | .nzBrown => s.nz.brown
  | .nzLpf => s.nz.lpf
  | .nzCnt => s.nz.cnt
  | .nzLfoRate => s.nz.lfoRate
  | .nzRow i => s.nz.row[i]
  | .rvLen c j => s.rv[c].len[j]
  | .rvIdx c j => s.rv[c].idx[j]

/-- The pending registers after a host write, none where the register is RO (10_state.md R22, R37).
The pattern is stored as it is: there is no legalisation on write (R22). -/
def writePending (p : Pending) (v : U64) : Reg → Option Pending
  | .mode => some { p with mode := v }
  | .sampleRate => some { p with sampleRate := v }
  | .duration => some { p with duration := v }
  | .softness => some { p with softness := v }
  | .gainDb => some { p with gainDb := v }
  | .entType => some { p with entType := v }
  | .noiseType => some { p with noiseType := v }
  | .noiseLevel => some { p with noiseLevel := v }
  | .pulseCnt => some { p with pulseCnt := v }
  | .carrierCnt => some { p with carrierCnt := v }
  | .pulse i => some { p with pulse := p.pulse.set i.val v i.isLt }
  | .carrier i => some { p with carrier := p.carrier.set i.val v i.isLt }
  | .status => none
  | .pos => none
  | .total => none
  | .draws => none
  | .aMode => none
  | .aFs => none
  | .aSoft => none
  | .aGainDb => none
  | .gainLin => none
  | .aEnt => none
  | .aNtype => none
  | .aNlevel => none
  | .aPulse _ => none
  | .aCarrier _ => none
  | .kfT _ => none
  | .ph _ => none
  | .nzBrown => none
  | .nzLpf => none
  | .nzCnt => none
  | .nzLfoRate => none
  | .nzRow _ => none
  | .rvLen _ _ => none
  | .rvIdx _ _ => none

end Sys2Proof.Machine
end

