-- ==== Sys2Proof/Machine/Ops.lean ====
section
/-! DEFINITION. The shared operations over memory, ports and registers: one delay line and its
circular access (20_memory.md R62, R76), `draw()` and `emit` (00_scope.md R16), the response of a
command (30_encoding.md R84), entering Failed (60_exceptions.md R244) and the return from it
(R246), and reset (70_reset_and_hazards.md R270). -/

namespace Sys2Proof.Machine

/-! ### One delay line -/

/-- What a word of an allocated line reads as where no cell is listed (44_reverb_network.md R171:
RV.PREP zero-fills). -/
def delayFill : F64 := fZero

/-- The word at offset `o` of a line (20_memory.md R62 `MemRead`); the caller checks that it exists. -/
def lineRead : DelayLine → Nat → F64
  | [], _ => delayFill
  | (a, w) :: rest, o => if a = o then w else lineRead rest o

/-- The line with no cell at offset `o`. -/
def lineErase : DelayLine → Nat → DelayLine
  | [], _ => []
  | (a, w) :: rest, o => if a = o then rest else (a, w) :: lineErase rest o

/-- The line with the cell `(o, v)`, in its place. -/
def lineInsert : DelayLine → Nat → F64 → DelayLine
  | [], o, v => [(o, v)]
  | (a, w) :: rest, o, v =>
    if a = o then (o, v) :: rest
    else if o < a then (o, v) :: (a, w) :: rest
    else (a, w) :: lineInsert rest o v

/-- `MemWrite` on a line (20_memory.md R62), keeping the canonical form: writing the value an
unlisted word reads as removes the cell. -/
def lineWrite (l : DelayLine) (o : Nat) (v : F64) : DelayLine :=
  if v = delayFill then lineErase l o else lineInsert l o v

/-- Offsets strictly rising from `lo`, all below `len`, and no cell equal to the fill value. -/
def lineWfFrom (len : Nat) : Nat → DelayLine → Bool
  | _, [] => true
  | lo, (a, w) :: rest =>
    decide (lo ≤ a) && decide (a < len) && !decide (w = delayFill) && lineWfFrom len (a + 1) rest

/-- The canonical form of a line of `len` words; words at or beyond the length do not exist
(10_state.md R34). -/
def lineWf (len : Nat) (l : DelayLine) : Bool := lineWfFrom len 0 l

/-- `Memory.wf`: every delay line of both networks is in canonical form. -/
abbrev Memory.wf (rv : Vector Network 2) : Prop :=
  ∀ c : Fin 2, ∀ j : Fin 5, lineWf (rv[c].len[j]).toNat rv[c].line[j] = true

/-- The next cursor: `(i + 1) mod L` (20_memory.md R76). -/
def nextCursor (i len : U64) : U64 := BitVec.ofNat 64 ((i.toNat + 1) % len.toNat)

/-- A delay word exists exactly when its offset is below the line's length (20_memory.md R62). -/
def Network.wordExists (n : Network) (j : Fin 5) (o : Nat) : Bool := decide (o < n.len[j].toNat)

/-- `MemRead(dm(c, j, o), 1)`, none where the word does not exist (20_memory.md R62). -/
def Network.readWord (n : Network) (j : Fin 5) (o : Nat) : Option F64 :=
  if n.wordExists j o then some (lineRead n.line[j] o) else none

/-- `MemWrite(dm(c, j, o), 1, v)` on a word that exists. -/
def Network.writeWord (n : Network) (j : Fin 5) (o : Nat) (v : F64) : Network :=
  { n with line := n.line.set j.val (lineWrite n.line[j] o v) j.isLt }

/-- The cursor of line `j` advanced by one modulo its length. -/
def Network.advance (n : Network) (j : Fin 5) : Network :=
  { n with idx := n.idx.set j.val (nextCursor n.idx[j] n.len[j]) j.isLt }

/-- The one access pattern of a delay line (20_memory.md R76): read the word at the cursor, write
the word computed from it at the same cursor, advance the cursor. -/
def Network.access (n : Network) (j : Fin 5) (w : F64 → F64) : Except Fault (F64 × Network) :=
  match n.readWord j n.idx[j].toNat with
  | none => .error .delayWordAbsent
  | some r => .ok (r, (n.writeWord j n.idx[j].toNat (w r)).advance j)

/-- The line of `len` words, zero-filled, cursor at 0 (44_reverb_network.md R171). -/
def Network.allocate (n : Network) (j : Fin 5) (len : U64) : Network :=
  { len := n.len.set j.val len j.isLt
    idx := n.idx.set j.val 0 j.isLt
    line := n.line.set j.val [] j.isLt }

/-- Network `c` replaced. -/
def State.setNet (s : State) (c : Fin 2) (n : Network) : State :=
  { s with rv := s.rv.set c.val n c.isLt }

/-! ### Registers that unit operations write -/

/-- `PH[k] <- v` -/
def State.setPh (s : State) (k : Fin 5) (v : F64) : State :=
  { s with ph := s.ph.set k.val v k.isLt }

/-- `NZ_ROW[i] <- v` -/
def State.setRow (s : State) (i : Fin 7) (v : F64) : State :=
  { s with nz.row := s.nz.row.set i.val v i.isLt }

/-! ### The random port -/

/-- Value `n` of the session's stream (00_scope.md R6): the given one where the stream is given so far,
else the free `RND n` (log 4). -/
def streamValue (s : State) (n : Nat) : F64 :=
  match s.rndGiven[n]? with
  | some w => w
  | none => RND n

/-- The value the next `draw()` returns, `RND(DRAWS)` (00_scope.md R16). -/
def drawValue (s : State) : F64 := streamValue s s.draws.toNat

/-- `draw()` (00_scope.md R16): the next value of the stream, and `DRAWS <- DRAWS + 1`. -/
def draw (s : State) : F64 × State :=
  (drawValue s, { s with draws := s.draws + 1 })

/-! ### The sink and the command port -/

/-- `emit(l, r)` with its flag (00_scope.md R16, 20_memory.md R68). -/
def emit (l r : F64) (last : Bool) (s : State) : State := { s with out := s.out ++ [⟨l, r, last⟩] }

/-- `respond(code, data)` (00_scope.md R16, 30_encoding.md R84). -/
def respond (code : Resp) (data : U64) (s : State) : State := { s with resp := some ⟨code, data⟩ }

/-- A refusal: the code with RDATA = 0 and no other change (60_exceptions.md R241). -/
def refuse (code : Resp) (s : State) : State := respond code 0 s

/-! ### Session errors -/

/-- The session errors (60_exceptions.md R243). -/
inductive SessionError where
  | badMode | badRate | badJourney | badDuration | badEnt | badNoise | delayTooLong
  | nonfiniteOutput
  deriving DecidableEq, Repr

/-- The class of a session error (60_exceptions.md R243). -/
def errorClass : SessionError → ErrClass
  | .badMode => .configuration
  | .badRate => .configuration
  | .badJourney => .configuration
  | .badDuration => .configuration
  | .badEnt => .configuration
  | .badNoise => .configuration
  | .delayTooLong => .resource
  | .nonfiniteOutput => .runtime

/-- The detail code of a session error (60_exceptions.md R243). -/
def errorDetail : SessionError → BitVec 8
  | .badMode => 1
  | .badRate => 2
  | .badJourney => 3
  | .badDuration => 4
  | .badEnt => 5
  | .badNoise => 6
  | .delayTooLong => 7
  | .nonfiniteOutput => 8

/-- `raise C(d)`, the entry to Failed (60_exceptions.md R244): ERR, ERR_DETAIL and STATE, nothing
else. The response that ends the command is the command's own. -/
def raiseError (e : SessionError) (s : State) : State :=
  { s with status.err := errorClass e, status.detail := errorDetail e, status.state := .failed }

/-- What RELEASE does to the registers and the delay memory, the return from Failed (60_exceptions.md
R246, 46_engine_commands.md R218): every RO register at all-zero bits, no delay word allocated. -/
def clearSession (s : State) : State :=
  { s with
    act := Active.zero
    status := Status.zero
    pos := 0
    total := 0
    draws := 0
    ph := #v[0, 0, 0, 0, 0]
    nz := Noise.zero
    rv := #v[Network.empty, Network.empty] }

/-- The reset input released (70_reset_and_hazards.md R270, R271): the state after reset, with what
lies outside the block (what the ports still present, the random source, DELAY_CAP) as it was. -/
def resetInput (s : State) : State :=
  { State.reset with
    port := s.port
    rndGiven := s.rndGiven
    delayCap := s.delayCap }

end Sys2Proof.Machine
end

