-- ==== Sys2Proof/Machine/Operands.lean ====
section
/-! DEFINITION. The operand forms: the instance fields of a unit operation (30_encoding.md R86), the
delay-memory address in WDATA (R83, 20_memory.md R62), and the operand and result buses of a unit
operation that the sequencer runs alone (log 8). -/

namespace Sys2Proof.Machine

/-- The accumulator an instance field names, none where it is reserved (30_encoding.md R86). -/
def accumulatorOf (k : BitVec 4) : Option (Fin 5) :=
  if h : k.toNat < 5 then some ⟨k.toNat, h⟩ else none

/-- The comb an instance field names, none where it is reserved (30_encoding.md R86). -/
def combOf (j : BitVec 3) : Option (Fin 4) :=
  if h : j.toNat < 4 then some ⟨j.toNat, h⟩ else none

/-- The channel a one-bit field names: 0 left, 1 right (10_state.md R33). -/
def channelOf (c : BitVec 1) : Fin 2 := ⟨c.toNat, c.isLt⟩

/-- `dm(c, j, o)`, the word address of a delay word (00_scope.md R16). -/
def dmAddress (c : Fin 2) (j : Fin 5) (o : BitVec 32) : WData :=
  (0#28) ++ BitVec.ofNat 1 c.val ++ BitVec.ofNat 3 j.val ++ o

/-- The channel, line and offset a WDATA address names, none where bits 63:36 are not 0 or the line
is above 4 (46_engine_commands.md R215). -/
def dmFields (wdata : WData) : Option (Fin 2 × Fin 5 × Nat) :=
  if wdata.extractLsb' 36 28 ≠ 0 then none
  else if h : (wdata.extractLsb' 32 3).toNat < 5 then
    some (channelOf (wdata.extractLsb' 35 1), ⟨(wdata.extractLsb' 32 3).toNat, h⟩,
      (wdata.extractLsb' 0 32).toNat)
  else none

/-- A result on the first result bus. -/
def result (v : F64) (s : State) : State := { s with resA := v }

/-- Two results, first and second bus. -/
def result2 (v w : F64) (s : State) : State := { s with resA := v, resB := w }

end Sys2Proof.Machine
end

