-- ==== Sys2Proof/Machine/Envelope.lean ====
section
/-! DEFINITION. PulseEnvelope: ENV.BATCH, ENV.RT (41_pulse_envelope.md). -/

namespace Sys2Proof.Machine

/-- `max(0, raw)` as R123 defines it, never -0.0 and never NaN. -/
def rectify (raw : F64) : F64 := if flt fZero raw then raw else fZero

/-- ENV.BATCH (R121). -/
def envBatch (raw soft : F64) : F64 := POW (rectify raw) (fadd fOne (fmul kEnvB soft))

/-- ENV.RT (R122). -/
def envRt (raw soft : F64) : F64 :=
  if flt raw fZero then fZero else POW (fabs raw) (fsub fOne (fmul kEnvR soft))

/-- ENV.BATCH run alone: `raw` and `soft` on the operand buses (log 8). -/
def execEnvBatch (s : State) : Host.Outcome State Fault Refusal :=
  .next (result (envBatch s.opA s.opB) s)

/-- ENV.RT run alone: `raw` and `soft` on the operand buses (log 8). -/
def execEnvRt (s : State) : Host.Outcome State Fault Refusal :=
  .next (result (envRt s.opA s.opB) s)

end Sys2Proof.Machine
end

