-- ==== Sys2Proof/Machine/Journey.lean ====
section
/-! DEFINITION. JourneyInterpolator: JNY.BUILD, JNY.EVAL (42_journey_interpolator.md). -/

namespace Sys2Proof.Machine

/-- `KF_T[i]` of a journey of that duration (R131): `DURATION × M[i]`. -/
def keyframeTimes (duration : F64) : Vector F64 5 :=
  #v[fmul duration milestones[0], fmul duration milestones[1], fmul duration milestones[2],
    fmul duration milestones[3], fmul duration milestones[4]]

/-- JNY.BUILD (R131). -/
def jnyBuild (s : State) : State :=
  { s with
    act.pulse := s.pend.pulse
    act.carrier := s.pend.carrier
    act.kfT := if s.status.jnyOn then keyframeTimes s.pend.duration
      else #v[fZero, fZero, fZero, fZero, fZero] }

/-- The segment of a time (R132): the first whose upper time is not below `t`, else the last. -/
def jnySegment (kfT : Vector F64 5) (t : F64) : Fin 4 :=
  if fle t kfT[1] then 0
  else if fle t kfT[2] then 1
  else if fle t kfT[3] then 2
  else 3

/-- The two clamps of `alpha` (R132). -/
def clampUnit (alpha : F64) : F64 :=
  if flt alpha fZero then fZero else if flt fOne alpha then fOne else alpha

/-- `((1.0 - alpha) × a) + (alpha × b)` (R132). -/
def interpolate (alpha a b : F64) : F64 := fadd (fmul (fsub fOne alpha) a) (fmul alpha b)

/-- The clamped position of `t` in segment `i` (R132). -/
def jnyAlpha (kfT : Vector F64 5) (i : Fin 4) (t : F64) : F64 :=
  clampUnit (fdiv (fsub t kfT[i.castSucc]) (fsub kfT[i.succ] kfT[i.castSucc]))

/-- The keyframe times rise strictly: the precondition of R135, under which no segment has a width
of zero. -/
def keyframesRise (kfT : Vector F64 5) : Bool :=
  flt kfT[0] kfT[1] && flt kfT[1] kfT[2] && flt kfT[2] kfT[3] && flt kfT[3] kfT[4]

/-- One list of keyframe values at time `t` (R132), from segment and `alpha`. -/
def keyframeValue (kfT values : Vector F64 5) (t : F64) : F64 :=
  interpolate (jnyAlpha kfT (jnySegment kfT t) t)
    values[(jnySegment kfT t).castSucc] values[(jnySegment kfT t).succ]

/-- One list of keyframe values at time `t`, with the precondition of R135 ("must carry `KF_T`
strictly increasing as a precondition"): where the times do not rise strictly, which a run never has,
the value is free. -/
def journeyValue (kfT values : Vector F64 5) (t : F64) : F64 :=
  if keyframesRise kfT then keyframeValue kfT values t
  else Config.journeyOutside kfT values t -- DESIGN CHOICE, log 20

/-- JNY.EVAL (R132, R135): the pulse and the carrier frequency at time `t`. -/
def jnyEval (a : Active) (t : F64) : F64 × F64 :=
  (journeyValue a.kfT a.pulse t, journeyValue a.kfT a.carrier t)

/-- JNY.BUILD run alone. -/
def execJnyBuild (s : State) : Host.Outcome State Fault Refusal := .next (jnyBuild s)

/-- JNY.EVAL run alone: `t` on the first operand bus, `fp` and `fc` on the result buses (log 8). It runs
in every state (log 17); outside the precondition of R135 both results are free (log 20). -/
def execJnyEval (s : State) : Host.Outcome State Fault Refusal :=
  .next (result2 (jnyEval s.act s.opA).1 (jnyEval s.act s.opA).2 s)

end Sys2Proof.Machine
end

