-- ==== Sys2Proof/Machine/Mixer.lean ====
section
/-! DEFINITION. The mixer and saturator: GAIN.LIN, MIX.DRY, MIX.WET, SAT.TANH, SAT.KNEE
(45_mixer_saturator.md). -/

namespace Sys2Proof.Machine

/-- Decibels to linear gain (R191): `POW(10.0, db ÷ 20.0)`. -/
def linearGain (db : F64) : F64 := POW fTen (fdiv db fTwenty)

/-- GAIN.LIN (R191). -/
def gainLin (db : F64) (s : State) : State := { s with act.gainLin := linearGain db }

/-- Noise is enabled: `CAP_NOISE = 1 and A_NTYPE ≠ -1` (R192, 46_engine_commands.md R217 step 3). -/
def noiseOn (s : State) : Bool := s.status.capNoise && !decide (s.act.ntype = 0xFFFFFFFFFFFFFFFF)

/-- MIX.DRY (R192); `nz` is not read when noise is off. -/
def mixDry (tone nz : F64) (s : State) : F64 :=
  if noiseOn s then fmul s.act.gainLin (fadd tone (fmul s.act.nlevel nz))
  else fmul s.act.gainLin tone

/-- MIX.WET (R193); `wet` is not read when there is no reverb. -/
def mixWet (dry wet : F64) (s : State) : F64 :=
  if s.status.capReverb then fadd dry (fmul kWet wet) else dry

/-- SAT.TANH (R194). -/
def satTanh (x : F64) : F64 := TANH x

/-- The compressed magnitude above the threshold (R195): `0.9 + ((a - 0.9) × 0.1)`. -/
def kneeAbove (a : F64) : F64 := fadd kKneeT (fmul (fsub a kKneeT) kKneeR)

/-- SAT.KNEE (R195). -/
def satKnee (x : F64) : F64 :=
  if fle (fabs x) kKneeT then x
  else if flt fZero x then kneeAbove (fabs x) else fneg (kneeAbove (fabs x))

/-- GAIN.LIN run alone: `db` on the first operand bus (log 8). -/
def execGainLin (s : State) : Host.Outcome State Fault Refusal := .next (gainLin s.opA s)

/-- MIX.DRY run alone: `tone` and `nz` on the operand buses (log 8). -/
def execMixDry (s : State) : Host.Outcome State Fault Refusal :=
  .next (result (mixDry s.opA s.opB s) s)

/-- MIX.WET run alone: `dry` and `wet` on the operand buses (log 8). -/
def execMixWet (s : State) : Host.Outcome State Fault Refusal :=
  .next (result (mixWet s.opA s.opB s) s)

/-- SAT.TANH run alone: `x` on the first operand bus (log 8). -/
def execSatTanh (s : State) : Host.Outcome State Fault Refusal :=
  .next (result (satTanh s.opA) s)

/-- SAT.KNEE run alone: `x` on the first operand bus (log 8). -/
def execSatKnee (s : State) : Host.Outcome State Fault Refusal :=
  .next (result (satKnee s.opA) s)

end Sys2Proof.Machine
end

