-- ==== Sys2Proof/Machine/Phase.lean ====
section
/-! DEFINITION. PhaseAccumulator and the sine ROM oscillator: PA.INC, PA.ADV, PA.VAL, OSC.SIN
(40_phase_accumulator_oscillator.md). -/

namespace Sys2Proof.Machine

/-- PA.INC (R101): `(TWO_PI × f) ÷ fs`, the product first. -/
def paInc (f fs : F64) : F64 := fdiv (fmul twoPi f) fs

/-- One advance of an angle (R103): the sum, and at most one subtraction of `TWO_PI`. -/
def wrapAdvance (angle inc : F64) : F64 :=
  if fle twoPi (fadd angle inc) then fsub (fadd angle inc) twoPi else fadd angle inc

/-- PA.ADV k (R103). -/
def paAdv (k : Fin 5) (inc : F64) (s : State) : State := s.setPh k (wrapAdvance s.ph[k] inc)

/-- PA.VAL k (R102). -/
def paVal (k : Fin 5) (s : State) : F64 := s.ph[k]

/-- OSC.SIN k (R104). -/
def oscSin (k : Fin 5) (s : State) : F64 := SIN (paVal k s)

/-- PA.INC run alone: `f` and `fs` on the operand buses (log 8). -/
def execPaInc (s : State) : Host.Outcome State Fault Refusal :=
  .next (result (paInc s.opA s.opB) s)

/-- PA.ADV k run alone: `inc` on the first operand bus. -/
def execPaAdv (k : BitVec 4) (s : State) : Host.Outcome State Fault Refusal :=
  match accumulatorOf k with
  | none => .refused .reservedSelect
  | some i => .next (paAdv i s.opA s)

/-- PA.VAL k run alone. -/
def execPaVal (k : BitVec 4) (s : State) : Host.Outcome State Fault Refusal :=
  match accumulatorOf k with
  | none => .refused .reservedSelect
  | some i => .next (result (paVal i s) s)

/-- OSC.SIN k run alone. -/
def execOscSin (k : BitVec 4) (s : State) : Host.Outcome State Fault Refusal :=
  match accumulatorOf k with
  | none => .refused .reservedSelect
  | some i => .next (result (oscSin i s) s)

end Sys2Proof.Machine
end

