-- ==== Sys2Proof/Machine/NoiseUnit.lean ====
section
/-! DEFINITION. NoiseSynthesizer: NZ.PREP, NZ.WHITE, NZ.PINK, NZ.BROWN, NZ.LFO, NZ.LPF, NZ.PROC
(43_noise_synthesizer.md). -/

namespace Sys2Proof.Machine

/-- The LFO rate that NZ.PREP chooses (R152): 0.05 Hz below 8 Hz, else 0.2 Hz. -/
def lfoRateFor (ref : F64) : F64 := if flt ref kLfoSplit then kLfoSlow else kLfoFast

/-- NZ.PREP (R152). -/
def nzPrep (ref : F64) (s : State) : State :=
  { s.setPh 4 fZero with nz := { Noise.zero with lfoRate := lfoRateFor ref } }

/-- NZ.WHITE (R153): the drawn value. -/
def nzWhite (s : State) : F64 × State := draw s

/-- The brown integrator after a draw `w` (R154): `(NZ_BROWN + (0.05 × w)) ÷ 1.01`. -/
def brownNext (brown w : F64) : F64 := fdiv (fadd brown (fmul kBrownIn w)) kBrownLeak

/-- NZ.BROWN (R154). -/
def nzBrown (s : State) : F64 × State :=
  (fmul (brownNext s.nz.brown (draw s).1) kBrownGain,
    { (draw s).2 with nz.brown := brownNext s.nz.brown (draw s).1 })

/-- Row `i` is refreshed on call `n` exactly when `n mod 2^i = 0` (R155). -/
def rowDue (n : U64) (i : Fin 7) : Bool := decide (n.toNat % 2 ^ i.val = 0)

/-- The refresh of one row, taking a draw when it is due (R155). -/
def pinkRow (n : U64) (s : State) (i : Fin 7) : State :=
  if rowDue n i then ((draw s).2).setRow i (draw s).1 else s

/-- The seven rows in ascending order (R155). -/
def pinkRows (n : U64) (s : State) : State := [0, 1, 2, 3, 4, 5, 6].foldl (pinkRow n) s

/-- The sum of the rows, left to right (R155). -/
def rowSum (row : Vector F64 7) : F64 :=
  fadd (fadd (fadd (fadd (fadd (fadd row[0] row[1]) row[2]) row[3]) row[4]) row[5]) row[6]

/-- The pink update counter after a call: `(n + 1) mod 2^32` (R155). -/
def pinkCount (n : U64) : U64 := BitVec.ofNat 64 ((n.toNat + 1) % 2 ^ 32)

/-- NZ.PINK (R155). -/
def nzPink (s : State) : F64 × State :=
  (fmul (rowSum (pinkRows s.nz.cnt s).nz.row) kPinkGain,
    { pinkRows s.nz.cnt s with nz.cnt := pinkCount s.nz.cnt })

/-- The lowpass coefficient from the sine of the LFO phase (R156). -/
def lfoAlpha (sine : F64) : F64 := fadd kLpfBase (fmul (fadd fHalf (fmul fHalf sine)) kLpfDepth)

/-- NZ.LFO (R156): the coefficient, then the advance of `PH[4]`. -/
def nzLfo (s : State) : F64 × State :=
  (lfoAlpha (oscSin 4 s), paAdv 4 (paInc s.nz.lfoRate s.act.fs) s)

/-- The lowpass state after an input (R157): `NZ_LPF + (alpha × (x - NZ_LPF))`. -/
def lpfNext (lpf x alpha : F64) : F64 := fadd lpf (fmul alpha (fsub x lpf))

/-- NZ.LPF (R157). -/
def nzLpf (x alpha : F64) (s : State) : F64 × State :=
  (lpfNext s.nz.lpf x alpha, { s with nz.lpf := lpfNext s.nz.lpf x alpha })

/-- The generator of the active type (R158). -/
def nzGenerate (s : State) : F64 × State :=
  if s.act.ntype = 0 then nzWhite s else if s.act.ntype = 1 then nzPink s else nzBrown s

/-- NZ.PROC (R158): the generator, the LFO, the lowpass. -/
def nzProc (s : State) : F64 × State :=
  nzLpf (nzGenerate s).1 (nzLfo (nzGenerate s).2).1 (nzLfo (nzGenerate s).2).2

/-- NZ.PREP run alone: `ref` on the first operand bus (log 8). -/
def execNzPrep (s : State) : Host.Outcome State Fault Refusal := .next (nzPrep s.opA s)

/-- NZ.WHITE run alone. -/
def execNzWhite (s : State) : Host.Outcome State Fault Refusal :=
  .next (result (nzWhite s).1 (nzWhite s).2)

/-- NZ.PINK run alone. -/
def execNzPink (s : State) : Host.Outcome State Fault Refusal :=
  .next (result (nzPink s).1 (nzPink s).2)

/-- NZ.BROWN run alone. -/
def execNzBrown (s : State) : Host.Outcome State Fault Refusal :=
  .next (result (nzBrown s).1 (nzBrown s).2)

/-- NZ.LFO run alone. -/
def execNzLfo (s : State) : Host.Outcome State Fault Refusal :=
  .next (result (nzLfo s).1 (nzLfo s).2)

/-- NZ.LPF run alone: `x` and `alpha` on the operand buses (log 8). -/
def execNzLpf (s : State) : Host.Outcome State Fault Refusal :=
  .next (result (nzLpf s.opA s.opB s).1 (nzLpf s.opA s.opB s).2)

/-- NZ.PROC run alone. -/
def execNzProc (s : State) : Host.Outcome State Fault Refusal :=
  .next (result (nzProc s).1 (nzProc s).2)

end Sys2Proof.Machine
end

