-- ==== Sys2Proof/Machine/Reverb.lean ====
section
/-! DEFINITION. ReverbNetwork: RV.PREP, RV.COMB, RV.AP, RV.PROC (44_reverb_network.md). -/

namespace Sys2Proof.Machine

/-- RV.LENGTH (R172): `max(1, f64_floor_to_u64(T × fs))`. -/
def rvLength (t fs : F64) : U64 :=
  if f64FloorToU64 (fmul t fs) = 0 then 1 else f64FloorToU64 (fmul t fs)

/-- RV.PREP on one network at a sample rate (R171): every line sized, cleared, cursor 0. -/
def netPrep (fs : F64) (n : Network) : Network :=
  [(0 : Fin 5), 1, 2, 3, 4].foldl (fun n j => n.allocate j (rvLength delayTimes[j] fs)) n

/-- RV.COMB on one network (R173): the word read, and `in + (r × 0.84)` written. -/
def netComb (j : Fin 4) (x : F64) (n : Network) : Except Fault (F64 × Network) :=
  n.access j.castSucc (fun r => fadd x (fmul r gComb))

/-- The all-pass output (R174): `(-(0.5 × in)) + d`. -/
def apOut (x d : F64) : F64 := fadd (fneg (fmul gAp x)) d

/-- RV.AP on one network (R174): the output, and `in + (0.5 × out)` written. -/
def netAp (x : F64) (n : Network) : Except Fault (F64 × Network) :=
  match n.access 4 (fun d => fadd x (fmul gAp (apOut x d))) with
  | .error f => .error f
  | .ok (d, n') => .ok (apOut x d, n')

/-- RV.PROC on one network (R175): four combs on the same input summed left to right, `× 0.25`,
the all-pass. -/
def netProc (x : F64) (n : Network) : Except Fault (F64 × Network) :=
  match netComb 0 x n with
  | .error f => .error f
  | .ok (r0, n0) =>
    match netComb 1 x n0 with
    | .error f => .error f
    | .ok (r1, n1) =>
      match netComb 2 x n1 with
      | .error f => .error f
      | .ok (r2, n2) =>
        match netComb 3 x n2 with
        | .error f => .error f
        | .ok (r3, n3) => netAp (fmul (fadd (fadd (fadd r0 r1) r2) r3) kCombSum) n3

/-- RV.PREP c (R171). -/
def rvPrep (c : Fin 2) (s : State) : State := s.setNet c (netPrep s.act.fs s.rv[c])

/-- RV.PROC c (R175). -/
def rvProc (c : Fin 2) (x : F64) (s : State) : Except Fault (F64 × State) :=
  match netProc x s.rv[c] with
  | .error f => .error f
  | .ok (wet, n) => .ok (wet, s.setNet c n)

/-- A result of a network operation on the first result bus, the network put back. -/
def netOutcome (c : Fin 2) (s : State) :
    Except Fault (F64 × Network) → Host.Outcome State Fault Refusal
  | .error f => .fault f
  | .ok (v, n) => .next (result v (s.setNet c n))

/-- RV.PREP c run alone. -/
def execRvPrep (c : BitVec 1) (s : State) : Host.Outcome State Fault Refusal :=
  .next (rvPrep (channelOf c) s)

/-- RV.COMB c, j run alone: `in` on the first operand bus (log 8). -/
def execRvComb (c : BitVec 1) (j : BitVec 3) (s : State) : Host.Outcome State Fault Refusal :=
  match combOf j with
  | none => .refused .reservedSelect
  | some i => netOutcome (channelOf c) s (netComb i s.opA s.rv[channelOf c])

/-- RV.AP c run alone: `in` on the first operand bus (log 8). -/
def execRvAp (c : BitVec 1) (s : State) : Host.Outcome State Fault Refusal :=
  netOutcome (channelOf c) s (netAp s.opA s.rv[channelOf c])

/-- RV.PROC c run alone: `in` on the first operand bus (log 8). -/
def execRvProc (c : BitVec 1) (s : State) : Host.Outcome State Fault Refusal :=
  netOutcome (channelOf c) s (netProc s.opA s.rv[channelOf c])

end Sys2Proof.Machine
end

