-- ==== Sys2Proof/Machine/Sequencer.lean ====
section
/-! DEFINITION. The per-sample schedule: SAMPLE (46_engine_commands.md R217), step by step. -/

namespace Sys2Proof.Machine

/-- The time of the next sample (42_journey_interpolator.md R133): `u64_to_f64(POS) ÷ A_FS`. -/
def sampleTime (s : State) : F64 := fdiv (u64ToF64 s.pos) s.act.fs

/-- Step 1 (R217): the instantaneous pulse and carrier frequency. -/
def sampleFreq (s : State) : F64 × F64 :=
  if s.status.jnyOn then jnyEval s.act (sampleTime s) else (s.act.pulse[0], s.act.carrier[0])

/-- The envelope of the session's strategy (41_pulse_envelope.md R125). -/
def envelope (raw : F64) (s : State) : F64 :=
  if s.status.envSel then envRt raw s.act.soft else envBatch raw s.act.soft

/-- A left and a right value. -/
structure Pair where
  left : F64
  right : F64
  deriving DecidableEq, Repr

/-- Step 2 (R217), AmplitudeModulated: the carrier times the envelope on both channels. -/
def toneAm (s : State) : Pair :=
  ⟨fmul (oscSin 0 s) (envelope (oscSin 1 s) s), fmul (oscSin 0 s) (envelope (oscSin 1 s) s)⟩

/-- Step 2 (R217), AmplitudeModulated: both accumulators advance after they were read (R106). -/
def advanceAm (fp fc : F64) (s : State) : State :=
  paAdv 1 (paInc fp s.act.fs) (paAdv 0 (paInc fc s.act.fs) s)

/-- Step 2 (R217), BinauralOffset: one un-enveloped tone a channel. -/
def toneBinaural (s : State) : Pair := ⟨oscSin 2 s, oscSin 3 s⟩

/-- Step 2 (R217), BinauralOffset: left `carrier - pulse/2`, right `carrier + pulse/2`. -/
def advanceBinaural (fp fc : F64) (s : State) : State :=
  paAdv 3 (paInc (fadd fc (fdiv fp fTwo)) s.act.fs)
    (paAdv 2 (paInc (fsub fc (fdiv fp fTwo)) s.act.fs) s)

/-- Step 2 (R217): the two tones. -/
def sampleTone (s : State) : Pair := if s.act.ent = 0 then toneAm s else toneBinaural s

/-- Step 2 (R217): the accumulators of the active entrainment type advanced. -/
def sampleAdvance (s : State) : State :=
  if s.act.ent = 0 then advanceAm (sampleFreq s).1 (sampleFreq s).2 s
  else advanceBinaural (sampleFreq s).1 (sampleFreq s).2 s

/-- Step 3 (R217): the noise sample and the state after it; with noise off nothing runs and the value
is read by nobody. -/
def sampleNoise (s : State) : F64 × State := if noiseOn s then nzProc s else (fZero, s)

/-- Step 4 (R217): the wet samples, left network first; with no reverb nothing runs and the values
are read by nobody. -/
def sampleWet (dry : Pair) (s : State) : Except Fault (Pair × State) :=
  if s.status.capReverb then
    match rvProc 0 dry.left s with
    | .error f => .error f
    | .ok (wl, s1) =>
      match rvProc 1 dry.right s1 with
      | .error f => .error f
      | .ok (wr, s2) => .ok (⟨wl, wr⟩, s2)
  else .ok (⟨fZero, fZero⟩, s)

/-- The output shaper of the session (45_mixer_saturator.md R196). -/
def shape (x : F64) (s : State) : F64 := if s.status.satSel then satKnee x else satTanh x

/-- Steps 5 and 6 (R217): mix and shape. -/
def sampleShape (dry wet : Pair) (s : State) : Pair :=
  ⟨shape (mixWet dry.left wet.left s) s, shape (mixWet dry.right wet.right s) s⟩

/-- How a SAMPLE ends: the pair emitted, or RuntimeError raised. -/
inductive SampleEnd where
  | emitted | raised
  deriving DecidableEq, Repr

/-- The check of step 6 and step 7 (R217): raise on a NaN or an infinity, else emit and count. -/
def sampleFinish (last : Bool) (y : Pair) (s : State) : SampleEnd × State :=
  if fisFinite y.left && fisFinite y.right then
    (.emitted, { emit y.left y.right last s with pos := s.pos + 1 })
  else (.raised, raiseError .nonfiniteOutput s)

/-- Step 3 (R217): the dry pair from the tones and the noise sample. -/
def sampleDry (tone : Pair) (nz : F64) (s : State) : Pair :=
  ⟨mixDry tone.left nz s, mixDry tone.right nz s⟩

/-- The dry pair of the next sample: steps 1 to 3 (R217). -/
def dryOf (s : State) : Pair :=
  sampleDry (sampleTone s) (sampleNoise (sampleAdvance s)).1 (sampleNoise (sampleAdvance s)).2

/-- The state after steps 1 to 3 (R217). -/
def afterDry (s : State) : State := (sampleNoise (sampleAdvance s)).2

/-- SAMPLE (R217). -/
def sampleRun (last : Bool) (s : State) : Except Fault (SampleEnd × State) :=
  match sampleWet (dryOf s) (afterDry s) with
  | .error f => .error f
  | .ok (wet, s') => .ok (sampleFinish last (sampleShape (dryOf s) wet s') s')

/-- SAMPLE run alone: `last` on the one-bit operand bus (log 8). A raised RuntimeError ends in Failed;
no command is under way that a response could end. -/
def execSample (s : State) : Host.Outcome State Fault Refusal :=
  match sampleRun s.opLast s with
  | .error f => .fault f
  | .ok (_, s') => .next s'

end Sys2Proof.Machine
end

