-- ==== Sys2Proof/Machine/Commands.lean ====
section
/-! DEFINITION. The host commands: NOP, WRREG, RDREG, RDMEM, PREPARE, RENDER, RELEASE
(46_engine_commands.md), and what a step takes from the command port. -/

namespace Sys2Proof.Machine

/-! ### PREPARE -/

/-- A value that is finite and above +0.0 (R214, checks 2 and 4). -/
def finitePositive (x : F64) : Bool := fisFinite x && flt fZero x

/-- A legal pair of counts (10_state.md R24): (1, 1) or (5, 5). -/
def countsOk (p : Pending) : Bool :=
  (decide (p.pulseCnt = 1) && decide (p.carrierCnt = 1))
    || (decide (p.pulseCnt = 5) && decide (p.carrierCnt = 5))

/-- A line that PREPARE may allocate (R214, check 7): the product below 2^63 and the length within
DELAY_CAP. -/
def lineFits (cap : Option Nat) (t fs : F64) : Bool :=
  flt (fmul t fs) fTwoPow63
    && match cap with
       | none => true
       | some c => decide ((rvLength t fs).toNat ≤ c)

/-- Every line fits (R214, check 7). -/
def linesFit (cap : Option Nat) (fs : F64) : Bool :=
  [(0 : Fin 5), 1, 2, 3, 4].all fun j => lineFits cap delayTimes[j] fs

/-- The checks that PREPARE makes in BATCH mode only (R214, checks 3 to 7), in order. -/
def batchCheck (p : Pending) (cap : Option Nat) : Option SessionError :=
  if !countsOk p then some .badJourney
  else if !finitePositive p.duration then some .badDuration
  else if !flt (fmul p.duration p.sampleRate) fTwoPow63 then some .badDuration
  else if p.entType ≠ 0 ∧ p.entType ≠ 1 then some .badEnt
  else if p.noiseType.toInt < -1 ∨ 2 < p.noiseType.toInt then some .badNoise
  else if !linesFit cap p.sampleRate then some .delayTooLong
  else none

/-- The first failing check of PREPARE (R214, 60_exceptions.md R245). -/
def prepareCheck (p : Pending) (cap : Option Nat) : Option SessionError :=
  if p.mode ≠ 0 ∧ p.mode ≠ 1 then some .badMode
  else if !finitePositive p.sampleRate then some .badRate
  else if p.mode = 0 then batchCheck p cap
  else none

/-- `A_GAIN_DB <- GAIN_DB; GAIN.LIN(A_GAIN_DB)` (R214, R220). -/
def latchGain (s : State) : State := gainLin s.pend.gainDb { s with act.gainDb := s.pend.gainDb }

/-- The scalar part of the parameter snapshot (R214). -/
def latchScalars (s : State) : State :=
  latchGain { s with
    act.mode := s.pend.mode
    act.fs := s.pend.sampleRate
    act.soft := s.pend.softness
    act.nlevel := s.pend.noiseLevel }

/-- The part of the snapshot that depends on the mode (R214). -/
def latchMode (s : State) : State :=
  if s.pend.mode = 0 then
    { s with
      act.ent := s.pend.entType
      act.ntype := s.pend.noiseType
      status := batchFlags (decide (s.pend.pulseCnt = 5)) s.status
      total := f64FloorToU64 (fmul s.pend.duration s.pend.sampleRate) }
  else
    { s with
      act.ent := 0
      act.ntype := 0xFFFFFFFFFFFFFFFF
      status := streamFlags s.status
      total := 0 }

/-- The counters and the phase accumulators of a new session (R214). -/
def clearCounters (s : State) : State :=
  { s with ph := #v[fZero, fZero, fZero, fZero, fZero], pos := 0, draws := 0 }

/-- The noise and reverb units of a new session, where the session has them (R214). -/
def prepareUnits (s : State) : State :=
  let s1 := if s.status.capNoise then nzPrep s.act.pulse[0] s else s
  if s.status.capReverb then rvPrep 1 (rvPrep 0 s1) else s1

/-- `ERR <- 0; ERR_DETAIL <- 0; STATE <- Rendering` (R214). -/
def startRendering (s : State) : State :=
  { s with status.err := .none, status.detail := 0, status.state := .rendering }

/-- Everything PREPARE does once validation has passed (R214). -/
def prepareSession (s : State) : State :=
  startRendering (prepareUnits (clearCounters (jnyBuild (latchMode (latchScalars s)))))

/-- PREPARE (R214). -/
def execPrepare (s : State) : Host.Outcome State Fault Refusal :=
  if s.status.state ≠ .idle then .next (refuse .errState s)
  else
    match prepareCheck s.pend s.delayCap with
    | some e => .next (respond .ok (statusWord (raiseError e s).status) (raiseError e s))
    | none => .next (respond .ok (statusWord (prepareSession s).status) (prepareSession s))

/-! ### RENDER -/

/-- SNAPSHOT (R220), the streaming parameter latch. -/
def snapshot (s : State) : State :=
  latchGain { s with
    act.pulse := s.act.pulse.set 0 s.pend.pulse[0]
    act.carrier := s.act.carrier.set 0 s.pend.carrier[0]
    act.soft := s.pend.softness }

/-- The loop of RENDER may go on (R216): `A_MODE = 1 or POS < TOTAL`. -/
def moreSamples (s : State) : Bool := decide (s.act.mode = 1) || decide (s.pos < s.total)

/-- The `last` flag of a sample (R216) with `k` further samples asked for after it. -/
def lastFlag (k : Nat) (s : State) : Bool :=
  decide (k = 0) || (decide (s.act.mode = 0) && decide (s.pos + 1 = s.total))

/-- The loop of RENDER (R216) with `k` samples still asked for and `cnt` emitted: how it ended, the
pairs emitted by the command, and the state. -/
def renderLoop : Nat → Nat → State → Except Fault (SampleEnd × Nat × State)
  | 0, cnt, s => .ok (.emitted, cnt, s)
  | k + 1, cnt, s =>
    if moreSamples s then
      match sampleRun (lastFlag k s) s with
      | .error f => .error f
      | .ok (.raised, s') => .ok (.raised, cnt, s')
      | .ok (.emitted, s') => renderLoop k (cnt + 1) s'
    else .ok (.emitted, cnt, s)

/-- The end of a RENDER that did not raise (R216): Complete when the batch is done. -/
def finishRender (s : State) : State :=
  if s.act.mode = 0 ∧ s.pos = s.total then { s with status.state := .complete } else s

/-- RENDER (R216): the snapshot in STREAM mode, the loop, the end; a RuntimeError ends the command
at once with the pairs emitted so far. -/
def execRender (n : WData) (s : State) : Host.Outcome State Fault Refusal :=
  if s.status.state ≠ .rendering then .next (refuse .errState s)
  else
    match renderLoop n.toNat 0 (if s.act.mode = 1 then snapshot s else s) with
    | .error f => .fault f
    | .ok (.raised, cnt, s') => .next (respond .ok (BitVec.ofNat 64 cnt) s')
    | .ok (.emitted, cnt, s') => .next (respond .ok (BitVec.ofNat 64 cnt) (finishRender s'))

/-! ### The other commands -/

/-- NOP (R211). -/
def execNop (s : State) : Host.Outcome State Fault Refusal := .next (respond .ok 0 s)

/-- WRREG a (R212). -/
def execWrreg (a : RegAddr) (wdata : WData) (s : State) : Host.Outcome State Fault Refusal :=
  match regAt a with
  | none => .next (refuse .errAddr s)
  | some r =>
    match writePending s.pend wdata r with
    | none => .next (refuse .errRo s)
    | some p => .next (respond .ok 0 { s with pend := p })

/-- RDREG a (R213). -/
def execRdreg (a : RegAddr) (s : State) : Host.Outcome State Fault Refusal :=
  match regAt a with
  | none => .next (refuse .errAddr s)
  | some r => .next (respond .ok (readReg s r) s)

/-- RDMEM (R215). -/
def execRdmem (wdata : WData) (s : State) : Host.Outcome State Fault Refusal :=
  match dmFields wdata with
  | none => .next (refuse .errAddr s)
  | some (c, j, o) =>
    match s.rv[c].readWord j o with
    | none => .next (refuse .errAddr s)
    | some v => .next (respond .ok v s)

/-- RELEASE (R218). -/
def execRelease (s : State) : Host.Outcome State Fault Refusal :=
  .next (respond .ok 0 (clearSession s))

/-! ### What a step takes -/

/-- The state with the first entry of the port taken. -/
def popPort (s : State) : State := { s with port := s.port.tail }

/-- The state with the select word taken by the sequencer. -/
def popSelect (s : State) : State := { s with sel := none }

/-- What a step has before it. -/
inductive Fetched where
  /-- An instruction, and the state it runs in. -/
  | run (i : Instr) (s : State)
  /-- A word the host port refuses (30_encoding.md R87), and the state it is answered in. -/
  | illegal (s : State)
  /-- A select word that 30_encoding.md R86 reserves. -/
  | reserved
  /-- The reset input. -/
  | reset (s : State)
  /-- Nothing is presented. -/
  | quiet
  deriving DecidableEq, Repr

/-- The instruction the next step runs: the select word presented to the sequencer if there is one,
else the first entry of the port. -/
def fetch (s : State) : Fetched :=
  match s.sel with
  | some w =>
    match decodeSelect w with
    | .ok i => .run i (popSelect s)
    | .error _ => .reserved
  | none =>
    match s.port with
    | [] => .quiet
    | .reset :: _ => .reset (popPort s)
    | .command w d :: _ =>
      match decodeHost w d with
      | .ok i => .run i (popPort s)
      | .error _ => .illegal (popPort s)

/-- A transfer presented where the next step takes it: a unit-operation word in the sequencer's slot,
any other word at the head of the command port with the slot empty (log 7). -/
def present (w : CmdWord) (d : WData) (s : State) : State :=
  if opField w = 8 then { s with sel := some w }
  else { s with sel := none, port := .command w d :: s.port }

end Sys2Proof.Machine
end

