-- ==== Sys2Proof/Machine/Dispatch.lean ====
section
/-! DEFINITION. One arm per constructor of Instr, each a direct call of its meaning. -/

namespace Sys2Proof.Machine

/-- The meaning of an instruction. -/
def exec (i : Instr) (s : State) : Host.Outcome State Fault Refusal :=
  match i with
  | .nop => Sys2Proof.Machine.execNop s
  | .wrreg a wdata => Sys2Proof.Machine.execWrreg a wdata s
  | .rdreg a => Sys2Proof.Machine.execRdreg a s
  | .rdmem wdata => Sys2Proof.Machine.execRdmem wdata s
  | .prepare => Sys2Proof.Machine.execPrepare s
  | .render n => Sys2Proof.Machine.execRender n s
  | .release => Sys2Proof.Machine.execRelease s
  | .paInc => Sys2Proof.Machine.execPaInc s
  | .paAdv k => Sys2Proof.Machine.execPaAdv k s
  | .paVal k => Sys2Proof.Machine.execPaVal k s
  | .oscSin k => Sys2Proof.Machine.execOscSin k s
  | .envBatch => Sys2Proof.Machine.execEnvBatch s
  | .envRt => Sys2Proof.Machine.execEnvRt s
  | .jnyBuild => Sys2Proof.Machine.execJnyBuild s
  | .jnyEval => Sys2Proof.Machine.execJnyEval s
  | .nzPrep => Sys2Proof.Machine.execNzPrep s
  | .nzWhite => Sys2Proof.Machine.execNzWhite s
  | .nzPink => Sys2Proof.Machine.execNzPink s
  | .nzBrown => Sys2Proof.Machine.execNzBrown s
  | .nzLfo => Sys2Proof.Machine.execNzLfo s
  | .nzLpf => Sys2Proof.Machine.execNzLpf s
  | .nzProc => Sys2Proof.Machine.execNzProc s
  | .rvPrep c => Sys2Proof.Machine.execRvPrep c s
  | .rvComb c j => Sys2Proof.Machine.execRvComb c j s
  | .rvAp c => Sys2Proof.Machine.execRvAp c s
  | .rvProc c => Sys2Proof.Machine.execRvProc c s
  | .gainLin => Sys2Proof.Machine.execGainLin s
  | .mixDry => Sys2Proof.Machine.execMixDry s
  | .mixWet => Sys2Proof.Machine.execMixWet s
  | .satTanh => Sys2Proof.Machine.execSatTanh s
  | .satKnee => Sys2Proof.Machine.execSatKnee s
  | .sample => Sys2Proof.Machine.execSample s

end Sys2Proof.Machine
end

