-- ==== Sys2Proof/Machine/Step.lean ====
section
/-! DEFINITION. One step: one host command (70_reset_and_hazards.md R286), or one unit operation that
the sequencer is given alone, or the reset input; with nothing presented the block keeps its state
(60_exceptions.md R255). -/

namespace Sys2Proof.Machine

/-- One step of the machine. -/
def step (s : State) : Host.Outcome State Fault Refusal :=
  match fetch s with
  | .run i s' => exec i s'
  | .illegal s' => .next (refuse .errIllegal s')
  | .reserved => .refused .reservedSelect
  | .reset s' => .next (resetInput s')
  | .quiet => .next s

/-- `s` with that instruction (the bits above `nbits` zero) where the next step takes it (log 7). -/
def State.withFetchWord (s : State) (nbits w : Nat) : State :=
  present (transferWord (w % 2 ^ nbits)) (transferWData (w % 2 ^ nbits)) s

end Sys2Proof.Machine
end

