-- ==== Sys2Proof/Safety.lean ====
section
/-! DEFINITION. What a sound state and a safe step are, in the terms the statements use. -/

namespace Sys2Proof.Machine

/-- A cursor is in range (10_state.md R33: "write-index always in [0, length)"), or its line is not
allocated and the cursor is 0. -/
abbrev Network.cursorOk (n : Network) (j : Fin 5) : Prop :=
  (n.idx[j]).toNat < (n.len[j]).toNat ∨ (n.len[j] = 0 ∧ n.idx[j] = 0)

/-- Every line of both networks is allocated and its cursor in range. -/
abbrev State.reverbReady (s : State) : Prop :=
  ∀ c : Fin 2, ∀ j : Fin 5, (s.rv[c].idx[j]).toNat < (s.rv[c].len[j]).toNat

/-- The session errors that exist (60_exceptions.md R243). -/
def sessionErrors : List SessionError :=
  [.badMode, .badRate, .badJourney, .badDuration, .badEnt, .badNoise, .delayTooLong,
    .nonfiniteOutput]

/-- ERR and ERR_DETAIL belong together (60_exceptions.md R243): in Failed they are the class and
detail of one session error, elsewhere both are 0. -/
def errorFieldsOk (st : Status) : Bool :=
  if st.state = .failed then
    sessionErrors.any fun e => decide (st.err = errorClass e) && decide (st.detail = errorDetail e)
  else decide (st.err = .none) && decide (st.detail = 0)

/-- A session is under way or done: STATE is Rendering or Complete. -/
def inSession (st : Status) : Bool := decide (st.state = .rendering) || decide (st.state = .complete)

/-- The capability flags and strategy selectors follow A_MODE (10_state.md R27), and a STREAM session
is AmplitudeModulated with no noise (10_state.md R26). -/
def flagsFollowMode (s : State) : Bool :=
  (decide (s.act.mode = 0) && s.status.capNoise && s.status.capReverb && s.status.capJourney
      && !s.status.envSel && !s.status.satSel)
    || (decide (s.act.mode = 1) && !s.status.capNoise && !s.status.capReverb
      && !s.status.capJourney && s.status.envSel && s.status.satSel && !s.status.jnyOn
      && decide (s.act.ent = 0) && decide (s.act.ntype = 0xFFFFFFFFFFFFFFFF))

/-- What every step keeps, unit operations run alone included. -/
structure Inv (s : State) : Prop where
  /-- The delay memory is in canonical form: no word at or beyond a line's length (10_state.md R34). -/
  memory : Memory.wf s.rv
  /-- 44_reverb_network.md R177. -/
  cursors : ∀ c : Fin 2, ∀ j : Fin 5, s.rv[c].cursorOk j
  /-- A session that has reverb has its lines (44_reverb_network.md R171). -/
  reverb : s.status.capReverb = true → s.reverbReady
  /-- 46_engine_commands.md R210: "a host never reads `STATE` = Preparing". -/
  notPreparing : s.status.state ≠ .preparing
  /-- 60_exceptions.md R243. -/
  errors : errorFieldsOk s.status = true
  /-- 10_state.md R32: "it wraps modulo 2^32". -/
  pinkCount : s.nz.cnt.toNat < 2 ^ 32
  /-- 10_state.md R27. -/
  flags : inSession s.status = true → flagsFollowMode s = true

/-- What every step of the host's commands keeps besides: the position within a batch (10_state.md
R29: "In BATCH mode it cannot pass `TOTAL < 2^63`, so it never wraps"), Complete only at its end
(46_engine_commands.md R210), and keyframe times that rise strictly in a session with a journey and a
sample to render (42_journey_interpolator.md R135: "`JNY.EVAL` is never reached with a zero denominator
in a run"). -/
structure BatchInv (s : State) : Prop where
  size : inSession s.status = true → s.act.mode = 0 → s.total.toNat < 2 ^ 63
  position : s.status.state = .rendering → s.act.mode = 0 → s.pos.toNat ≤ s.total.toNat
  complete : s.status.state = .complete → s.act.mode = 0 ∧ s.pos = s.total
  journey : inSession s.status = true → s.status.jnyOn = true → s.total ≠ 0 →
    keyframesRise s.act.kfT = true

/-- The state after reset as 70_reset_and_hazards.md R271 lists it (also 10_state.md R38). -/
structure AfterReset (s : State) : Prop where
  mode : s.pend.mode = 0
  sampleRate : s.pend.sampleRate = 0x40E5888000000000
  duration : s.pend.duration = 0
  softness : s.pend.softness = 0
  gainDb : s.pend.gainDb = 0xC024000000000000
  entType : s.pend.entType = 0
  noiseType : s.pend.noiseType = 0xFFFFFFFFFFFFFFFF
  noiseLevel : s.pend.noiseLevel = 0x3FD3333333333333
  counts : s.pend.pulseCnt = 1 ∧ s.pend.carrierCnt = 1
  lists : ∀ i : Fin 5, s.pend.pulse[i] = 0 ∧ s.pend.carrier[i] = 0
  status : s.status.state = .idle ∧ s.status.err = .none ∧ s.status.detail = 0
  flags : s.status.jnyOn = false ∧ s.status.capNoise = false ∧ s.status.capReverb = false ∧
    s.status.capJourney = false ∧ s.status.envSel = false ∧ s.status.satSel = false
  counters : s.pos = 0 ∧ s.total = 0 ∧ s.draws = 0
  active : s.act.mode = 0 ∧ s.act.fs = 0 ∧ s.act.soft = 0 ∧ s.act.gainDb = 0 ∧ s.act.gainLin = 0 ∧
    s.act.ent = 0 ∧ s.act.ntype = 0 ∧ s.act.nlevel = 0
  activeLists : ∀ i : Fin 5, s.act.pulse[i] = 0 ∧ s.act.carrier[i] = 0 ∧ s.act.kfT[i] = 0
  phases : ∀ k : Fin 5, s.ph[k] = 0
  noise : s.nz.brown = 0 ∧ s.nz.lpf = 0 ∧ s.nz.lfoRate = 0 ∧ s.nz.cnt = 0
  rows : ∀ i : Fin 7, s.nz.row[i] = 0
  lines : ∀ c : Fin 2, ∀ j : Fin 5, s.rv[c].len[j] = 0 ∧ s.rv[c].idx[j] = 0
  memory : ∀ c : Fin 2, ∀ j : Fin 5, ∀ o : Nat, s.rv[c].readWord j o = none
  out : s.out = []

/-- The cause of a session error that PREPARE reports (60_exceptions.md R243, each check of
46_engine_commands.md R214); NONFINITE_OUTPUT is not PREPARE's. -/
def causeOf (s : State) : SessionError → Prop
  | .badMode => s.pend.mode ≠ 0 ∧ s.pend.mode ≠ 1
  | .badRate => ¬ (fisFinite s.pend.sampleRate = true ∧ flt fZero s.pend.sampleRate = true)
  | .badJourney =>
    ¬ ((s.pend.pulseCnt = 1 ∧ s.pend.carrierCnt = 1) ∨ (s.pend.pulseCnt = 5 ∧ s.pend.carrierCnt = 5))
  | .badDuration =>
    ¬ (fisFinite s.pend.duration = true ∧ flt fZero s.pend.duration = true) ∨
      flt (fmul s.pend.duration s.pend.sampleRate) fTwoPow63 = false
  | .badEnt => s.pend.entType ≠ 0 ∧ s.pend.entType ≠ 1
  | .badNoise => s.pend.noiseType.toInt < -1 ∨ 2 < s.pend.noiseType.toInt
  | .delayTooLong =>
    ∃ j : Fin 5, flt (fmul (delayTimes[j]) s.pend.sampleRate) fTwoPow63 = false ∨
      ∃ cap, s.delayCap = some cap ∧
        cap < max 1 (f64FloorToU64 (fmul (delayTimes[j]) s.pend.sampleRate)).toNat
  | .nonfiniteOutput => False

/-- A check of PREPARE that fails: its cause is there, and the checks of details 3 to 7 are made in
BATCH mode only (46_engine_commands.md R214). -/
def checkFails (s : State) (e : SessionError) : Prop :=
  causeOf s e ∧ (3 ≤ (errorDetail e).toNat → s.pend.mode = 0)

/-- Every parameter PREPARE checks is good. -/
def parametersOk (s : State) : Prop := ∀ e, ¬ checkFails s e

/-- A unit operation run alone, a number of times. -/
def runUnit (i : Instr) : Nat → State → Host.Outcome State Fault Refusal
  | 0, s => .next s
  | k + 1, s =>
    match exec i s with
    | .next s' => runUnit i k s'
    | .fault f => .fault f
    | .refused r => .refused r

/-- What a unit operation gives on its first result bus for these operands, and the state after it with
the buses as they were before; none where it stops (the buses are the model's, log 8). -/
def unitCall (i : Instr) (a b : F64) (s : State) : Option (F64 × State) :=
  match exec i { s with opA := a, opB := b } with
  | .next t =>
    some (t.resA, { t with opA := s.opA, opB := s.opB, resA := s.resA, resB := s.resB })
  | .fault _ => none
  | .refused _ => none

/-- SAMPLE once for each of these `last` flags, in order (46_engine_commands.md R216). -/
def sampleRuns : List Bool → State → Host.Outcome State Fault Refusal
  | [], s => .next s
  | last :: rest, s =>
    match exec .sample { s with opLast := last } with
    | .next s' => sampleRuns rest s'
    | .fault f => .fault f
    | .refused r => .refused r

/-- A sequence of accesses to one delay line, each writing what its function gives of the word read:
the words read, in order, and the network after (20_memory.md R76). -/
def accessRun (j : Fin 5) : List (F64 → F64) → Network → Except Fault (List F64 × Network)
  | [], n => .ok ([], n)
  | w :: ws, n =>
    match n.access j w with
    | .error f => .error f
    | .ok (r, n') =>
      match accessRun j ws n' with
      | .error f => .error f
      | .ok (rs, n'') => .ok (r :: rs, n'')

/-- A sequence of RENDER commands with these block lengths: the RDATA of each, and the state after;
none where one stops. -/
def renderRun : List WData → State → Option (List U64 × State)
  | [], s => some ([], s)
  | n :: ns, s =>
    match exec (.render n) s with
    | .next s' =>
      match s'.resp, renderRun ns s' with
      | some r, some (ds, t) => some (r.rdata :: ds, t)
      | _, _ => none
    | .fault _ => none
    | .refused _ => none

/-- Two values equal as numbers: neither is NaN and none is below the other. -/
def sameNumber (x y : F64) : Bool := fle x y && fle y x

/-- The step answers a next state: neither a fault nor a refusal (60_exceptions.md R248: "every command
in every state gets a response"). -/
def Answers (s : State) : Prop := ∃ t, step s = .next t

end Sys2Proof.Machine
end

