-- ==== Sys2Proof/Certificates/Slice0/Obligations.lean ====
section
/-! DEFINITION. The statements about the model, one definition each, in the order of OBLIGATIONS.json.
An instruction run by `exec` is run in any state; a host command is refused or fails as its rule says.
Unit operations take their operands from the buses `opA`, `opB`, `opLast` and put their results on
`resA`, `resB` (the model's choice, log 8). -/

open Sys2Proof Sys2Proof.Machine

/-! ### Encoding -/

/-- 30_encoding.md: no bit of an encoding is dropped. The operand word goes with the command word. -/
def Obligations.DecodeInvertsEncode : Prop :=
  ∀ i : Instr, i.wf = true → decode (encodeWord i) (encodeWData i) = .ok i

/-- 30_encoding.md: a word decodes to an instruction of its own word only, a legal one, and an operand
word that the command uses is the instruction's. -/
def Obligations.DecodedInstructionHasThatWord : Prop :=
  ∀ (w : CmdWord) (d : WData) (i : Instr), decode w d = .ok i →
    encodeWord i = w ∧ i.wf = true ∧
      (opField w = 1 ∨ opField w = 3 ∨ opField w = 5 → encodeWData i = d)

/-- 30_encoding.md R85, by its match and mask columns: a row's words select its command, and a word of
no row selects none. -/
def Obligations.HostCommandRows : Prop :=
  ∀ (w : CmdWord) (d : WData),
    (w &&& 0xFFFF = 0x0000 → decodeHost w d = .ok .nop) ∧
    (w &&& 0xFF00 = 0x1000 → decodeHost w d = .ok (.wrreg (w.extractLsb' 0 8) d)) ∧
    (w &&& 0xFF00 = 0x2000 → decodeHost w d = .ok (.rdreg (w.extractLsb' 0 8))) ∧
    (w &&& 0xFFFF = 0x3000 → decodeHost w d = .ok (.rdmem d)) ∧
    (w &&& 0xFFFF = 0x4000 → decodeHost w d = .ok .prepare) ∧
    (w &&& 0xFFFF = 0x5000 → decodeHost w d = .ok (.render d)) ∧
    (w &&& 0xFFFF = 0x6000 → decodeHost w d = .ok .release) ∧
    ((∃ i, decodeHost w d = .ok i) →
      w &&& 0xFFFF = 0x0000 ∨ w &&& 0xFF00 = 0x1000 ∨ w &&& 0xFF00 = 0x2000 ∨
      w &&& 0xFFFF = 0x3000 ∨ w &&& 0xFFFF = 0x4000 ∨ w &&& 0xFFFF = 0x5000 ∨
      w &&& 0xFFFF = 0x6000)

/-- 30_encoding.md R86, by its match and mask columns; `k` above 4 is reserved where the mask leaves
all of `k` free, every other word of no row is reserved, and the host port
accepts none of them. -/
def Obligations.UnitOperationRows : Prop :=
  ∀ w : CmdWord,
    (w.toNat / 4096 = 8 → ∀ d, ∃ r, decodeHost w d = .error r) ∧
    (w &&& 0xF0FF = 0x8001 → 4 < w.toNat / 256 % 16 → ∃ r, decodeSelect w = .error r) ∧
    (w &&& 0xF0FF = 0x8002 → 4 < w.toNat / 256 % 16 → ∃ r, decodeSelect w = .error r) ∧
    (w &&& 0xF0FF = 0x8003 → 4 < w.toNat / 256 % 16 → ∃ r, decodeSelect w = .error r) ∧
    (w &&& 0xF0FF = 0x8001 → w.toNat / 256 % 16 ≤ 4 →
      decodeSelect w = .ok (.paAdv (w.extractLsb' 8 4))) ∧
    (w &&& 0xF0FF = 0x8002 → w.toNat / 256 % 16 ≤ 4 →
      decodeSelect w = .ok (.paVal (w.extractLsb' 8 4))) ∧
    (w &&& 0xF0FF = 0x8003 → w.toNat / 256 % 16 ≤ 4 →
      decodeSelect w = .ok (.oscSin (w.extractLsb' 8 4))) ∧
    (w &&& 0xF7FF = 0x8040 → decodeSelect w = .ok (.rvPrep (w.extractLsb' 11 1))) ∧
    (w &&& 0xF4FF = 0x8041 →
      decodeSelect w = .ok (.rvComb (w.extractLsb' 11 1) (w.extractLsb' 8 3))) ∧
    (w &&& 0xF7FF = 0x8442 → decodeSelect w = .ok (.rvAp (w.extractLsb' 11 1))) ∧
    (w &&& 0xF7FF = 0x8043 → decodeSelect w = .ok (.rvProc (w.extractLsb' 11 1))) ∧
    (∀ row ∈ [((0x8000 : CmdWord), Instr.paInc), (0x8010, .envBatch), (0x8011, .envRt),
        (0x8020, .jnyBuild), (0x8021, .jnyEval), (0x8030, .nzPrep), (0x8031, .nzWhite),
        (0x8032, .nzPink), (0x8033, .nzBrown), (0x8034, .nzLfo), (0x8035, .nzLpf),
        (0x8036, .nzProc), (0x8050, .gainLin), (0x8051, .mixDry), (0x8052, .mixWet),
        (0x8053, .satTanh), (0x8054, .satKnee), (0x8060, .sample)],
      w = row.1 → decodeSelect w = .ok row.2) ∧
    ((∃ i, decodeSelect w = .ok i) →
      w &&& 0xF0FF = 0x8001 ∨ w &&& 0xF0FF = 0x8002 ∨ w &&& 0xF0FF = 0x8003 ∨
      w &&& 0xF7FF = 0x8040 ∨ w &&& 0xF4FF = 0x8041 ∨ w &&& 0xF7FF = 0x8442 ∨
      w &&& 0xF7FF = 0x8043 ∨
      w ∈ [(0x8000 : CmdWord), 0x8010, 0x8011, 0x8020, 0x8021, 0x8030, 0x8031, 0x8032, 0x8033,
        0x8034, 0x8035, 0x8036, 0x8050, 0x8051, 0x8052, 0x8053, 0x8054, 0x8060])

/-- A few words of the spec's examples and tables, one of each field's layout (30_encoding.md R89,
R86). -/
def Obligations.SpecWordsDecode : Prop :=
  decodeHost 0x1003 0x3FE0000000000000 = .ok (.wrreg 0x03 0x3FE0000000000000) ∧
  decodeHost 0x2020 0 = .ok (.rdreg 0x20) ∧
  decodeHost 0x5000 8 = .ok (.render 8) ∧
  decodeSelect 0x8101 = .ok (.paAdv 1) ∧
  decodeSelect 0x8241 = .ok (.rvComb 0 2) ∧
  decodeSelect 0x8C42 = .ok (.rvAp 1)

/-- 10_state.md R37: each register is at the address the map gives it, the map is complete, the
undefined addresses are the ones listed, and the RW registers are those below 0x20. -/
def Obligations.RegisterMap : Prop :=
  (∀ row ∈ ([(.mode, 0x00), (.sampleRate, 0x01), (.duration, 0x02), (.softness, 0x03),
      (.gainDb, 0x04), (.entType, 0x05), (.noiseType, 0x06), (.noiseLevel, 0x07),
      (.pulseCnt, 0x08), (.carrierCnt, 0x09), (.status, 0x20), (.pos, 0x21), (.total, 0x22),
      (.draws, 0x23), (.aMode, 0x28), (.aFs, 0x29), (.aSoft, 0x2A), (.aGainDb, 0x2B),
      (.gainLin, 0x2C), (.aEnt, 0x2D), (.aNtype, 0x2E), (.aNlevel, 0x2F), (.nzBrown, 0x50),
      (.nzLpf, 0x51), (.nzCnt, 0x52), (.nzLfoRate, 0x53)] : List (Reg × RegAddr)),
    regAddr row.1 = row.2) ∧
  (∀ i : Fin 5, (regAddr (.pulse i)).toNat = 0x10 + i.val ∧
    (regAddr (.carrier i)).toNat = 0x18 + i.val ∧ (regAddr (.aPulse i)).toNat = 0x30 + i.val ∧
    (regAddr (.aCarrier i)).toNat = 0x38 + i.val ∧ (regAddr (.kfT i)).toNat = 0x40 + i.val ∧
    (regAddr (.ph i)).toNat = 0x48 + i.val) ∧
  (∀ i : Fin 7, (regAddr (.nzRow i)).toNat = 0x58 + i.val) ∧
  (∀ (c : Fin 2) (j : Fin 5), (regAddr (.rvLen c j)).toNat = 0x60 + 8 * c.val + j.val ∧
    (regAddr (.rvIdx c j)).toNat = 0x70 + 8 * c.val + j.val) ∧
  (∀ (a : RegAddr) (r : Reg), regAt a = some r ↔ regAddr r = a) ∧
  (∀ a : RegAddr, regAt a = none ↔
    (0x0A ≤ a.toNat ∧ a.toNat ≤ 0x0F) ∨ (0x15 ≤ a.toNat ∧ a.toNat ≤ 0x17) ∨
    (0x1D ≤ a.toNat ∧ a.toNat ≤ 0x1F) ∨ (0x24 ≤ a.toNat ∧ a.toNat ≤ 0x27) ∨
    (0x35 ≤ a.toNat ∧ a.toNat ≤ 0x37) ∨ (0x3D ≤ a.toNat ∧ a.toNat ≤ 0x3F) ∨
    (0x45 ≤ a.toNat ∧ a.toNat ≤ 0x47) ∨ (0x4D ≤ a.toNat ∧ a.toNat ≤ 0x4F) ∨
    (0x54 ≤ a.toNat ∧ a.toNat ≤ 0x57) ∨ a.toNat = 0x5F ∨
    (0x65 ≤ a.toNat ∧ a.toNat ≤ 0x67) ∨ (0x6D ≤ a.toNat ∧ a.toNat ≤ 0x6F) ∨
    (0x75 ≤ a.toNat ∧ a.toNat ≤ 0x77) ∨ 0x7D ≤ a.toNat) ∧
  (∀ (p : Pending) (v : U64) (r : Reg),
    (writePending p v r).isSome = true ↔ (regAddr r).toNat < 0x20)

/-! ### The step -/

/-- A command at the head of the port, with nothing in the sequencer's slot, runs in the state without
it. A select word in the sequencer's slot runs in the state with the slot empty; a reserved one is
refused by name (the slot and its refusal are the model's choices, logs 7 and 11). -/
def Obligations.StepRunsTheDecodedInstruction : Prop :=
  (∀ (s : State) (w : CmdWord) (d : WData) (rest : List PortEvent) (i : Instr),
    s.sel = none → s.port = .command w d :: rest → decodeHost w d = .ok i →
    step s = exec i { s with port := rest }) ∧
  (∀ (s : State) (w : CmdWord), s.sel = some w →
    (∀ i, decodeSelect w = .ok i → step s = exec i { s with sel := none }) ∧
    (∀ r, decodeSelect w = .error r → step s = .refused .reservedSelect))

/-- 30_encoding.md R87, with the rows of R85 by their masks. -/
def Obligations.IllegalWordsAreRefused : Prop :=
  (∀ (s : State) (w : CmdWord) (d : WData) (rest : List PortEvent),
    s.sel = none → s.port = .command w d :: rest →
    (w &&& 0xFFFF ≠ 0x0000 ∧ w &&& 0xFF00 ≠ 0x1000 ∧ w &&& 0xFF00 ≠ 0x2000 ∧
      w &&& 0xFFFF ≠ 0x3000 ∧ w &&& 0xFFFF ≠ 0x4000 ∧ w &&& 0xFFFF ≠ 0x5000 ∧
      w &&& 0xFFFF ≠ 0x6000) →
    step s = .next { s with port := rest, resp := some ⟨.errIllegal, 0⟩ }) ∧
  (∀ (s : State) (d : WData), 2 ^ 36 ≤ d.toNat →
    exec (.rdmem d) s = .next { s with resp := some ⟨.errAddr, 0⟩ })

/-- 60_exceptions.md R255, of the block with nothing presented. -/
def Obligations.NothingPresentedHoldsTheState : Prop :=
  ∀ s : State, s.sel = none → s.port = [] → step s = .next s

/-- 70_reset_and_hazards.md R271: the state after reset, of the machine as it starts and of every state
in which the reset input is applied; and a PREPARE straight after reset fails with detail 4. -/
def Obligations.ResetState : Prop :=
  AfterReset State.reset ∧
  (∃ t, exec .prepare State.reset = .next t ∧ t.status.state = .failed ∧
    t.status.err = .configuration ∧ t.status.detail = 4) ∧
  ∀ (s : State) (rest : List PortEvent), s.sel = none → s.port = .reset :: rest →
    ∃ t, step s = .next t ∧ AfterReset t

/-! ### Register and memory commands -/

/-- 46_engine_commands.md R211. -/
def Obligations.NopOnlyResponds : Prop :=
  encodeWord .nop = 0x0000 ∧
  ∀ s : State, exec .nop s = .next { s with resp := some ⟨.ok, 0⟩ }

/-- 46_engine_commands.md R212: undefined address, read-only register, and the write of a pending
register, which leaves every other register and everything else as it was. -/
def Obligations.WrregWritesOnePendingRegister : Prop :=
  ∀ (a : RegAddr) (v : WData) (s : State),
    encodeWord (.wrreg a v) = 0x1000 ||| a.setWidth 16 ∧
    (regAt a = none → exec (.wrreg a v) s = .next { s with resp := some ⟨.errAddr, 0⟩ }) ∧
    (∀ r, regAt a = some r → 0x20 ≤ a.toNat →
      exec (.wrreg a v) s = .next { s with resp := some ⟨.errRo, 0⟩ }) ∧
    (∀ r, regAt a = some r → a.toNat < 0x20 →
      ∃ p, exec (.wrreg a v) s = .next { s with pend := p, resp := some ⟨.ok, 0⟩ } ∧
        readReg { s with pend := p } r = v ∧
        ∀ q, q ≠ r → readReg { s with pend := p } q = readReg s q)

/-- 46_engine_commands.md R213, with the part of State that stands at each address of the map
(10_state.md R37); STATUS is assembled from its fields as 10_state.md R27 lays them out. -/
def Obligations.RdregReadsTheRegister : Prop :=
  [EngineState.idle, .preparing, .rendering, .complete, .failed].map stateCode = [0, 1, 2, 3, 4] ∧
  [ErrClass.none, .configuration, .resource, .runtime].map errCode = [0, 1, 2, 3] ∧
  ∀ (a : RegAddr) (s : State),
    encodeWord (.rdreg a) = 0x2000 ||| a.setWidth 16 ∧
    (∀ row ∈ ([(0x00, s.pend.mode), (0x01, s.pend.sampleRate), (0x02, s.pend.duration),
        (0x03, s.pend.softness), (0x04, s.pend.gainDb), (0x05, s.pend.entType),
        (0x06, s.pend.noiseType), (0x07, s.pend.noiseLevel), (0x08, s.pend.pulseCnt),
        (0x09, s.pend.carrierCnt), (0x21, s.pos), (0x22, s.total), (0x23, s.draws),
        (0x28, s.act.mode), (0x29, s.act.fs), (0x2A, s.act.soft), (0x2B, s.act.gainDb),
        (0x2C, s.act.gainLin), (0x2D, s.act.ent), (0x2E, s.act.ntype), (0x2F, s.act.nlevel),
        (0x50, s.nz.brown), (0x51, s.nz.lpf), (0x52, s.nz.cnt), (0x53, s.nz.lfoRate)] :
          List (RegAddr × U64)),
      exec (.rdreg row.1) s = .next { s with resp := some ⟨.ok, row.2⟩ }) ∧
    (∀ i : Fin 5, ∀ row ∈ ([(0x10, s.pend.pulse[i]), (0x18, s.pend.carrier[i]),
        (0x30, s.act.pulse[i]), (0x38, s.act.carrier[i]), (0x40, s.act.kfT[i]), (0x48, s.ph[i]),
        (0x60, s.rv[0].len[i]), (0x68, s.rv[1].len[i]), (0x70, s.rv[0].idx[i]),
        (0x78, s.rv[1].idx[i])] : List (Nat × U64)),
      exec (.rdreg (BitVec.ofNat 8 (row.1 + i.val))) s =
        .next { s with resp := some ⟨.ok, row.2⟩ }) ∧
    (∀ i : Fin 7, exec (.rdreg (BitVec.ofNat 8 (0x58 + i.val))) s =
      .next { s with resp := some ⟨.ok, s.nz.row[i]⟩ }) ∧
    (regAt a = none → exec (.rdreg a) s = .next { s with resp := some ⟨.errAddr, 0⟩ }) ∧
    (∀ r, regAt a = some r →
      exec (.rdreg a) s = .next { s with resp := some ⟨.ok, readReg s r⟩ }) ∧
    exec (.rdreg 0x20) s = .next { s with resp := some ⟨.ok, readReg s .status⟩ } ∧
    (readReg s .status).toNat =
      (stateCode s.status.state).toNat + 2 ^ 4 * (errCode s.status.err).toNat +
      2 ^ 8 * s.status.detail.toNat + 2 ^ 16 * s.status.jnyOn.toNat +
      2 ^ 17 * s.status.capNoise.toNat + 2 ^ 18 * s.status.capReverb.toNat +
      2 ^ 19 * s.status.capJourney.toNat + 2 ^ 20 * s.status.envSel.toNat +
      2 ^ 21 * s.status.satSel.toNat

/-- 46_engine_commands.md R215: the word of a valid address, ERR_ADDR for every other, no state
change. -/
def Obligations.RdmemReadsTheDelayWord : Prop :=
  encodeWord (.rdmem 0) = 0x3000 ∧
  (∀ (s : State) (c : Fin 2) (j : Fin 5) (o : Nat), o < 2 ^ 32 →
    exec (.rdmem (BitVec.ofNat 64 (c.val * 2 ^ 35 + j.val * 2 ^ 32 + o))) s =
      if o < (s.rv[c].len[j]).toNat then
        .next { s with resp := some ⟨.ok, lineRead s.rv[c].line[j] o⟩ }
      else .next { s with resp := some ⟨.errAddr, 0⟩ }) ∧
  (∀ (s : State) (d : WData), 2 ^ 36 ≤ d.toNat ∨ 4 < d.toNat / 2 ^ 32 % 8 →
    exec (.rdmem d) s = .next { s with resp := some ⟨.errAddr, 0⟩ })

/-! ### Sessions -/

/-- 46_engine_commands.md R219, every row: the command refused with ERR_STATE and no state change, or
executed: it completes, a RENDER in a session whose lines are allocated where it has reverb, and it is
not refused for the state. -/
def Obligations.CommandLegalityByState : Prop :=
  ∀ s : State, s.status.state ≠ .preparing →
    (s.status.state ≠ .idle → exec .prepare s = .next { s with resp := some ⟨.errState, 0⟩ }) ∧
    (s.status.state ≠ .rendering →
      ∀ n, exec (.render n) s = .next { s with resp := some ⟨.errState, 0⟩ }) ∧
    (∀ i t, i.isHost = true → exec i s = .next t →
      (i = .prepare → s.status.state = .idle) → ((∃ n, i = .render n) → s.status.state = .rendering) →
      ∀ d, t.resp ≠ some ⟨.errState, d⟩) ∧
    (∀ i, i.isHost = true → (i = .prepare → s.status.state = .idle) →
      ((∃ n, i = .render n) → s.status.state = .rendering ∧
        (s.status.capReverb = true → s.reverbReady)) →
      ∃ t, exec i s = .next t)

/-- 46_engine_commands.md section 3 and 60_exceptions.md section 3: of the checks that fail, PREPARE
reports the one with the lowest detail, with the detail and class numbers of the table, and changes
STATE, ERR and ERR_DETAIL and nothing else. -/
def Obligations.PrepareReportsTheFirstFailure : Prop :=
  sessionErrors.map (fun e => ((errorDetail e).toNat, (errCode (errorClass e)).toNat)) =
    [(1, 1), (2, 1), (3, 1), (4, 1), (5, 1), (6, 1), (7, 2), (8, 3)] ∧
  ∀ (s : State) (e : SessionError), s.status.state = .idle → checkFails s e →
    (∀ e', (errorDetail e').toNat < (errorDetail e).toNat → ¬ checkFails s e') →
    ∃ st : Status,
      st = { s.status with state := .failed, err := errorClass e, detail := errorDetail e } ∧
      exec .prepare s = .next { s with status := st, resp := some ⟨.ok, statusWord st⟩ }

/-- 46_engine_commands.md section 3: PREPARE of a good BATCH snapshot, the whole next state. -/
def Obligations.PrepareBatchSession : Prop :=
  ∀ s : State, s.status.state = .idle → parametersOk s → s.pend.mode = 0 →
    exec .prepare s = .next { s with
      act :=
        { mode := 0
          fs := s.pend.sampleRate
          soft := s.pend.softness
          gainDb := s.pend.gainDb
          gainLin := POW fTen (fdiv s.pend.gainDb fTwenty)
          ent := s.pend.entType
          ntype := s.pend.noiseType
          nlevel := s.pend.noiseLevel
          pulse := s.pend.pulse
          carrier := s.pend.carrier
          kfT := if s.pend.pulseCnt = 5 then
              #v[fmul s.pend.duration milestones[0], fmul s.pend.duration milestones[1],
                fmul s.pend.duration milestones[2], fmul s.pend.duration milestones[3],
                fmul s.pend.duration milestones[4]]
            else #v[0, 0, 0, 0, 0] }
      status :=
        { state := .rendering
          err := .none
          detail := 0
          jnyOn := decide (s.pend.pulseCnt = 5)
          capNoise := true
          capReverb := true
          capJourney := true
          envSel := false
          satSel := false }
      pos := 0
      total := f64FloorToU64 (fmul s.pend.duration s.pend.sampleRate)
      draws := 0
      ph := #v[0, 0, 0, 0, 0]
      nz :=
        { brown := 0
          lpf := 0
          cnt := 0
          lfoRate := if flt (s.pend.pulse[0]) kLfoSplit then kLfoSlow else kLfoFast
          row := #v[0, 0, 0, 0, 0, 0, 0] }
      rv :=
        #v[⟨#v[rvLength delayTimes[0] s.pend.sampleRate, rvLength delayTimes[1] s.pend.sampleRate,
              rvLength delayTimes[2] s.pend.sampleRate, rvLength delayTimes[3] s.pend.sampleRate,
              rvLength delayTimes[4] s.pend.sampleRate], #v[0, 0, 0, 0, 0], #v[[], [], [], [], []]⟩,
          ⟨#v[rvLength delayTimes[0] s.pend.sampleRate, rvLength delayTimes[1] s.pend.sampleRate,
              rvLength delayTimes[2] s.pend.sampleRate, rvLength delayTimes[3] s.pend.sampleRate,
              rvLength delayTimes[4] s.pend.sampleRate], #v[0, 0, 0, 0, 0], #v[[], [], [], [], []]⟩]
      resp := some ⟨.ok, if s.pend.pulseCnt = 5 then 0x0F0002 else 0x0E0002⟩ }

/-- 46_engine_commands.md section 3: PREPARE of a good STREAM snapshot, the whole next state: the noise
and reverb registers and the delay memory are not written. -/
def Obligations.PrepareStreamSession : Prop :=
  ∀ s : State, s.status.state = .idle → parametersOk s → s.pend.mode = 1 →
    exec .prepare s = .next { s with
      act :=
        { mode := 1
          fs := s.pend.sampleRate
          soft := s.pend.softness
          gainDb := s.pend.gainDb
          gainLin := POW fTen (fdiv s.pend.gainDb fTwenty)
          ent := 0
          ntype := 0xFFFFFFFFFFFFFFFF
          nlevel := s.pend.noiseLevel
          pulse := s.pend.pulse
          carrier := s.pend.carrier
          kfT := #v[0, 0, 0, 0, 0] }
      status :=
        { state := .rendering
          err := .none
          detail := 0
          jnyOn := false
          capNoise := false
          capReverb := false
          capJourney := false
          envSel := true
          satSel := true }
      pos := 0
      total := 0
      draws := 0
      ph := #v[0, 0, 0, 0, 0]
      resp := some ⟨.ok, 0x300002⟩ }

/-- 46_engine_commands.md section 4: RENDER in a session: a block of finite pairs, appended and counted,
the `last` flags, the streaming snapshot, and the two ways it ends; a batch gets as many pairs as are
asked for and left, a stream all that are asked for, unless a sample raises. From the snapshot on it is
SAMPLE with the flag of each pair, and once more where a sample raises: the pairs' values and all that
the units leave are SAMPLE's (its flag on the bus `opLast` is the model's choice, log 8). -/
def Obligations.RenderEmitsTheBlock : Prop :=
  ∀ (n : WData) (s : State), s.status.state = .rendering →
    (s.status.capReverb = true → s.reverbReady) →
    ∃ (t : State) (pairs : List OutPair), exec (.render n) s = .next t ∧
      t.resp = some ⟨.ok, BitVec.ofNat 64 pairs.length⟩ ∧ pairs.length ≤ n.toNat ∧
      t.out = s.out ++ pairs ∧ t.pos = s.pos + BitVec.ofNat 64 pairs.length ∧
      (∀ p ∈ pairs, fisFinite p.left = true ∧ fisFinite p.right = true) ∧
      (∀ (i : Nat) (h : i < pairs.length), pairs[i].last = true ↔
        i + 1 = n.toNat ∨ (s.act.mode = 0 ∧ s.pos.toNat + i + 1 = s.total.toNat)) ∧
      t.act = (if s.act.mode = 1 then
        { s.act with
          pulse := s.act.pulse.set 0 s.pend.pulse[0]
          carrier := s.act.carrier.set 0 s.pend.carrier[0]
          soft := s.pend.softness
          gainDb := s.pend.gainDb
          gainLin := POW fTen (fdiv s.pend.gainDb fTwenty) } else s.act) ∧
      t.pend = s.pend ∧ t.total = s.total ∧ t.port = s.port ∧ t.rndGiven = s.rndGiven ∧
      t.delayCap = s.delayCap ∧ t.sel = s.sel ∧ t.opA = s.opA ∧ t.opB = s.opB ∧
      t.opLast = s.opLast ∧ t.resA = s.resA ∧ t.resB = s.resB ∧
      (∀ c : Fin 2, t.rv[c].len = s.rv[c].len) ∧
      (∃ (flags : List Bool) (u : State), sampleRuns flags { s with act := t.act } = .next u ∧
        t = { u with opLast := s.opLast, status := t.status, resp := t.resp } ∧
        flags.take pairs.length = pairs.map (·.last) ∧
        flags.length = pairs.length + if t.status.state = .failed then 1 else 0) ∧
      ((t.status = { s.status with state := .failed, err := .runtime, detail := 8 } ∧
          pairs.length < n.toNat) ∨
       (t.status = { s.status with
            state := if s.act.mode = 0 ∧ t.pos = t.total then .complete else .rendering } ∧
          (s.act.mode = 1 → pairs.length = n.toNat) ∧
          (s.act.mode = 0 → pairs.length = min n.toNat (s.total.toNat - s.pos.toNat))))

/-- 46_engine_commands.md section 4: RENDER completes: with block length 0 in every session, the whole
next state; and with block length 1 on sample 0 of a batch with noise off, in either entrainment type,
for a softness in [0, 1] and a gain that is a number not below +0.0: one silent pair, flagged last. -/
def Obligations.RenderCompletes : Prop :=
  (∀ s : State, s.status.state = .rendering →
    exec (.render 0) s = .next { s with
      act := if s.act.mode = 1 then
          { s.act with
            pulse := s.act.pulse.set 0 s.pend.pulse[0]
            carrier := s.act.carrier.set 0 s.pend.carrier[0]
            soft := s.pend.softness
            gainDb := s.pend.gainDb
            gainLin := POW fTen (fdiv s.pend.gainDb fTwenty) }
        else s.act
      status.state := if s.act.mode = 0 ∧ s.pos = s.total then .complete else .rendering
      resp := some ⟨.ok, 0⟩ }) ∧
  (∀ s : State, s.status.state = .rendering → s.act.mode = 0 → s.pos.toNat < s.total.toNat →
    (∀ k : Fin 5, s.ph[k] = fZero) →
    (s.status.capNoise = false ∨ s.act.ntype = 0xFFFFFFFFFFFFFFFF) →
    (s.status.capReverb = true → s.reverbReady ∧ ∀ (c : Fin 2) (j : Fin 5), s.rv[c].line[j] = []) →
    fle fZero s.act.soft = true → fle s.act.soft fOne = true →
    fisFinite s.act.gainLin = true → fsign s.act.gainLin = false →
    ∃ t, exec (.render 1) s = .next t ∧ t.resp = some ⟨.ok, 1⟩ ∧
      t.out = s.out ++ [⟨fZero, fZero, true⟩] ∧ t.pos = s.pos + 1 ∧
      t.status = { s.status with
        state := if s.pos + 1 = s.total then .complete else .rendering } ∧
      t.pend = s.pend ∧ t.act = s.act ∧ t.total = s.total)

/-- 10_state.md R25 and 46_engine_commands.md R220: a RENDER reads the pending registers only through
the snapshot: in BATCH mode none, in STREAM mode PULSE[0], CARRIER[0], SOFTNESS and GAIN_DB. -/
def Obligations.RenderReadsOnlyTheSnapshot : Prop :=
  ∀ (n : WData) (s t : State) (p : Pending), exec (.render n) s = .next t →
    (s.act.mode = 1 → p.pulse[0] = s.pend.pulse[0] ∧ p.carrier[0] = s.pend.carrier[0] ∧
      p.softness = s.pend.softness ∧ p.gainDb = s.pend.gainDb) →
    exec (.render n) { s with pend := p } = .next { t with pend := p }

/-- 46_engine_commands.md R218: what RELEASE clears and what it keeps, in every state; no other command
leaves Complete or Failed. -/
def Obligations.ReleaseClearsTheSession : Prop :=
  encodeWord .release = 0x6000 ∧
  (∀ (i : Instr) (s t : State), i.isHost = true → i ≠ .release →
    s.status.state = .complete ∨ s.status.state = .failed → exec i s = .next t →
    t.status.state = s.status.state) ∧
  ∀ s : State, exec .release s = .next { s with
    act :=
      { mode := 0, fs := 0, soft := 0, gainDb := 0, gainLin := 0, ent := 0, ntype := 0, nlevel := 0
        pulse := #v[0, 0, 0, 0, 0], carrier := #v[0, 0, 0, 0, 0], kfT := #v[0, 0, 0, 0, 0] }
    status :=
      { state := .idle, err := .none, detail := 0, jnyOn := false, capNoise := false
        capReverb := false, capJourney := false, envSel := false, satSel := false }
    pos := 0
    total := 0
    draws := 0
    ph := #v[0, 0, 0, 0, 0]
    nz := { brown := 0, lpf := 0, cnt := 0, lfoRate := 0, row := #v[0, 0, 0, 0, 0, 0, 0] }
    rv :=
      #v[⟨#v[0, 0, 0, 0, 0], #v[0, 0, 0, 0, 0], #v[[], [], [], [], []]⟩,
        ⟨#v[0, 0, 0, 0, 0], #v[0, 0, 0, 0, 0], #v[[], [], [], [], []]⟩]
    resp := some ⟨.ok, 0⟩ }

/-- 46_engine_commands.md section 1: what a command can do to STATE, and by what. -/
def Obligations.StateTransitions : Prop :=
  ∀ (i : Instr) (s t : State), i.isHost = true → s.status.state ≠ .preparing →
    exec i s = .next t →
    t.status.state ≠ .preparing ∧
    (t.status.state = s.status.state ∨
      (i = .prepare ∧ s.status.state = .idle ∧
        (t.status.state = .rendering ∨ (t.status.state = .failed ∧
          (t.status.err = .configuration ∨ t.status.err = .resource)))) ∨
      ((∃ n, i = .render n) ∧ s.status.state = .rendering ∧
        ((t.status.state = .complete ∧ t.act.mode = 0 ∧ t.pos = t.total) ∨
          (t.status.state = .failed ∧ t.status.err = .runtime))) ∨
      (i = .release ∧ t.status.state = .idle))

/-- 60_exceptions.md R246 and R248: in Failed every command answers; PREPARE and RENDER are refused, and
only RELEASE changes STATUS, to Idle with no error. -/
def Obligations.FailedUntilRelease : Prop :=
  ∀ (i : Instr) (s : State), i.isHost = true → s.status.state = .failed →
    ∃ t, exec i s = .next t ∧
      (i = .prepare ∨ (∃ n, i = .render n) → t = { s with resp := some ⟨.errState, 0⟩ }) ∧
      (i ≠ .release → t.status = s.status) ∧
      (i = .release → t.status.state = .idle ∧ t.status.err = .none ∧ t.status.detail = 0)

/-- 60_exceptions.md R241: a command that is answered with another code than OK has RDATA 0 and has
changed nothing. -/
def Obligations.RefusalsChangeNothing : Prop :=
  ∀ (i : Instr) (s t : State) (c : Resp) (d : U64), i.isHost = true → exec i s = .next t →
    t.resp = some ⟨c, d⟩ → c ≠ .ok → t = { s with resp := some ⟨c, 0⟩ }

/-- 10_state.md R35: OUT holds the pairs emitted since reset, is append-only, and no instruction reads
it back. -/
def Obligations.OutIsAppendOnly : Prop :=
  State.reset.out = [] ∧
  ∀ (i : Instr) (s t : State), exec i s = .next t →
    ∃ pairs, t.out = s.out ++ pairs ∧
      ∀ o, exec i { s with out := o } = .next { t with out := o ++ pairs }

/-- 46_engine_commands.md section 6: the RENDER commands of a batch that reaches Complete have emitted
exactly TOTAL pairs, and after Complete no command emits. -/
def Obligations.BatchEmitsExactlyTotal : Prop :=
  (∀ (ns : List WData) (ds : List U64) (s t : State), s.status.state = .rendering →
    s.act.mode = 0 → s.pos = 0 → renderRun ns s = some (ds, t) → t.status.state = .complete →
    (ds.map BitVec.toNat).sum = s.total.toNat ∧
      ∃ pairs, t.out = s.out ++ pairs ∧ pairs.length = s.total.toNat) ∧
  (∀ (i : Instr) (s t : State), i.isHost = true → s.status.state = .complete →
    exec i s = .next t → t.out = s.out)

/-! ### Phase accumulators and the oscillator -/

/-- 40_phase_accumulator_oscillator.md sections 2 to 5: PA.INC, PA.VAL k, PA.ADV k and OSC.SIN k as the
rules compute them; each writes what its rule says and nothing else; `k` above 4 is refused; and the
properties P1 and P2 of the sine. -/
def Obligations.PhaseUnitResults : Prop :=
  ∀ (s : State) (k : BitVec 4),
    exec .paInc s = .next { s with resA := fdiv (fmul twoPi s.opA) s.opB } ∧
    (∀ i : Fin 5, k.toNat = i.val →
      exec (.paVal k) s = .next { s with resA := s.ph[i] } ∧
      exec (.oscSin k) s = .next { s with resA := SIN (s.ph[i]) } ∧
      exec (.paAdv k) s = .next { s with
        ph := s.ph.set i.val
          (if fle twoPi (fadd (s.ph[i]) s.opA) = true then fsub (fadd (s.ph[i]) s.opA) twoPi
            else fadd (s.ph[i]) s.opA) i.isLt }) ∧
    (4 < k.toNat →
      exec (.paVal k) s = .refused .reservedSelect ∧
      exec (.oscSin k) s = .refused .reservedSelect ∧
      exec (.paAdv k) s = .refused .reservedSelect) ∧
    (∀ i : Fin 5, s.ph[i] = fZero → SIN (s.ph[i]) = fZero) ∧
    (∀ i : Fin 5, fle fZero (s.ph[i]) = true → flt (s.ph[i]) twoPi = true →
      fle fMinusOne (SIN (s.ph[i])) = true ∧ fle (SIN (s.ph[i])) fOne = true)

/-- 40_phase_accumulator_oscillator.md section 6: the phase stays in [0, 2π). -/
def Obligations.PhaseStaysBelowTwoPi : Prop :=
  ∀ (s : State) (k : BitVec 4) (i : Fin 5), k.toNat = i.val →
    fle fZero (s.ph[i]) = true → flt (s.ph[i]) twoPi = true →
    fle fZero s.opA = true → flt s.opA twoPi = true →
    ∃ t, exec (.paAdv k) s = .next t ∧ fle fZero (t.ph[i]) = true ∧ flt (t.ph[i]) twoPi = true

/-! ### The pulse envelope -/

/-- 41_pulse_envelope.md sections 2 and 3: the two curves. -/
def Obligations.EnvelopeResults : Prop :=
  ∀ s : State,
    exec .envBatch s = .next { s with
      resA := POW (if flt fZero s.opA = true then s.opA else fZero)
        (fadd fOne (fmul kEnvB s.opB)) } ∧
    exec .envRt s = .next { s with
      resA := if flt s.opA fZero = true then fZero
        else POW (fabs s.opA) (fsub fOne (fmul kEnvR s.opB)) }

/-- 41_pulse_envelope.md section 4: the guarantee, and the gated branch. -/
def Obligations.EnvelopeInUnitInterval : Prop :=
  ∀ s : State, fle fMinusOne s.opA = true → fle s.opA fOne = true →
    fle fZero s.opB = true → fle s.opB fOne = true →
    ∃ t u, exec .envBatch s = .next t ∧ exec .envRt s = .next u ∧
      fle fZero t.resA = true ∧ fle t.resA fOne = true ∧
      fle fZero u.resA = true ∧ fle u.resA fOne = true ∧
      (fle s.opA fZero = true → t.resA = fZero ∧ u.resA = fZero)

/-! ### The journey interpolator -/

/-- 42_journey_interpolator.md sections 2, 3 and 5: JNY.BUILD; JNY.EVAL of keyframe times that rise
strictly, on the first segment whose upper time is not below `t`, or the last: the two clamps of `alpha`,
the two interpolations, and no segment of width 0, so no division by zero. Section 5 asks for that
precondition; JNY.EVAL completes in every state, writing the two result buses only, with results that
are free where the times do not rise strictly (the model's choice, log 20). -/
def Obligations.JourneyResults : Prop :=
  (∀ s : State, exec .jnyBuild s = .next { s with
    act.pulse := s.pend.pulse
    act.carrier := s.pend.carrier
    act.kfT := if s.status.jnyOn = true then
        #v[fmul s.pend.duration 0, fmul s.pend.duration 0x3FD0000000000000,
          fmul s.pend.duration 0x3FE0000000000000, fmul s.pend.duration 0x3FE8000000000000,
          fmul s.pend.duration 0x3FF0000000000000]
      else #v[0, 0, 0, 0, 0] }) ∧
  (∀ s : State, ∃ fp fc, exec .jnyEval s = .next { s with resA := fp, resB := fc }) ∧
  (∀ s : State, (∀ m : Fin 4, flt (s.act.kfT[m.castSucc]) (s.act.kfT[m.succ]) = true) →
    ∀ i : Fin 4, flt fZero (fsub (s.act.kfT[i.succ]) (s.act.kfT[i.castSucc])) = true) ∧
  (∀ (s : State) (i : Fin 4) (alpha : F64),
    (∀ m : Fin 4, flt (s.act.kfT[m.castSucc]) (s.act.kfT[m.succ]) = true) →
    (fle s.opA (s.act.kfT[i.succ]) = true ∨ i = 3) →
    (∀ m : Fin 4, m < i → fle s.opA (s.act.kfT[m.succ]) = false) →
    (let a := fdiv (fsub s.opA (s.act.kfT[i.castSucc]))
        (fsub (s.act.kfT[i.succ]) (s.act.kfT[i.castSucc]))
     alpha = if flt a fZero = true then fZero else if flt fOne a = true then fOne else a) →
    exec .jnyEval s = .next { s with
      resA := fadd (fmul (fsub fOne alpha) (s.act.pulse[i.castSucc]))
        (fmul alpha (s.act.pulse[i.succ]))
      resB := fadd (fmul (fsub fOne alpha) (s.act.carrier[i.castSucc]))
        (fmul alpha (s.act.carrier[i.succ])) })

/-- 42_journey_interpolator.md section 5: at every keyframe time of a journey from a time not below 0
with strictly increasing times and finite values, the interpolator gives that keyframe's values,
equal as numbers and, but for a keyframe value of -0.0, bit for bit. -/
def Obligations.JourneyMeetsItsKeyframes : Prop :=
  ∀ (s : State) (i : Fin 5), fle fZero (s.act.kfT[0]) = true →
    (∀ m : Fin 4, flt (s.act.kfT[m.castSucc]) (s.act.kfT[m.succ]) = true) →
    (∀ m : Fin 5, fisFinite (s.act.kfT[m]) = true ∧ fisFinite (s.act.pulse[m]) = true ∧
      fisFinite (s.act.carrier[m]) = true) →
    s.opA = s.act.kfT[i] →
    ∃ t, exec .jnyEval s = .next t ∧
      sameNumber t.resA (s.act.pulse[i]) = true ∧ sameNumber t.resB (s.act.carrier[i]) = true ∧
      (s.act.pulse[i] ≠ 0x8000000000000000 → t.resA = s.act.pulse[i]) ∧
      (s.act.carrier[i] ≠ 0x8000000000000000 → t.resB = s.act.carrier[i])

/-! ### The noise synthesizer -/

/-- 43_noise_synthesizer.md sections 2 and 4: NZ.PREP, the LFO and the lowpass. -/
def Obligations.NoisePrepareAndFilterResults : Prop :=
  ∀ s : State, exec .nzPrep s = .next { s with
    ph := s.ph.set 4 0
    nz :=
      { brown := 0
        lpf := 0
        cnt := 0
        lfoRate := if flt s.opA 0x4020000000000000 = true then 0x3FA999999999999A
          else 0x3FC999999999999A
        row := #v[0, 0, 0, 0, 0, 0, 0] } } ∧
    (∃ inc : F64, inc = fdiv (fmul twoPi s.nz.lfoRate) s.act.fs ∧
      exec .nzLfo s = .next { s with
        ph := s.ph.set 4 (if fle twoPi (fadd (s.ph[4]) inc) = true
          then fsub (fadd (s.ph[4]) inc) twoPi else fadd (s.ph[4]) inc)
        resA := fadd kLpfBase (fmul (fadd fHalf (fmul fHalf (SIN (s.ph[4])))) kLpfDepth) }) ∧
    (∃ y : F64, y = fadd s.nz.lpf (fmul s.opB (fsub s.opA s.nz.lpf)) ∧
      exec .nzLpf s = .next { s with nz.lpf := y, resA := y })

/-- 43_noise_synthesizer.md section 3 and 00_scope.md section 6 (`draw()`): White and Brown take the
value of the stream that DRAWS numbers, in [-1, 1] wherever the given part of it is, and Brown moves its integrator, which
stays within 5 (and the output within 17.5) in binary64 too. -/
def Obligations.WhiteAndBrownTakeOneDraw : Prop :=
  ∀ s : State, (∀ v ∈ s.rndGiven, fle fMinusOne v = true ∧ fle v fOne = true) →
    ∃ w : F64, w = drawValue s ∧ fle fMinusOne w = true ∧ fle w fOne = true ∧
      (∀ v, s.rndGiven[s.draws.toNat]? = some v → w = v) ∧
      (s.rndGiven.length ≤ s.draws.toNat → w = RND s.draws.toNat) ∧
      exec .nzWhite s = .next { s with draws := s.draws + 1, resA := w } ∧
      exec .nzBrown s = .next { s with
        draws := s.draws + 1
        nz.brown := fdiv (fadd s.nz.brown (fmul kBrownIn w)) kBrownLeak
        resA := fmul (fdiv (fadd s.nz.brown (fmul kBrownIn w)) kBrownLeak) kBrownGain } ∧
      (fle 0xC014000000000000 s.nz.brown = true → fle s.nz.brown 0x4014000000000000 = true →
        ∀ b, b = fdiv (fadd s.nz.brown (fmul kBrownIn w)) kBrownLeak →
          fle 0xC014000000000000 b = true ∧ fle b 0x4014000000000000 = true ∧
          fle 0xC031800000000000 (fmul b kBrownGain) = true ∧
          fle (fmul b kBrownGain) 0x4031800000000000 = true)

/-- 43_noise_synthesizer.md section 3: NZ.PINK: row `i` is replaced exactly when 2^i divides the counter,
in ascending order, each by the next draw, a given one where the stream is given so far; the counter,
the draw counter and the sum. -/
def Obligations.PinkRefreshesTheDueRows : Prop :=
  ∀ s : State,
    ∃ row : Vector F64 7,
      (∀ i : Fin 7, (s.nz.cnt.toNat % 2 ^ i.val ≠ 0 → row[i] = s.nz.row[i]) ∧
        (s.nz.cnt.toNat % 2 ^ i.val = 0 →
          row[i] = drawValue { s with draws := s.draws + BitVec.ofNat 64 i.val } ∧
          (s.draws.toNat + 7 ≤ s.rndGiven.length → s.rndGiven.length < 2 ^ 64 →
            s.rndGiven[s.draws.toNat + i.val]? = some (row[i])))) ∧
      exec .nzPink s = .next { s with
        nz.row := row
        nz.cnt := BitVec.ofNat 64 ((s.nz.cnt.toNat + 1) % 2 ^ 32)
        draws := s.draws + BitVec.ofNat 64
          ((List.range 7).countP fun i => decide (s.nz.cnt.toNat % 2 ^ i = 0))
        resA := fmul (fadd (fadd (fadd (fadd (fadd (fadd row[0] row[1]) row[2]) row[3]) row[4])
          row[5]) row[6]) kPinkGain }

/-- 43_noise_synthesizer.md section 6: the cadence over the 1024 calls after the counter was 0: call `m`
replaces row `i` by its draw exactly when 2^i divides `m`, 2^(10-i) times in all, and keeps it else. -/
def Obligations.PinkCadence : Prop :=
  (∀ s : State, s.nz.cnt = 0 →
    ∃ t, runUnit .nzPink 1024 s = .next t ∧ t.nz.cnt = 1024 ∧ t.draws = s.draws + 2032) ∧
  (∀ (s : State) (m : Nat), s.nz.cnt = 0 → m < 1024 →
    ∃ a b, runUnit .nzPink m s = .next a ∧ exec .nzPink a = .next b ∧
      runUnit .nzPink (m + 1) s = .next b ∧ a.nz.cnt = BitVec.ofNat 64 m ∧
      (∀ i : Fin 7,
        (rowDue a.nz.cnt i = false → b.nz.row[i] = a.nz.row[i]) ∧
        (rowDue a.nz.cnt i = true →
          b.nz.row[i] = drawValue { a with draws := a.draws + BitVec.ofNat 64 i.val })) ∧
      b.draws = a.draws + BitVec.ofNat 64 ((List.range 7).countP fun i => decide (2 ^ i ∣ m))) ∧
  (∀ (i : Fin 7) (m : Nat), m < 1024 → (rowDue (BitVec.ofNat 64 m) i = true ↔ 2 ^ i.val ∣ m)) ∧
  (∀ i : Fin 7,
    ((List.range 1024).countP fun m => rowDue (BitVec.ofNat 64 m) i) = 2 ^ (10 - i.val))

/-- 43_noise_synthesizer.md section 4: with the LFO phase in [0, 2π) the coefficient is in
[0.005, 0.055]; at phase +0.0 it is 0.030000000000000002 whatever SIN is. -/
def Obligations.LowpassCoefficientRange : Prop :=
  ∀ s : State, fle fZero (s.ph[4]) = true → flt (s.ph[4]) twoPi = true →
    ∃ t, exec .nzLfo s = .next t ∧ fle 0x3F747AE147AE147B t.resA = true ∧
      fle t.resA 0x3FAC28F5C28F5C29 = true ∧ (s.ph[4] = fZero → t.resA = 0x3F9EB851EB851EB9)

/-- 43_noise_synthesizer.md section 5: NZ.PROC is the generator of the active type, then the LFO, then
the lowpass. -/
def Obligations.NoiseProcChainsTheUnits : Prop :=
  ∀ s : State, ∃ a b c,
    exec (if s.act.ntype = 0 then .nzWhite else if s.act.ntype = 1 then .nzPink else .nzBrown) s
      = .next a ∧
    exec .nzLfo a = .next b ∧
    exec .nzLpf { b with opA := a.resA, opB := b.resA } = .next c ∧
    exec .nzProc s = .next { c with opA := s.opA, opB := s.opB }

/-! ### The reverb network -/

/-- 44_reverb_network.md section 2: RV.PREP c sizes and clears the lines of its channel only. -/
def Obligations.ReverbPrepare : Prop :=
  ∀ (s : State) (c : BitVec 1) (d : Fin 2), c.toNat = d.val →
    ∃ len : Vector U64 5,
      (∀ j : Fin 5, (len[j]).toNat =
        max 1 (f64FloorToU64 (fmul (delayTimes[j]) s.act.fs)).toNat) ∧
      exec (.rvPrep c) s = .next { s with
        rv := s.rv.set d.val ⟨len, #v[0, 0, 0, 0, 0], #v[[], [], [], [], []]⟩ d.isLt }

/-- 44_reverb_network.md section 3: RV.COMB c, j with its cursor in range: the word read, the word
written, the cursor moved, everything else as it was; with no word at the cursor it stops (log 10),
and a comb number above 3 is refused. -/
def Obligations.CombReadsWritesAdvances : Prop :=
  ∀ (s : State) (c : BitVec 1) (j : BitVec 3) (d : Fin 2), c.toNat = d.val →
    (∀ (m : Fin 5) (r : F64), j.toNat = m.val → m ≠ 4 →
      (s.rv[d].idx[m]).toNat < (s.rv[d].len[m]).toNat →
      r = lineRead (s.rv[d].line[m]) (s.rv[d].idx[m]).toNat →
      exec (.rvComb c j) s = .next { s with
        rv := s.rv.set d.val
          { len := s.rv[d].len
            idx := (s.rv[d].idx).set m.val
              (BitVec.ofNat 64 (((s.rv[d].idx[m]).toNat + 1) % (s.rv[d].len[m]).toNat)) m.isLt
            line := (s.rv[d].line).set m.val
              (lineWrite (s.rv[d].line[m]) (s.rv[d].idx[m]).toNat (fadd s.opA (fmul r gComb)))
              m.isLt } d.isLt
        resA := r }) ∧
    (∀ m : Fin 5, j.toNat = m.val → m ≠ 4 →
      (s.rv[d].len[m]).toNat ≤ (s.rv[d].idx[m]).toNat →
      exec (.rvComb c j) s = .fault .delayWordAbsent) ∧
    (4 ≤ j.toNat → exec (.rvComb c j) s = .refused .reservedSelect)

/-- 44_reverb_network.md section 4: RV.AP c with its cursor in range; with no word at the cursor it
stops (log 10). -/
def Obligations.AllpassReadsWritesAdvances : Prop :=
  ∀ (s : State) (c : BitVec 1) (d : Fin 2), c.toNat = d.val →
    (∀ x y : F64, (s.rv[d].idx[4]).toNat < (s.rv[d].len[4]).toNat →
      x = lineRead (s.rv[d].line[4]) (s.rv[d].idx[4]).toNat →
      y = fadd (fneg (fmul gAp s.opA)) x →
      exec (.rvAp c) s = .next { s with
        rv := s.rv.set d.val
          { len := s.rv[d].len
            idx := (s.rv[d].idx).set 4
              (BitVec.ofNat 64 (((s.rv[d].idx[4]).toNat + 1) % (s.rv[d].len[4]).toNat))
            line := (s.rv[d].line).set 4
              (lineWrite (s.rv[d].line[4]) (s.rv[d].idx[4]).toNat (fadd s.opA (fmul gAp y))) }
          d.isLt
        resA := y }) ∧
    ((s.rv[d].len[4]).toNat ≤ (s.rv[d].idx[4]).toNat →
      exec (.rvAp c) s = .fault .delayWordAbsent)

/-- 44_reverb_network.md section 5: RV.PROC c on allocated lines is its four combs on the same input,
summed left to right and scaled, then the all-pass. -/
def Obligations.ReverbProcChainsTheFilters : Prop :=
  ∀ (s : State) (c : BitVec 1) (d : Fin 2), c.toNat = d.val →
    (∀ j : Fin 5, (s.rv[d].idx[j]).toNat < (s.rv[d].len[j]).toNat) →
    ∃ s0 s1 s2 s3 s4,
      exec (.rvComb c 0) s = .next s0 ∧ exec (.rvComb c 1) s0 = .next s1 ∧
      exec (.rvComb c 2) s1 = .next s2 ∧ exec (.rvComb c 3) s2 = .next s3 ∧
      exec (.rvAp c) { s3 with
        opA := fmul (fadd (fadd (fadd s0.resA s1.resA) s2.resA) s3.resA) kCombSum } = .next s4 ∧
      exec (.rvProc c) s = .next { s4 with opA := s.opA }

/-- 44_reverb_network.md section 6: lengths at least 1 and cursors in range, for good. -/
def Obligations.CursorsStayInRange : Prop :=
  (∀ (s : State) (c : BitVec 1) (d : Fin 2), c.toNat = d.val →
    ∃ t, exec (.rvPrep c) s = .next t ∧
      ∀ j : Fin 5, 1 ≤ (t.rv[d].len[j]).toNat ∧ (t.rv[d].idx[j]).toNat < (t.rv[d].len[j]).toNat) ∧
  (∀ (i : Instr) (s : State), i.isHost = false → s.reverbReady →
    (∀ f, exec i s ≠ .fault f) ∧ (∀ t, exec i s = .next t → t.reverbReady))

/-- 20_memory.md R76: the access pattern of a delay line, for any words written: an access gives the
word written as many accesses earlier as the line is long, or +0.0 on a cleared line; the cursor counts
modulo the length, so that it stays 0 on a line of length 1; the combs and the all-pass are such
accesses. -/
def Obligations.DelayLineIsADelay : Prop :=
  (∀ (n : Network) (j : Fin 5) (ws : List (F64 → F64)),
    lineWf (n.len[j]).toNat (n.line[j]) = true → (n.idx[j]).toNat < (n.len[j]).toNat →
    ∃ rs n', accessRun j ws n = .ok (rs, n') ∧ rs.length = ws.length ∧ n'.len = n.len ∧
      (n'.idx[j]).toNat = ((n.idx[j]).toNat + ws.length) % (n.len[j]).toNat ∧
      ((n.len[j]).toNat = 1 → n'.idx[j] = 0) ∧
      (∀ (k : Nat) (hk : k + (n.len[j]).toNat < rs.length) (w : F64 → F64), ws[k]? = some w →
        rs[k + (n.len[j]).toNat] = w (rs[k])) ∧
      (n.line[j] = [] → ∀ (k : Nat) (hk : k < rs.length), k < (n.len[j]).toNat → rs[k] = fZero)) ∧
  (∀ (n : Network) (j : Fin 4) (x : F64),
    netComb j x n = n.access j.castSucc (fun r => fadd x (fmul r gComb))) ∧
  (∀ (n n' : Network) (x y : F64), netAp x n = .ok (y, n') ↔
    ∃ r, n.access 4 (fun d => fadd x (fmul gAp (fadd (fneg (fmul gAp x)) d))) = .ok (r, n') ∧
      y = fadd (fneg (fmul gAp x)) r)

/-! ### The mixer and the saturator -/

/-- 45_mixer_saturator.md sections 2 to 5. -/
def Obligations.MixerResults : Prop :=
  ∀ s : State,
    exec .gainLin s = .next { s with act.gainLin := POW fTen (fdiv s.opA fTwenty) } ∧
    (s.status.capNoise = true → s.act.ntype ≠ 0xFFFFFFFFFFFFFFFF →
      exec .mixDry s = .next { s with
        resA := fmul s.act.gainLin (fadd s.opA (fmul s.act.nlevel s.opB)) }) ∧
    (s.status.capNoise = false ∨ s.act.ntype = 0xFFFFFFFFFFFFFFFF →
      exec .mixDry s = .next { s with resA := fmul s.act.gainLin s.opA }) ∧
    (s.status.capReverb = true →
      exec .mixWet s = .next { s with resA := fadd s.opA (fmul kWet s.opB) }) ∧
    (s.status.capReverb = false → exec .mixWet s = .next { s with resA := s.opA }) ∧
    exec .satTanh s = .next { s with resA := TANH s.opA } ∧
    (fle (fabs s.opA) kKneeT = true → exec .satKnee s = .next { s with resA := s.opA }) ∧
    (fle (fabs s.opA) kKneeT = false → ∃ m,
      m = fadd kKneeT (fmul (fsub (fabs s.opA) kKneeT) kKneeR) ∧
      exec .satKnee s = .next { s with resA := if flt fZero s.opA = true then m else fneg m })

/-- 45_mixer_saturator.md section 2: the linear gain of every level within 6000 dB of 0 is a positive
number. -/
def Obligations.LinearGainIsPositive : Prop :=
  ∀ s : State, fle 0xC0B7700000000000 s.opA = true → fle s.opA 0x40B7700000000000 = true →
    ∃ t, exec .gainLin s = .next t ∧ fisFinite t.act.gainLin = true ∧
      flt fZero t.act.gainLin = true

/-- 45_mixer_saturator.md section 5: the tanh saturator, with its corner cases. -/
def Obligations.TanhSaturatorBounded : Prop :=
  encodeWord .satTanh = 0x8053 ∧
  ∀ s : State, ∃ t, exec .satTanh s = .next t ∧ t = { s with resA := TANH s.opA } ∧
    (s.opA = fZero → t.resA = fZero) ∧
    (fisNaN s.opA = false → fle fMinusOne t.resA = true ∧ fle t.resA fOne = true) ∧
    (fisNaN s.opA = true → fisNaN t.resA = true)

/-- 45_mixer_saturator.md section 5: for `|x| ≤ 1` the knee gives `|y| ≤ 0.91`, the knee is odd, and a
NaN gives a NaN. -/
def Obligations.KneeBoundAndSymmetry : Prop :=
  ∀ s : State, ∃ t, exec .satKnee s = .next t ∧
    (fle fMinusOne s.opA = true → fle s.opA fOne = true →
      fle 0xBFED1EB851EB851F t.resA = true ∧ fle t.resA 0x3FED1EB851EB851F = true) ∧
    (fisNaN s.opA = true → fisNaN t.resA = true) ∧
    (fisNaN s.opA = false → ∃ u, exec .satKnee { s with opA := fneg s.opA } = .next u ∧
      u.resA = fneg t.resA)

/-! ### SAMPLE -/

/-- 46_engine_commands.md section 4: SAMPLE with its lines allocated, where it has reverb: it emits one
finite pair and counts it, or it raises; and what it leaves as it was: every register it does not
write, every delay word but the one at each line's cursor, and both networks where it has no reverb.
The flag is on the bus `opLast` (log 8), and a raise leaves the response as it was (log 17). -/
def Obligations.SampleEmitsOrRaises : Prop :=
  ∀ s : State, (s.status.capReverb = true → s.reverbReady) →
    ∃ t, exec .sample s = .next t ∧
      ((t.status = s.status ∧ t.pos = s.pos + 1 ∧ ∃ l r, fisFinite l = true ∧ fisFinite r = true ∧
          t.out = s.out ++ [⟨l, r, s.opLast⟩]) ∨
       (t.status = { s.status with state := .failed, err := .runtime, detail := 8 } ∧
          t.pos = s.pos ∧ t.out = s.out)) ∧
      t.pend = s.pend ∧ t.act = s.act ∧ t.total = s.total ∧ t.port = s.port ∧ t.resp = s.resp ∧
      t.rndGiven = s.rndGiven ∧ t.delayCap = s.delayCap ∧ t.sel = s.sel ∧ t.opA = s.opA ∧
      t.opB = s.opB ∧ t.opLast = s.opLast ∧ t.resA = s.resA ∧ t.resB = s.resB ∧
      (∀ c : Fin 2, t.rv[c].len = s.rv[c].len) ∧
      (∀ (c : Fin 2) (j : Fin 5) (o : Nat), o ≠ (s.rv[c].idx[j]).toNat →
        lineRead (t.rv[c].line[j]) o = lineRead (s.rv[c].line[j]) o) ∧
      (s.status.capReverb = true → ∀ (c : Fin 2) (j : Fin 5),
        (t.rv[c].idx[j]).toNat = ((s.rv[c].idx[j]).toNat + 1) % (s.rv[c].len[j]).toNat) ∧
      (s.status.capReverb = false → t.rv = s.rv)

/-- 46_engine_commands.md section 4, steps 1 to 7 where a session has no noise and no reverb and the
strategies of STREAM mode: the one whole result, from the values read before the accumulators
advance. The flag and the operands are on the buses of log 8, and a raise leaves the response as it was
(log 17). -/
def Obligations.StreamSample : Prop :=
  ∀ (s : State) (env x y : F64), s.status.jnyOn = false → s.status.capNoise = false →
    s.status.capReverb = false → s.status.envSel = true → s.status.satSel = true → s.act.ent = 0 →
    env = (if flt (SIN (s.ph[1])) fZero = true then fZero
      else POW (fabs (SIN (s.ph[1]))) (fsub fOne (fmul kEnvR s.act.soft))) →
    x = fmul s.act.gainLin (fmul (SIN (s.ph[0])) env) →
    exec .satKnee { s with opA := x } = .next { s with opA := x, resA := y } →
    ∃ p : Vector F64 5,
      exec (.paAdv 0) { s with opA := fdiv (fmul twoPi (s.act.carrier[0])) s.act.fs } =
        .next { s with
          opA := fdiv (fmul twoPi (s.act.carrier[0])) s.act.fs, ph := s.ph.set 0 (p[0]) } ∧
      exec (.paAdv 1) { s with opA := fdiv (fmul twoPi (s.act.pulse[0])) s.act.fs } =
        .next { s with
          opA := fdiv (fmul twoPi (s.act.pulse[0])) s.act.fs, ph := s.ph.set 1 (p[1]) } ∧
      p[2] = s.ph[2] ∧ p[3] = s.ph[3] ∧ p[4] = s.ph[4] ∧
      exec .sample s =
        if fisFinite y = true then
          .next { s with ph := p, out := s.out ++ [⟨y, y, s.opLast⟩], pos := s.pos + 1 }
        else .next { s with
          ph := p, status.state := .failed, status.err := .runtime, status.detail := 8 }

/-- 46_engine_commands.md section 4, steps 2 to 7 in BinauralOffset operation of a BATCH session with
noise off and no journey, whose lines are allocated: un-enveloped tones at carrier less and plus half
the pulse, each through its own network, mixed and shaped. The flag is on the bus `opLast` (log 8), and
a raise leaves the response as it was (log 17). -/
def Obligations.BinauralBatchSample : Prop :=
  ∀ (s : State) (h dl dr wl wr : F64) (n0 n1 : Network), s.status.jnyOn = false →
    s.act.ntype = 0xFFFFFFFFFFFFFFFF → s.status.capReverb = true → s.status.satSel = false →
    s.act.ent ≠ 0 → h = fdiv (s.act.pulse[0]) fTwo →
    dl = fmul s.act.gainLin (SIN (s.ph[2])) → dr = fmul s.act.gainLin (SIN (s.ph[3])) →
    netProc dl s.rv[0] = .ok (wl, n0) → netProc dr s.rv[1] = .ok (wr, n1) →
    ∃ (p : Vector F64 5) (l r : F64),
      l = TANH (fadd dl (fmul kWet wl)) ∧ r = TANH (fadd dr (fmul kWet wr)) ∧
      p[0] = s.ph[0] ∧ p[1] = s.ph[1] ∧ p[4] = s.ph[4] ∧
      p[2] = wrapAdvance (s.ph[2])
        (fdiv (fmul twoPi (fsub (s.act.carrier[0]) h)) s.act.fs) ∧
      p[3] = wrapAdvance (s.ph[3])
        (fdiv (fmul twoPi (fadd (s.act.carrier[0]) h)) s.act.fs) ∧
      exec .sample s =
        if fisFinite l = true ∧ fisFinite r = true then
          .next { s with
            ph := p, rv := #v[n0, n1], out := s.out ++ [⟨l, r, s.opLast⟩], pos := s.pos + 1 }
        else .next { s with
          ph := p, rv := #v[n0, n1]
          status.state := .failed, status.err := .runtime, status.detail := 8 }

/-- 46_engine_commands.md section 4: which accumulators a SAMPLE moves: carrier and pulse phase in
AmplitudeModulated operation, the two offset phases in BinauralOffset operation, each by one advance
of the frequencies of step 1, and the LFO phase only when noise runs. -/
def Obligations.SampleAdvancesItsPhases : Prop :=
  ∀ (s t : State) (fp fc : F64), exec .sample s = .next t →
    (s.status.jnyOn = false → fp = s.act.pulse[0] ∧ fc = s.act.carrier[0]) →
    (s.status.jnyOn = true → ∃ u,
      exec .jnyEval { s with opA := fdiv (u64ToF64 s.pos) s.act.fs } = .next u ∧
      fp = u.resA ∧ fc = u.resB) →
    (s.act.ent = 0 → t.ph[2] = s.ph[2] ∧ t.ph[3] = s.ph[3] ∧
      t.ph[0] = wrapAdvance (s.ph[0]) (fdiv (fmul twoPi fc) s.act.fs) ∧
      t.ph[1] = wrapAdvance (s.ph[1]) (fdiv (fmul twoPi fp) s.act.fs)) ∧
    (s.act.ent ≠ 0 → t.ph[0] = s.ph[0] ∧ t.ph[1] = s.ph[1] ∧
      t.ph[2] = wrapAdvance (s.ph[2]) (fdiv (fmul twoPi (fsub fc (fdiv fp fTwo))) s.act.fs) ∧
      t.ph[3] = wrapAdvance (s.ph[3]) (fdiv (fmul twoPi (fadd fc (fdiv fp fTwo))) s.act.fs)) ∧
    (s.status.capNoise = false ∨ s.act.ntype = 0xFFFFFFFFFFFFFFFF →
      t.ph[4] = s.ph[4] ∧ t.nz = s.nz ∧ t.draws = s.draws) ∧
    (s.status.capNoise = true → s.act.ntype ≠ 0xFFFFFFFFFFFFFFFF →
      t.ph[4] = wrapAdvance (s.ph[4]) (fdiv (fmul twoPi s.nz.lfoRate) s.act.fs))

/-- 46_engine_commands.md section 4, corner cases: sample 0 of a session with noise off is exactly
(+0.0, +0.0), in either entrainment type and either mode, for a softness in [0, 1] and a gain that is a
number not below +0.0. -/
def Obligations.SampleZeroIsSilence : Prop :=
  ∀ s : State, (∀ k : Fin 5, s.ph[k] = fZero) →
    (s.status.capNoise = false ∨ s.act.ntype = 0xFFFFFFFFFFFFFFFF) →
    (s.status.capReverb = true → s.reverbReady ∧ ∀ (c : Fin 2) (j : Fin 5), s.rv[c].line[j] = []) →
    fle fZero s.act.soft = true → fle s.act.soft fOne = true →
    fisFinite s.act.gainLin = true → fsign s.act.gainLin = false →
    ∃ t, exec .sample s = .next t ∧ t.out = s.out ++ [⟨fZero, fZero, s.opLast⟩] ∧
      t.pos = s.pos + 1 ∧ t.status = s.status

/-- 46_engine_commands.md section 4, corner cases: in AmplitudeModulated operation, with networks that
have received identical inputs, the two channels are equal bit for bit, and the networks stay equal. Of a
delay word that is a NaN the spec leaves the payload of each occurrence open (93_implementation_defined.md
U9): that the networks stay equal bit for bit there too is the model's choice, log 1 (the same operation
on the same operands gives the same NaN). -/
def Obligations.AmplitudeModulatedIsMono : Prop :=
  ∀ s t : State, s.act.ent = 0 → s.rv[0] = s.rv[1] → exec .sample s = .next t →
    t.rv[0] = t.rv[1] ∧ ∀ p, t.out = s.out ++ [p] → p.left = p.right

/-! ### The whole machine -/

/-- The state after reset meets both invariants. -/
def Obligations.ResetMeetsTheInvariants : Prop := Inv State.reset ∧ BatchInv State.reset

/-- Every step, of a command, of a unit operation run alone or of reset, keeps `Inv`: the delay memory
canonical, the cursors in range, reverb only with its lines, no state Preparing, ERR and ERR_DETAIL
together, the pink counter below 2^32, the flags and selectors as the mode has them. -/
def Obligations.EveryStepKeepsTheInvariant : Prop :=
  ∀ s t : State, Inv s → step s = .next t → Inv t

/-- Every step with nothing in the sequencer's slot keeps `BatchInv`: in a batch session TOTAL is below
2^63 and POS does not pass it (so that `POS + 1` never wraps), Complete is at the end of a batch, and a
session with a journey and a TOTAL that is not 0 has keyframe times that rise strictly
(42_journey_interpolator.md section 5: JNY.EVAL never divides by zero in a run). -/
def Obligations.HostStepsKeepTheBatch : Prop :=
  ∀ s t : State, BatchInv s → s.sel = none → step s = .next t → BatchInv t

/-- 60_exceptions.md section 3: every command in every state that meets the invariant gets a response. -/
def Obligations.EveryCommandGetsAResponse : Prop :=
  ∀ (s : State) (w : CmdWord) (d : WData) (rest : List PortEvent), Inv s → s.sel = none →
    s.port = .command w d :: rest → ∃ t r, step s = .next t ∧ t.resp = some r

/-! ### The schedule of SAMPLE -/

/-- 46_engine_commands.md section 4: the schedule of SAMPLE, step by step, in every kind of session, of
either entrainment type, with or without journey, noise and reverb: the frequencies `fp`, `fc` of step
1; the tones `l`, `r` with the envelope of ENV_SEL, and the accumulators advanced (state `a`); the one
noise value `nz` of NZ.PROC (state `b`) scaled by A_NLEVEL and added to both tones; the gain; RV.PROC of
each channel (states `c`, `d`); the wet part; the shaper of SAT_SEL; the pair emitted and counted, or
RuntimeError raised. Operands, results and the flag are on the buses of log 8, and a raise leaves the
response as it was (log 17). -/
def Obligations.SampleFollowsItsSchedule : Prop :=
  ∀ (s : State) (fp fc : F64), (s.status.capReverb = true → s.reverbReady) →
    (s.status.jnyOn = false → fp = s.act.pulse[0] ∧ fc = s.act.carrier[0]) →
    (s.status.jnyOn = true → ∃ u,
      exec .jnyEval { s with opA := fdiv (u64ToF64 s.pos) s.act.fs } = .next u ∧
      fp = u.resA ∧ fc = u.resB) →
    ∃ (l r nz dl dr wl wr ml mr yl yr : F64) (a b c d : State),
      (s.act.ent = 0 → ∃ env,
        unitCall (if s.status.envSel then .envRt else .envBatch) (SIN (s.ph[1])) s.act.soft s =
          some (env, s) ∧
        l = fmul (SIN (s.ph[0])) env ∧ r = l ∧
        a = { s with ph := (s.ph.set 0 (wrapAdvance (s.ph[0])
            (fdiv (fmul twoPi fc) s.act.fs))).set 1 (wrapAdvance (s.ph[1])
            (fdiv (fmul twoPi fp) s.act.fs)) }) ∧
      (s.act.ent ≠ 0 → l = SIN (s.ph[2]) ∧ r = SIN (s.ph[3]) ∧
        a = { s with ph := (s.ph.set 2 (wrapAdvance (s.ph[2])
            (fdiv (fmul twoPi (fsub fc (fdiv fp fTwo))) s.act.fs))).set 3 (wrapAdvance (s.ph[3])
            (fdiv (fmul twoPi (fadd fc (fdiv fp fTwo))) s.act.fs)) }) ∧
      (s.status.capNoise = true ∧ s.act.ntype ≠ 0xFFFFFFFFFFFFFFFF →
        unitCall .nzProc s.opA s.opB a = some (nz, b) ∧
        dl = fmul s.act.gainLin (fadd l (fmul s.act.nlevel nz)) ∧
        dr = fmul s.act.gainLin (fadd r (fmul s.act.nlevel nz))) ∧
      (s.status.capNoise = false ∨ s.act.ntype = 0xFFFFFFFFFFFFFFFF →
        b = a ∧ dl = fmul s.act.gainLin l ∧ dr = fmul s.act.gainLin r) ∧
      (s.status.capReverb = true →
        unitCall (.rvProc 0) dl s.opB b = some (wl, c) ∧
        unitCall (.rvProc 1) dr s.opB c = some (wr, d) ∧
        ml = fadd dl (fmul kWet wl) ∧ mr = fadd dr (fmul kWet wr)) ∧
      (s.status.capReverb = false → d = b ∧ ml = dl ∧ mr = dr) ∧
      unitCall (if s.status.satSel then .satKnee else .satTanh) ml s.opB d = some (yl, d) ∧
      unitCall (if s.status.satSel then .satKnee else .satTanh) mr s.opB d = some (yr, d) ∧
      exec .sample s =
        if fisFinite yl = true ∧ fisFinite yr = true then
          .next { d with out := s.out ++ [⟨yl, yr, s.opLast⟩], pos := s.pos + 1 }
        else .next { d with
          status.state := .failed, status.err := .runtime, status.detail := 8 }
end

