-- ==== Sys2Proof/Laws/State.lean ====
section
/-! SUPPORT. What each update of the state leaves in each field: one lemma per field per update, so that
no later proof unfolds a record update. -/

namespace Sys2Proof.Machine

/-! ### setPh -/

@[simp] theorem setPh_pend (s : State) (k : Fin 5) (v : F64) : (s.setPh k v).pend = s.pend := rfl
@[simp] theorem setPh_act (s : State) (k : Fin 5) (v : F64) : (s.setPh k v).act = s.act := rfl
@[simp] theorem setPh_status (s : State) (k : Fin 5) (v : F64) :
    (s.setPh k v).status = s.status := rfl
@[simp] theorem setPh_pos (s : State) (k : Fin 5) (v : F64) : (s.setPh k v).pos = s.pos := rfl
@[simp] theorem setPh_total (s : State) (k : Fin 5) (v : F64) : (s.setPh k v).total = s.total := rfl
@[simp] theorem setPh_draws (s : State) (k : Fin 5) (v : F64) : (s.setPh k v).draws = s.draws := rfl
@[simp] theorem setPh_ph (s : State) (k : Fin 5) (v : F64) :
    (s.setPh k v).ph = s.ph.set k.val v k.isLt := rfl
@[simp] theorem setPh_nz (s : State) (k : Fin 5) (v : F64) : (s.setPh k v).nz = s.nz := rfl
@[simp] theorem setPh_rv (s : State) (k : Fin 5) (v : F64) : (s.setPh k v).rv = s.rv := rfl
@[simp] theorem setPh_out (s : State) (k : Fin 5) (v : F64) : (s.setPh k v).out = s.out := rfl
@[simp] theorem setPh_port (s : State) (k : Fin 5) (v : F64) : (s.setPh k v).port = s.port := rfl
@[simp] theorem setPh_resp (s : State) (k : Fin 5) (v : F64) : (s.setPh k v).resp = s.resp := rfl
@[simp] theorem setPh_rndGiven (s : State) (k : Fin 5) (v : F64) :
    (s.setPh k v).rndGiven = s.rndGiven := rfl
@[simp] theorem setPh_delayCap (s : State) (k : Fin 5) (v : F64) :
    (s.setPh k v).delayCap = s.delayCap := rfl
@[simp] theorem setPh_sel (s : State) (k : Fin 5) (v : F64) : (s.setPh k v).sel = s.sel := rfl
@[simp] theorem setPh_opA (s : State) (k : Fin 5) (v : F64) : (s.setPh k v).opA = s.opA := rfl
@[simp] theorem setPh_opB (s : State) (k : Fin 5) (v : F64) : (s.setPh k v).opB = s.opB := rfl
@[simp] theorem setPh_opLast (s : State) (k : Fin 5) (v : F64) :
    (s.setPh k v).opLast = s.opLast := rfl
@[simp] theorem setPh_resA (s : State) (k : Fin 5) (v : F64) : (s.setPh k v).resA = s.resA := rfl
@[simp] theorem setPh_resB (s : State) (k : Fin 5) (v : F64) : (s.setPh k v).resB = s.resB := rfl

/-! ### setNet -/

@[simp] theorem setNet_pend (s : State) (c : Fin 2) (n : Network) :
    (s.setNet c n).pend = s.pend := rfl
@[simp] theorem setNet_act (s : State) (c : Fin 2) (n : Network) : (s.setNet c n).act = s.act := rfl
@[simp] theorem setNet_status (s : State) (c : Fin 2) (n : Network) :
    (s.setNet c n).status = s.status := rfl
@[simp] theorem setNet_pos (s : State) (c : Fin 2) (n : Network) : (s.setNet c n).pos = s.pos := rfl
@[simp] theorem setNet_total (s : State) (c : Fin 2) (n : Network) :
    (s.setNet c n).total = s.total := rfl
@[simp] theorem setNet_draws (s : State) (c : Fin 2) (n : Network) :
    (s.setNet c n).draws = s.draws := rfl
@[simp] theorem setNet_ph (s : State) (c : Fin 2) (n : Network) : (s.setNet c n).ph = s.ph := rfl
@[simp] theorem setNet_nz (s : State) (c : Fin 2) (n : Network) : (s.setNet c n).nz = s.nz := rfl
@[simp] theorem setNet_rv (s : State) (c : Fin 2) (n : Network) :
    (s.setNet c n).rv = s.rv.set c.val n c.isLt := rfl
@[simp] theorem setNet_out (s : State) (c : Fin 2) (n : Network) : (s.setNet c n).out = s.out := rfl
@[simp] theorem setNet_port (s : State) (c : Fin 2) (n : Network) :
    (s.setNet c n).port = s.port := rfl
@[simp] theorem setNet_resp (s : State) (c : Fin 2) (n : Network) :
    (s.setNet c n).resp = s.resp := rfl
@[simp] theorem setNet_rndGiven (s : State) (c : Fin 2) (n : Network) :
    (s.setNet c n).rndGiven = s.rndGiven := rfl
@[simp] theorem setNet_delayCap (s : State) (c : Fin 2) (n : Network) :
    (s.setNet c n).delayCap = s.delayCap := rfl
@[simp] theorem setNet_sel (s : State) (c : Fin 2) (n : Network) : (s.setNet c n).sel = s.sel := rfl
@[simp] theorem setNet_opA (s : State) (c : Fin 2) (n : Network) : (s.setNet c n).opA = s.opA := rfl
@[simp] theorem setNet_opB (s : State) (c : Fin 2) (n : Network) : (s.setNet c n).opB = s.opB := rfl
@[simp] theorem setNet_opLast (s : State) (c : Fin 2) (n : Network) :
    (s.setNet c n).opLast = s.opLast := rfl
@[simp] theorem setNet_resA (s : State) (c : Fin 2) (n : Network) :
    (s.setNet c n).resA = s.resA := rfl
@[simp] theorem setNet_resB (s : State) (c : Fin 2) (n : Network) :
    (s.setNet c n).resB = s.resB := rfl

/-! ### setRow -/

@[simp] theorem setRow_pend (s : State) (i : Fin 7) (v : F64) : (s.setRow i v).pend = s.pend := rfl
@[simp] theorem setRow_act (s : State) (i : Fin 7) (v : F64) : (s.setRow i v).act = s.act := rfl
@[simp] theorem setRow_status (s : State) (i : Fin 7) (v : F64) :
    (s.setRow i v).status = s.status := rfl
@[simp] theorem setRow_pos (s : State) (i : Fin 7) (v : F64) : (s.setRow i v).pos = s.pos := rfl
@[simp] theorem setRow_total (s : State) (i : Fin 7) (v : F64) :
    (s.setRow i v).total = s.total := rfl
@[simp] theorem setRow_draws (s : State) (i : Fin 7) (v : F64) :
    (s.setRow i v).draws = s.draws := rfl
@[simp] theorem setRow_ph (s : State) (i : Fin 7) (v : F64) : (s.setRow i v).ph = s.ph := rfl
@[simp] theorem setRow_nz (s : State) (i : Fin 7) (v : F64) :
    (s.setRow i v).nz = { s.nz with row := s.nz.row.set i.val v i.isLt } := rfl
@[simp] theorem setRow_rv (s : State) (i : Fin 7) (v : F64) : (s.setRow i v).rv = s.rv := rfl
@[simp] theorem setRow_out (s : State) (i : Fin 7) (v : F64) : (s.setRow i v).out = s.out := rfl
@[simp] theorem setRow_port (s : State) (i : Fin 7) (v : F64) : (s.setRow i v).port = s.port := rfl
@[simp] theorem setRow_resp (s : State) (i : Fin 7) (v : F64) : (s.setRow i v).resp = s.resp := rfl
@[simp] theorem setRow_rndGiven (s : State) (i : Fin 7) (v : F64) :
    (s.setRow i v).rndGiven = s.rndGiven := rfl
@[simp] theorem setRow_delayCap (s : State) (i : Fin 7) (v : F64) :
    (s.setRow i v).delayCap = s.delayCap := rfl
@[simp] theorem setRow_sel (s : State) (i : Fin 7) (v : F64) : (s.setRow i v).sel = s.sel := rfl
@[simp] theorem setRow_opA (s : State) (i : Fin 7) (v : F64) : (s.setRow i v).opA = s.opA := rfl
@[simp] theorem setRow_opB (s : State) (i : Fin 7) (v : F64) : (s.setRow i v).opB = s.opB := rfl
@[simp] theorem setRow_opLast (s : State) (i : Fin 7) (v : F64) :
    (s.setRow i v).opLast = s.opLast := rfl
@[simp] theorem setRow_resA (s : State) (i : Fin 7) (v : F64) : (s.setRow i v).resA = s.resA := rfl
@[simp] theorem setRow_resB (s : State) (i : Fin 7) (v : F64) : (s.setRow i v).resB = s.resB := rfl

/-! ### emit -/

@[simp] theorem emit_pend (l r : F64) (last : Bool) (s : State) :
    (emit l r last s).pend = s.pend := rfl
@[simp] theorem emit_act (l r : F64) (last : Bool) (s : State) :
    (emit l r last s).act = s.act := rfl
@[simp] theorem emit_status (l r : F64) (last : Bool) (s : State) :
    (emit l r last s).status = s.status := rfl
@[simp] theorem emit_pos (l r : F64) (last : Bool) (s : State) :
    (emit l r last s).pos = s.pos := rfl
@[simp] theorem emit_total (l r : F64) (last : Bool) (s : State) :
    (emit l r last s).total = s.total := rfl
@[simp] theorem emit_draws (l r : F64) (last : Bool) (s : State) :
    (emit l r last s).draws = s.draws := rfl
@[simp] theorem emit_ph (l r : F64) (last : Bool) (s : State) : (emit l r last s).ph = s.ph := rfl
@[simp] theorem emit_nz (l r : F64) (last : Bool) (s : State) : (emit l r last s).nz = s.nz := rfl
@[simp] theorem emit_rv (l r : F64) (last : Bool) (s : State) : (emit l r last s).rv = s.rv := rfl
@[simp] theorem emit_out (l r : F64) (last : Bool) (s : State) :
    (emit l r last s).out = s.out ++ [⟨l, r, last⟩] := rfl
@[simp] theorem emit_port (l r : F64) (last : Bool) (s : State) :
    (emit l r last s).port = s.port := rfl
@[simp] theorem emit_resp (l r : F64) (last : Bool) (s : State) :
    (emit l r last s).resp = s.resp := rfl
@[simp] theorem emit_rndGiven (l r : F64) (last : Bool) (s : State) :
    (emit l r last s).rndGiven = s.rndGiven := rfl
@[simp] theorem emit_delayCap (l r : F64) (last : Bool) (s : State) :
    (emit l r last s).delayCap = s.delayCap := rfl
@[simp] theorem emit_sel (l r : F64) (last : Bool) (s : State) :
    (emit l r last s).sel = s.sel := rfl
@[simp] theorem emit_opA (l r : F64) (last : Bool) (s : State) :
    (emit l r last s).opA = s.opA := rfl
@[simp] theorem emit_opB (l r : F64) (last : Bool) (s : State) :
    (emit l r last s).opB = s.opB := rfl
@[simp] theorem emit_opLast (l r : F64) (last : Bool) (s : State) :
    (emit l r last s).opLast = s.opLast := rfl
@[simp] theorem emit_resA (l r : F64) (last : Bool) (s : State) :
    (emit l r last s).resA = s.resA := rfl
@[simp] theorem emit_resB (l r : F64) (last : Bool) (s : State) :
    (emit l r last s).resB = s.resB := rfl

/-! ### respond -/

@[simp] theorem respond_pend (code : Resp) (data : U64) (s : State) :
    (respond code data s).pend = s.pend := rfl
@[simp] theorem respond_act (code : Resp) (data : U64) (s : State) :
    (respond code data s).act = s.act := rfl
@[simp] theorem respond_status (code : Resp) (data : U64) (s : State) :
    (respond code data s).status = s.status := rfl
@[simp] theorem respond_pos (code : Resp) (data : U64) (s : State) :
    (respond code data s).pos = s.pos := rfl
@[simp] theorem respond_total (code : Resp) (data : U64) (s : State) :
    (respond code data s).total = s.total := rfl
@[simp] theorem respond_draws (code : Resp) (data : U64) (s : State) :
    (respond code data s).draws = s.draws := rfl
@[simp] theorem respond_ph (code : Resp) (data : U64) (s : State) :
    (respond code data s).ph = s.ph := rfl
@[simp] theorem respond_nz (code : Resp) (data : U64) (s : State) :
    (respond code data s).nz = s.nz := rfl
@[simp] theorem respond_rv (code : Resp) (data : U64) (s : State) :
    (respond code data s).rv = s.rv := rfl
@[simp] theorem respond_out (code : Resp) (data : U64) (s : State) :
    (respond code data s).out = s.out := rfl
@[simp] theorem respond_port (code : Resp) (data : U64) (s : State) :
    (respond code data s).port = s.port := rfl
@[simp] theorem respond_resp (code : Resp) (data : U64) (s : State) :
    (respond code data s).resp = some ⟨code, data⟩ := rfl
@[simp] theorem respond_rndGiven (code : Resp) (data : U64) (s : State) :
    (respond code data s).rndGiven = s.rndGiven := rfl
@[simp] theorem respond_delayCap (code : Resp) (data : U64) (s : State) :
    (respond code data s).delayCap = s.delayCap := rfl
@[simp] theorem respond_sel (code : Resp) (data : U64) (s : State) :
    (respond code data s).sel = s.sel := rfl
@[simp] theorem respond_opA (code : Resp) (data : U64) (s : State) :
    (respond code data s).opA = s.opA := rfl
@[simp] theorem respond_opB (code : Resp) (data : U64) (s : State) :
    (respond code data s).opB = s.opB := rfl
@[simp] theorem respond_opLast (code : Resp) (data : U64) (s : State) :
    (respond code data s).opLast = s.opLast := rfl
@[simp] theorem respond_resA (code : Resp) (data : U64) (s : State) :
    (respond code data s).resA = s.resA := rfl
@[simp] theorem respond_resB (code : Resp) (data : U64) (s : State) :
    (respond code data s).resB = s.resB := rfl

/-! ### refuse -/

@[simp] theorem refuse_pend (code : Resp) (s : State) : (refuse code s).pend = s.pend := rfl
@[simp] theorem refuse_act (code : Resp) (s : State) : (refuse code s).act = s.act := rfl
@[simp] theorem refuse_status (code : Resp) (s : State) : (refuse code s).status = s.status := rfl
@[simp] theorem refuse_pos (code : Resp) (s : State) : (refuse code s).pos = s.pos := rfl
@[simp] theorem refuse_total (code : Resp) (s : State) : (refuse code s).total = s.total := rfl
@[simp] theorem refuse_draws (code : Resp) (s : State) : (refuse code s).draws = s.draws := rfl
@[simp] theorem refuse_ph (code : Resp) (s : State) : (refuse code s).ph = s.ph := rfl
@[simp] theorem refuse_nz (code : Resp) (s : State) : (refuse code s).nz = s.nz := rfl
@[simp] theorem refuse_rv (code : Resp) (s : State) : (refuse code s).rv = s.rv := rfl
@[simp] theorem refuse_out (code : Resp) (s : State) : (refuse code s).out = s.out := rfl
@[simp] theorem refuse_port (code : Resp) (s : State) : (refuse code s).port = s.port := rfl
@[simp] theorem refuse_resp (code : Resp) (s : State) : (refuse code s).resp = some ⟨code, 0⟩ := rfl
@[simp] theorem refuse_rndGiven (code : Resp) (s : State) :
    (refuse code s).rndGiven = s.rndGiven := rfl
@[simp] theorem refuse_delayCap (code : Resp) (s : State) :
    (refuse code s).delayCap = s.delayCap := rfl
@[simp] theorem refuse_sel (code : Resp) (s : State) : (refuse code s).sel = s.sel := rfl
@[simp] theorem refuse_opA (code : Resp) (s : State) : (refuse code s).opA = s.opA := rfl
@[simp] theorem refuse_opB (code : Resp) (s : State) : (refuse code s).opB = s.opB := rfl
@[simp] theorem refuse_opLast (code : Resp) (s : State) : (refuse code s).opLast = s.opLast := rfl
@[simp] theorem refuse_resA (code : Resp) (s : State) : (refuse code s).resA = s.resA := rfl
@[simp] theorem refuse_resB (code : Resp) (s : State) : (refuse code s).resB = s.resB := rfl

/-! ### raiseError -/

@[simp] theorem raiseError_pend (e : SessionError) (s : State) :
    (raiseError e s).pend = s.pend := rfl
@[simp] theorem raiseError_act (e : SessionError) (s : State) : (raiseError e s).act = s.act := rfl
@[simp] theorem raiseError_status (e : SessionError) (s : State) :
    (raiseError e s).status = { s.status with err := errorClass e, detail := errorDetail e, state := .failed } := rfl
@[simp] theorem raiseError_pos (e : SessionError) (s : State) : (raiseError e s).pos = s.pos := rfl
@[simp] theorem raiseError_total (e : SessionError) (s : State) :
    (raiseError e s).total = s.total := rfl
@[simp] theorem raiseError_draws (e : SessionError) (s : State) :
    (raiseError e s).draws = s.draws := rfl
@[simp] theorem raiseError_ph (e : SessionError) (s : State) : (raiseError e s).ph = s.ph := rfl
@[simp] theorem raiseError_nz (e : SessionError) (s : State) : (raiseError e s).nz = s.nz := rfl
@[simp] theorem raiseError_rv (e : SessionError) (s : State) : (raiseError e s).rv = s.rv := rfl
@[simp] theorem raiseError_out (e : SessionError) (s : State) : (raiseError e s).out = s.out := rfl
@[simp] theorem raiseError_port (e : SessionError) (s : State) :
    (raiseError e s).port = s.port := rfl
@[simp] theorem raiseError_resp (e : SessionError) (s : State) :
    (raiseError e s).resp = s.resp := rfl
@[simp] theorem raiseError_rndGiven (e : SessionError) (s : State) :
    (raiseError e s).rndGiven = s.rndGiven := rfl
@[simp] theorem raiseError_delayCap (e : SessionError) (s : State) :
    (raiseError e s).delayCap = s.delayCap := rfl
@[simp] theorem raiseError_sel (e : SessionError) (s : State) : (raiseError e s).sel = s.sel := rfl
@[simp] theorem raiseError_opA (e : SessionError) (s : State) : (raiseError e s).opA = s.opA := rfl
@[simp] theorem raiseError_opB (e : SessionError) (s : State) : (raiseError e s).opB = s.opB := rfl
@[simp] theorem raiseError_opLast (e : SessionError) (s : State) :
    (raiseError e s).opLast = s.opLast := rfl
@[simp] theorem raiseError_resA (e : SessionError) (s : State) :
    (raiseError e s).resA = s.resA := rfl
@[simp] theorem raiseError_resB (e : SessionError) (s : State) :
    (raiseError e s).resB = s.resB := rfl

/-! ### result -/

@[simp] theorem result_pend (v : F64) (s : State) : (result v s).pend = s.pend := rfl
@[simp] theorem result_act (v : F64) (s : State) : (result v s).act = s.act := rfl
@[simp] theorem result_status (v : F64) (s : State) : (result v s).status = s.status := rfl
@[simp] theorem result_pos (v : F64) (s : State) : (result v s).pos = s.pos := rfl
@[simp] theorem result_total (v : F64) (s : State) : (result v s).total = s.total := rfl
@[simp] theorem result_draws (v : F64) (s : State) : (result v s).draws = s.draws := rfl
@[simp] theorem result_ph (v : F64) (s : State) : (result v s).ph = s.ph := rfl
@[simp] theorem result_nz (v : F64) (s : State) : (result v s).nz = s.nz := rfl
@[simp] theorem result_rv (v : F64) (s : State) : (result v s).rv = s.rv := rfl
@[simp] theorem result_out (v : F64) (s : State) : (result v s).out = s.out := rfl
@[simp] theorem result_port (v : F64) (s : State) : (result v s).port = s.port := rfl
@[simp] theorem result_resp (v : F64) (s : State) : (result v s).resp = s.resp := rfl
@[simp] theorem result_rndGiven (v : F64) (s : State) : (result v s).rndGiven = s.rndGiven := rfl
@[simp] theorem result_delayCap (v : F64) (s : State) : (result v s).delayCap = s.delayCap := rfl
@[simp] theorem result_sel (v : F64) (s : State) : (result v s).sel = s.sel := rfl
@[simp] theorem result_opA (v : F64) (s : State) : (result v s).opA = s.opA := rfl
@[simp] theorem result_opB (v : F64) (s : State) : (result v s).opB = s.opB := rfl
@[simp] theorem result_opLast (v : F64) (s : State) : (result v s).opLast = s.opLast := rfl
@[simp] theorem result_resA (v : F64) (s : State) : (result v s).resA = v := rfl
@[simp] theorem result_resB (v : F64) (s : State) : (result v s).resB = s.resB := rfl

/-! ### result2 -/

@[simp] theorem result2_pend (v w : F64) (s : State) : (result2 v w s).pend = s.pend := rfl
@[simp] theorem result2_act (v w : F64) (s : State) : (result2 v w s).act = s.act := rfl
@[simp] theorem result2_status (v w : F64) (s : State) : (result2 v w s).status = s.status := rfl
@[simp] theorem result2_pos (v w : F64) (s : State) : (result2 v w s).pos = s.pos := rfl
@[simp] theorem result2_total (v w : F64) (s : State) : (result2 v w s).total = s.total := rfl
@[simp] theorem result2_draws (v w : F64) (s : State) : (result2 v w s).draws = s.draws := rfl
@[simp] theorem result2_ph (v w : F64) (s : State) : (result2 v w s).ph = s.ph := rfl
@[simp] theorem result2_nz (v w : F64) (s : State) : (result2 v w s).nz = s.nz := rfl
@[simp] theorem result2_rv (v w : F64) (s : State) : (result2 v w s).rv = s.rv := rfl
@[simp] theorem result2_out (v w : F64) (s : State) : (result2 v w s).out = s.out := rfl
@[simp] theorem result2_port (v w : F64) (s : State) : (result2 v w s).port = s.port := rfl
@[simp] theorem result2_resp (v w : F64) (s : State) : (result2 v w s).resp = s.resp := rfl
@[simp] theorem result2_rndGiven (v w : F64) (s : State) :
    (result2 v w s).rndGiven = s.rndGiven := rfl
@[simp] theorem result2_delayCap (v w : F64) (s : State) :
    (result2 v w s).delayCap = s.delayCap := rfl
@[simp] theorem result2_sel (v w : F64) (s : State) : (result2 v w s).sel = s.sel := rfl
@[simp] theorem result2_opA (v w : F64) (s : State) : (result2 v w s).opA = s.opA := rfl
@[simp] theorem result2_opB (v w : F64) (s : State) : (result2 v w s).opB = s.opB := rfl
@[simp] theorem result2_opLast (v w : F64) (s : State) : (result2 v w s).opLast = s.opLast := rfl
@[simp] theorem result2_resA (v w : F64) (s : State) : (result2 v w s).resA = v := rfl
@[simp] theorem result2_resB (v w : F64) (s : State) : (result2 v w s).resB = w := rfl

/-! ### popPort -/

@[simp] theorem popPort_pend (s : State) : (popPort s).pend = s.pend := rfl
@[simp] theorem popPort_act (s : State) : (popPort s).act = s.act := rfl
@[simp] theorem popPort_status (s : State) : (popPort s).status = s.status := rfl
@[simp] theorem popPort_pos (s : State) : (popPort s).pos = s.pos := rfl
@[simp] theorem popPort_total (s : State) : (popPort s).total = s.total := rfl
@[simp] theorem popPort_draws (s : State) : (popPort s).draws = s.draws := rfl
@[simp] theorem popPort_ph (s : State) : (popPort s).ph = s.ph := rfl
@[simp] theorem popPort_nz (s : State) : (popPort s).nz = s.nz := rfl
@[simp] theorem popPort_rv (s : State) : (popPort s).rv = s.rv := rfl
@[simp] theorem popPort_out (s : State) : (popPort s).out = s.out := rfl
@[simp] theorem popPort_port (s : State) : (popPort s).port = s.port.tail := rfl
@[simp] theorem popPort_resp (s : State) : (popPort s).resp = s.resp := rfl
@[simp] theorem popPort_rndGiven (s : State) : (popPort s).rndGiven = s.rndGiven := rfl
@[simp] theorem popPort_delayCap (s : State) : (popPort s).delayCap = s.delayCap := rfl
@[simp] theorem popPort_sel (s : State) : (popPort s).sel = s.sel := rfl
@[simp] theorem popPort_opA (s : State) : (popPort s).opA = s.opA := rfl
@[simp] theorem popPort_opB (s : State) : (popPort s).opB = s.opB := rfl
@[simp] theorem popPort_opLast (s : State) : (popPort s).opLast = s.opLast := rfl
@[simp] theorem popPort_resA (s : State) : (popPort s).resA = s.resA := rfl
@[simp] theorem popPort_resB (s : State) : (popPort s).resB = s.resB := rfl

/-! ### popSelect -/

@[simp] theorem popSelect_pend (s : State) : (popSelect s).pend = s.pend := rfl
@[simp] theorem popSelect_act (s : State) : (popSelect s).act = s.act := rfl
@[simp] theorem popSelect_status (s : State) : (popSelect s).status = s.status := rfl
@[simp] theorem popSelect_pos (s : State) : (popSelect s).pos = s.pos := rfl
@[simp] theorem popSelect_total (s : State) : (popSelect s).total = s.total := rfl
@[simp] theorem popSelect_draws (s : State) : (popSelect s).draws = s.draws := rfl
@[simp] theorem popSelect_ph (s : State) : (popSelect s).ph = s.ph := rfl
@[simp] theorem popSelect_nz (s : State) : (popSelect s).nz = s.nz := rfl
@[simp] theorem popSelect_rv (s : State) : (popSelect s).rv = s.rv := rfl
@[simp] theorem popSelect_out (s : State) : (popSelect s).out = s.out := rfl
@[simp] theorem popSelect_port (s : State) : (popSelect s).port = s.port := rfl
@[simp] theorem popSelect_resp (s : State) : (popSelect s).resp = s.resp := rfl
@[simp] theorem popSelect_rndGiven (s : State) : (popSelect s).rndGiven = s.rndGiven := rfl
@[simp] theorem popSelect_delayCap (s : State) : (popSelect s).delayCap = s.delayCap := rfl
@[simp] theorem popSelect_sel (s : State) : (popSelect s).sel = none := rfl
@[simp] theorem popSelect_opA (s : State) : (popSelect s).opA = s.opA := rfl
@[simp] theorem popSelect_opB (s : State) : (popSelect s).opB = s.opB := rfl
@[simp] theorem popSelect_opLast (s : State) : (popSelect s).opLast = s.opLast := rfl
@[simp] theorem popSelect_resA (s : State) : (popSelect s).resA = s.resA := rfl
@[simp] theorem popSelect_resB (s : State) : (popSelect s).resB = s.resB := rfl

/-! ### clearSession -/

@[simp] theorem clearSession_pend (s : State) : (clearSession s).pend = s.pend := rfl
@[simp] theorem clearSession_act (s : State) : (clearSession s).act = Active.zero := rfl
@[simp] theorem clearSession_status (s : State) : (clearSession s).status = Status.zero := rfl
@[simp] theorem clearSession_pos (s : State) : (clearSession s).pos = 0 := rfl
@[simp] theorem clearSession_total (s : State) : (clearSession s).total = 0 := rfl
@[simp] theorem clearSession_draws (s : State) : (clearSession s).draws = 0 := rfl
@[simp] theorem clearSession_ph (s : State) : (clearSession s).ph = #v[0, 0, 0, 0, 0] := rfl
@[simp] theorem clearSession_nz (s : State) : (clearSession s).nz = Noise.zero := rfl
@[simp] theorem clearSession_rv (s : State) : (clearSession s).rv = #v[Network.empty, Network.empty] := rfl
@[simp] theorem clearSession_out (s : State) : (clearSession s).out = s.out := rfl
@[simp] theorem clearSession_port (s : State) : (clearSession s).port = s.port := rfl
@[simp] theorem clearSession_resp (s : State) : (clearSession s).resp = s.resp := rfl
@[simp] theorem clearSession_rndGiven (s : State) : (clearSession s).rndGiven = s.rndGiven := rfl
@[simp] theorem clearSession_delayCap (s : State) : (clearSession s).delayCap = s.delayCap := rfl
@[simp] theorem clearSession_sel (s : State) : (clearSession s).sel = s.sel := rfl
@[simp] theorem clearSession_opA (s : State) : (clearSession s).opA = s.opA := rfl
@[simp] theorem clearSession_opB (s : State) : (clearSession s).opB = s.opB := rfl
@[simp] theorem clearSession_opLast (s : State) : (clearSession s).opLast = s.opLast := rfl
@[simp] theorem clearSession_resA (s : State) : (clearSession s).resA = s.resA := rfl
@[simp] theorem clearSession_resB (s : State) : (clearSession s).resB = s.resB := rfl

/-! ### resetInput -/

@[simp] theorem resetInput_pend (s : State) : (resetInput s).pend = State.reset.pend := rfl
@[simp] theorem resetInput_act (s : State) : (resetInput s).act = State.reset.act := rfl
@[simp] theorem resetInput_status (s : State) : (resetInput s).status = State.reset.status := rfl
@[simp] theorem resetInput_pos (s : State) : (resetInput s).pos = State.reset.pos := rfl
@[simp] theorem resetInput_total (s : State) : (resetInput s).total = State.reset.total := rfl
@[simp] theorem resetInput_draws (s : State) : (resetInput s).draws = State.reset.draws := rfl
@[simp] theorem resetInput_ph (s : State) : (resetInput s).ph = State.reset.ph := rfl
@[simp] theorem resetInput_nz (s : State) : (resetInput s).nz = State.reset.nz := rfl
@[simp] theorem resetInput_rv (s : State) : (resetInput s).rv = State.reset.rv := rfl
@[simp] theorem resetInput_out (s : State) : (resetInput s).out = State.reset.out := rfl
@[simp] theorem resetInput_port (s : State) : (resetInput s).port = s.port := rfl
@[simp] theorem resetInput_resp (s : State) : (resetInput s).resp = State.reset.resp := rfl
@[simp] theorem resetInput_rndGiven (s : State) : (resetInput s).rndGiven = s.rndGiven := rfl
@[simp] theorem resetInput_delayCap (s : State) : (resetInput s).delayCap = s.delayCap := rfl
@[simp] theorem resetInput_sel (s : State) : (resetInput s).sel = State.reset.sel := rfl
@[simp] theorem resetInput_opA (s : State) : (resetInput s).opA = State.reset.opA := rfl
@[simp] theorem resetInput_opB (s : State) : (resetInput s).opB = State.reset.opB := rfl
@[simp] theorem resetInput_opLast (s : State) : (resetInput s).opLast = State.reset.opLast := rfl
@[simp] theorem resetInput_resA (s : State) : (resetInput s).resA = State.reset.resA := rfl
@[simp] theorem resetInput_resB (s : State) : (resetInput s).resB = State.reset.resB := rfl

end Sys2Proof.Machine
end

