-- ==== Sys2Proof/Laws/Memory.lean ====
section
/-! SUPPORT. The laws of the delay memory: a read after a write, and that every operation keeps the
canonical form and the cursors in range (44_reverb_network.md R177). -/

namespace Sys2Proof.Machine

/-! ### One line -/

theorem lineWfFrom_weaken {len lo lo' : Nat} {l : DelayLine} (h : lo' ≤ lo)
    (hl : lineWfFrom len lo l = true) : lineWfFrom len lo' l = true := by
  cases l with
  | nil => rfl
  | cons c rest =>
    obtain ⟨a, w⟩ := c
    simp only [lineWfFrom, Bool.and_eq_true, decide_eq_true_eq] at hl ⊢
    exact ⟨⟨⟨by omega, hl.1.1.2⟩, hl.1.2⟩, hl.2⟩

/-- Below the lowest offset a line reads as the fill value. -/
theorem lineRead_below {len lo o : Nat} {l : DelayLine} (hl : lineWfFrom len lo l = true)
    (h : o < lo) : lineRead l o = delayFill := by
  induction l generalizing lo with
  | nil => rfl
  | cons c rest ih =>
    obtain ⟨a, w⟩ := c
    simp only [lineWfFrom, Bool.and_eq_true, decide_eq_true_eq] at hl
    rw [lineRead, if_neg (by omega)]
    exact ih hl.2 (by omega)

theorem lineInsert_wf {len lo o : Nat} {v : F64} {l : DelayLine}
    (hl : lineWfFrom len lo l = true) (h1 : lo ≤ o) (h2 : o < len) (hv : v ≠ delayFill) :
    lineWfFrom len lo (lineInsert l o v) = true := by
  induction l generalizing lo with
  | nil => simp [lineInsert, lineWfFrom, h1, h2, hv]
  | cons c rest ih =>
    obtain ⟨a, w⟩ := c
    have hl' := hl
    simp only [lineWfFrom, Bool.and_eq_true, decide_eq_true_eq] at hl
    unfold lineInsert
    split
    · subst_vars
      simp only [lineWfFrom, Bool.and_eq_true, decide_eq_true_eq]
      exact ⟨⟨⟨h1, h2⟩, by simp [hv]⟩, hl.2⟩
    · split
      · simp only [lineWfFrom, Bool.and_eq_true, decide_eq_true_eq]
        exact ⟨⟨⟨h1, h2⟩, by simp [hv]⟩, ⟨⟨by omega, hl.1.1.2⟩, hl.1.2⟩, hl.2⟩
      · simp only [lineWfFrom, Bool.and_eq_true, decide_eq_true_eq]
        exact ⟨hl.1, ih hl.2 (by omega)⟩

theorem lineErase_wf {len lo o : Nat} {l : DelayLine} (hl : lineWfFrom len lo l = true) :
    lineWfFrom len lo (lineErase l o) = true := by
  induction l generalizing lo with
  | nil => rfl
  | cons c rest ih =>
    obtain ⟨a, w⟩ := c
    have hl' := hl
    simp only [lineWfFrom, Bool.and_eq_true, decide_eq_true_eq] at hl
    unfold lineErase
    split
    · exact lineWfFrom_weaken (by omega) hl.2
    · simp only [lineWfFrom, Bool.and_eq_true, decide_eq_true_eq]
      exact ⟨hl.1, ih hl.2⟩

/-- A write to a word that exists keeps the canonical form. -/
theorem lineWrite_wf {len o : Nat} {v : F64} {l : DelayLine} (hl : lineWf len l = true)
    (h : o < len) : lineWf len (lineWrite l o v) = true := by
  unfold lineWrite lineWf at *
  split
  · exact lineErase_wf hl
  · exact lineInsert_wf hl (Nat.zero_le _) h (by assumption)

theorem lineRead_insert {l : DelayLine} {o : Nat} {v : F64} (p : Nat) :
    lineRead (lineInsert l o v) p = if p = o then v else lineRead l p := by
  induction l with
  | nil => simp only [lineInsert, lineRead]; split_ifs <;> first | rfl | omega
  | cons c rest ih =>
    obtain ⟨a, w⟩ := c
    unfold lineInsert
    split
    · subst_vars; simp only [lineRead]; split_ifs <;> first | rfl | omega
    · split
      · simp only [lineRead]; split_ifs <;> first | rfl | omega
      · simp only [lineRead, ih]; split_ifs <;> first | rfl | omega

theorem lineRead_erase {len lo : Nat} {l : DelayLine} (hl : lineWfFrom len lo l = true)
    {o : Nat} (p : Nat) :
    lineRead (lineErase l o) p = if p = o then delayFill else lineRead l p := by
  induction l generalizing lo with
  | nil => simp [lineErase, lineRead]
  | cons c rest ih =>
    obtain ⟨a, w⟩ := c
    simp only [lineWfFrom, Bool.and_eq_true, decide_eq_true_eq] at hl
    unfold lineErase
    split
    · subst_vars
      simp only [lineRead]
      split
      · subst_vars; exact lineRead_below hl.2 (by omega)
      · rw [if_neg (by omega)]
    · simp only [lineRead, ih hl.2]; split_ifs <;> first | rfl | omega

/-- A read after a write: the value written at that offset, the word as before elsewhere. -/
theorem lineRead_write {len : Nat} {l : DelayLine} (hl : lineWf len l = true) {o : Nat} {v : F64}
    (p : Nat) : lineRead (lineWrite l o v) p = if p = o then v else lineRead l p := by
  unfold lineWrite
  split
  · subst_vars; exact lineRead_erase hl p
  · exact lineRead_insert p

theorem lineRead_erase_off {l : DelayLine} {o p : Nat} (h : p ≠ o) :
    lineRead (lineErase l o) p = lineRead l p := by
  induction l with
  | nil => rfl
  | cons c l ih =>
    obtain ⟨a, w⟩ := c
    unfold lineErase
    split
    · rename_i e
      subst e
      rw [lineRead, if_neg (fun e => h e.symm)]
    · simp only [lineRead, ih]

/-- A write leaves every other word as it was, on any line. -/
theorem lineRead_write_off {l : DelayLine} {o p : Nat} (v : F64) (h : p ≠ o) :
    lineRead (lineWrite l o v) p = lineRead l p := by
  unfold lineWrite
  split
  · exact lineRead_erase_off h
  · rw [lineRead_insert, if_neg h]

/-! ### One network -/

theorem nextCursor_lt {i len : U64} (h : 0 < len.toNat) :
    (nextCursor i len).toNat < len.toNat := by
  have h1 := Nat.mod_lt (i.toNat + 1) h
  have h2 := len.isLt
  simp only [nextCursor, BitVec.toNat_ofNat]
  rw [Nat.mod_eq_of_lt (by omega)]; exact h1

/-- Every line of the network is canonical. -/
abbrev Network.wf (n : Network) : Prop := ∀ j : Fin 5, lineWf (n.len[j]).toNat n.line[j] = true

/-- Every cursor is below its line's length, so that every line is allocated. -/
abbrev Network.ready (n : Network) : Prop := ∀ j : Fin 5, (n.idx[j]).toNat < (n.len[j]).toNat

/-- All that one access does to a network it does not fault on: it gives the word at the cursor,
writes the new word there and advances that cursor. -/
theorem access_spec {n : Network} {j : Fin 5} {w : F64 → F64}
    (h : (n.idx[j]).toNat < (n.len[j]).toNat) :
    n.access j w = .ok (lineRead n.line[j] (n.idx[j]).toNat,
      { len := n.len
        idx := n.idx.set j.val (nextCursor n.idx[j] n.len[j]) j.isLt
        line := n.line.set j.val
          (lineWrite n.line[j] (n.idx[j]).toNat (w (lineRead n.line[j] (n.idx[j]).toNat)))
          j.isLt }) := by
  simp only [Network.access, Network.readWord, Network.wordExists, h, decide_true, if_true]
  rfl

/-- An access faults exactly where the cursor is not below the length. -/
theorem access_error {n : Network} {j : Fin 5} {w : F64 → F64}
    (h : ¬ (n.idx[j]).toNat < (n.len[j]).toNat) : n.access j w = .error .delayWordAbsent := by
  simp only [Network.access, Network.readWord, Network.wordExists, h, decide_false]
  rfl

theorem access_keeps {n n' : Network} {j : Fin 5} {w : F64 → F64} {r : F64}
    (h : n.access j w = .ok (r, n')) :
    n'.len = n.len ∧ (n.wf → n'.wf) ∧ (n.ready → n'.ready) ∧
    (∀ k : Fin 5, (n'.idx[k]).toNat < (n'.len[k]).toNat ∨ n'.idx[k] = n.idx[k]) := by
  by_cases hc : (n.idx[j]).toNat < (n.len[j]).toNat
  · rw [access_spec hc] at h
    obtain ⟨-, rfl⟩ : _ ∧ _ := by simpa using h
    refine ⟨rfl, fun hw k => ?_, fun hr k => ?_, fun k => ?_⟩
    · by_cases hk : k = j
      · subst hk; simpa using lineWrite_wf (hw k) hc
      · have hk' : j.val ≠ k.val := fun he => hk (Fin.ext he.symm)
        simpa [Vector.getElem_set_ne, hk'] using hw k
    · by_cases hk : k = j
      · subst hk; simpa using nextCursor_lt (i := n.idx[k]) (Nat.lt_of_le_of_lt (Nat.zero_le _) hc)
      · have hk' : j.val ≠ k.val := fun he => hk (Fin.ext he.symm)
        simpa [Vector.getElem_set_ne, hk'] using hr k
    · by_cases hk : k = j
      · subst hk; left; simpa using nextCursor_lt (i := n.idx[k]) (Nat.lt_of_le_of_lt (Nat.zero_le _) hc)
      · have hk' : j.val ≠ k.val := fun he => hk (Fin.ext he.symm)
        right; simp [Vector.getElem_set_ne, hk']
  · rw [access_error hc] at h; cases h

end Sys2Proof.Machine
end

