-- ==== Sys2Proof/Laws/Units.lean ====
section
/-! SUPPORT. What each shared operation of the unit operations can do, said once: which fields it writes,
as one equation `s' = { s with … }`, and what it keeps of the reverb networks. -/

namespace Sys2Proof.Machine

/-! ### Draws and noise -/

theorem draw_frame (s : State) : (draw s).2 = { s with draws := s.draws + 1 } := rfl

theorem draw_value (s : State) : (draw s).1 = drawValue s := rfl

/-- A draw within the given part of the stream is the given value. -/
theorem drawValue_given {s : State} {v : F64} (h : s.rndGiven[s.draws.toNat]? = some v) :
    drawValue s = v := by simp [drawValue, streamValue, h]

/-- A draw past the given part of the stream is `RND(DRAWS)`. -/
theorem drawValue_free {s : State} (h : s.rndGiven.length ≤ s.draws.toNat) :
    drawValue s = RND s.draws.toNat := by simp [drawValue, streamValue, h]

/-- The value drawn depends on the stream and on DRAWS only. -/
theorem drawValue_congr {s t : State} (hr : s.rndGiven = t.rndGiven) (hd : s.draws = t.draws) :
    drawValue s = drawValue t := by simp only [drawValue, streamValue, hr, hd]

/-- A row that is due takes the next draw; a row that is not leaves the stream alone. -/
theorem pinkRow_values (n : U64) (s : State) (i : Fin 7) :
    (pinkRow n s i).rndGiven = s.rndGiven ∧
    (pinkRow n s i).draws = (if rowDue n i then s.draws + 1 else s.draws) ∧
    (pinkRow n s i).nz.row =
      (if rowDue n i then s.nz.row.set i.val (drawValue s) i.isLt else s.nz.row) := by
  unfold pinkRow
  split
  · exact ⟨rfl, rfl, rfl⟩
  · exact ⟨rfl, rfl, rfl⟩

/-- One row's refresh writes that row and the draw counter. -/
theorem pinkRow_frame (n : U64) (s : State) (i : Fin 7) :
    ∃ row d, pinkRow n s i = { s with nz.row := row, draws := d } := by
  unfold pinkRow
  split
  · exact ⟨_, _, rfl⟩
  · exact ⟨s.nz.row, s.draws, rfl⟩

theorem pinkFold_frame (n : U64) (l : List (Fin 7)) (s : State) :
    ∃ row d, l.foldl (pinkRow n) s = { s with nz.row := row, draws := d } := by
  induction l generalizing s with
  | nil => exact ⟨s.nz.row, s.draws, rfl⟩
  | cons i l ih =>
    obtain ⟨r, d, h⟩ := pinkRow_frame n s i
    obtain ⟨r', d', h'⟩ := ih (pinkRow n s i)
    rw [h] at h'
    exact ⟨r', d', by rw [List.foldl_cons, h]; exact h'⟩

theorem pinkRows_frame (n : U64) (s : State) :
    ∃ row d, pinkRows n s = { s with nz.row := row, draws := d } :=
  pinkFold_frame n _ s

/-- Every generator writes noise registers and the draw counter. -/
theorem nzPink_frame (s : State) :
    ∃ row d, (nzPink s).2 =
      { s with nz.row := row, nz.cnt := pinkCount s.nz.cnt, draws := d } := by
  obtain ⟨r, d, h⟩ := pinkRows_frame s.nz.cnt s
  exact ⟨r, d, by simp only [nzPink]; rw [h]⟩

theorem nzBrown_frame (s : State) :
    ∃ b, (nzBrown s).2 = { s with nz.brown := b, draws := s.draws + 1 } :=
  ⟨_, rfl⟩

theorem pinkCount_lt (n : U64) : (pinkCount n).toNat < 2 ^ 32 := by
  unfold pinkCount
  rw [BitVec.toNat_ofNat]
  have := Nat.mod_lt (n.toNat + 1) (show 0 < 2 ^ 32 by decide)
  omega

/-- The generator of the active type. -/
theorem nzGenerate_frame (s : State) :
    ∃ nz d, (nzGenerate s).2 = { s with nz := nz, draws := d } ∧
      nz.lpf = s.nz.lpf ∧ nz.lfoRate = s.nz.lfoRate ∧
      (s.nz.cnt.toNat < 2 ^ 32 → nz.cnt.toNat < 2 ^ 32) := by
  unfold nzGenerate
  split
  · exact ⟨s.nz, _, rfl, rfl, rfl, id⟩
  · split
    · obtain ⟨r, d, h⟩ := nzPink_frame s
      exact ⟨_, d, h, rfl, rfl, fun _ => pinkCount_lt _⟩
    · obtain ⟨b, h⟩ := nzBrown_frame s
      exact ⟨_, _, h, rfl, rfl, id⟩

/-- NZ.PROC writes noise registers, the LFO phase and the draw counter. -/
theorem nzProc_frame (s : State) :
    ∃ nz ph d, (nzProc s).2 = { s with nz := nz, ph := ph, draws := d } ∧
      (∀ k : Fin 5, k ≠ 4 → ph[k] = s.ph[k]) ∧
      (s.nz.cnt.toNat < 2 ^ 32 → nz.cnt.toNat < 2 ^ 32) := by
  obtain ⟨nz, d, h, -, -, hc⟩ := nzGenerate_frame s
  simp only [nzProc, nzLpf, nzLfo, paAdv, h]
  refine ⟨_, _, _, rfl, fun k hk => ?_, hc⟩
  have : (4 : Nat) ≠ k.val := fun e => hk (Fin.ext e.symm)
  simp [Vector.getElem_set_ne, this]

theorem sampleNoise_frame (s : State) :
    ∃ nz ph d, (sampleNoise s).2 = { s with nz := nz, ph := ph, draws := d } ∧
      (∀ k : Fin 5, k ≠ 4 → ph[k] = s.ph[k]) ∧
      (s.nz.cnt.toNat < 2 ^ 32 → nz.cnt.toNat < 2 ^ 32) := by
  unfold sampleNoise
  split
  · exact nzProc_frame s
  · exact ⟨s.nz, s.ph, s.draws, rfl, fun _ _ => rfl, id⟩

/-! ### Phase accumulators -/

theorem paAdv_frame (k : Fin 5) (inc : F64) (s : State) :
    paAdv k inc s = { s with ph := s.ph.set k.val (wrapAdvance s.ph[k] inc) k.isLt } := rfl

theorem sampleAdvance_frame (s : State) :
    ∃ ph, sampleAdvance s = { s with ph := ph } := by
  unfold sampleAdvance
  split
  · exact ⟨_, rfl⟩
  · exact ⟨_, rfl⟩

/-! ### Reverb -/

/-- What an operation of a network keeps: the lengths, the canonical form, cursors in range, and a
cursor it moves is in range. -/
structure NetKept (n n' : Network) : Prop where
  len : n'.len = n.len
  wf : n.wf → n'.wf
  ready : n.ready → n'.ready
  cursors : ∀ k : Fin 5, (n'.idx[k]).toNat < (n'.len[k]).toNat ∨ n'.idx[k] = n.idx[k]

theorem NetKept.trans {a b c : Network} (h1 : NetKept a b) (h2 : NetKept b c) : NetKept a c where
  len := h2.len.trans h1.len
  wf := h2.wf ∘ h1.wf
  ready := h2.ready ∘ h1.ready
  cursors k := by
    rcases h2.cursors k with h | h
    · exact Or.inl h
    · rcases h1.cursors k with h' | h'
      · left; rw [h, h2.len]; exact h'
      · right; rw [h, h']

theorem NetKept.cursorOk {n n' : Network} (h : NetKept n n') (j : Fin 5) (hc : n.cursorOk j) :
    n'.cursorOk j := by
  rcases h.cursors j with h' | h'
  · exact Or.inl h'
  · rcases hc with hc | hc
    · left; rw [h', h.len]; exact hc
    · right; rw [h', h.len]; exact hc

theorem access_kept {n n' : Network} {j : Fin 5} {w : F64 → F64} {r : F64}
    (h : n.access j w = .ok (r, n')) : NetKept n n' :=
  have k := access_keeps h
  ⟨k.1, k.2.1, k.2.2.1, k.2.2.2⟩

theorem access_ready {n : Network} (h : n.ready) (j : Fin 5) (w : F64 → F64) :
    ∃ r n', n.access j w = .ok (r, n') := ⟨_, _, access_spec (h j)⟩

theorem netAp_kept {n n' : Network} {x v : F64} (h : netAp x n = .ok (v, n')) : NetKept n n' := by
  unfold netAp at h
  split at h
  · cases h
  · rename_i d m hm
    cases h
    exact access_kept hm

theorem netAp_ready {n : Network} (h : n.ready) (x : F64) : ∃ v n', netAp x n = .ok (v, n') := by
  obtain ⟨r, n', hr⟩ := access_ready h 4 (fun d => fadd x (fmul gAp (apOut x d)))
  exact ⟨apOut x r, n', by unfold netAp; rw [hr]⟩

theorem netComb_kept {n n' : Network} {j : Fin 4} {x v : F64} (h : netComb j x n = .ok (v, n')) :
    NetKept n n' := access_kept h

theorem netComb_ready {n : Network} (h : n.ready) (j : Fin 4) (x : F64) :
    ∃ v n', netComb j x n = .ok (v, n') := access_ready h _ _

/-- RV.PROC taken apart: its four combs and its all-pass, in order. -/
theorem netProc_cases {n n' : Network} {x v : F64} (h : netProc x n = .ok (v, n')) :
    ∃ r0 r1 r2 r3 n0 n1 n2 n3, netComb 0 x n = .ok (r0, n0) ∧ netComb 1 x n0 = .ok (r1, n1) ∧
      netComb 2 x n1 = .ok (r2, n2) ∧ netComb 3 x n2 = .ok (r3, n3) ∧
      netAp (fmul (fadd (fadd (fadd r0 r1) r2) r3) kCombSum) n3 = .ok (v, n') := by
  unfold netProc at h
  split at h
  · cases h
  rename_i r0 n0 h0
  split at h
  · cases h
  rename_i r1 n1 h1
  split at h
  · cases h
  rename_i r2 n2 h2
  split at h
  · cases h
  rename_i r3 n3 h3
  exact ⟨r0, r1, r2, r3, n0, n1, n2, n3, h0, h1, h2, h3, h⟩

theorem netProc_kept {n n' : Network} {x v : F64} (h : netProc x n = .ok (v, n')) :
    NetKept n n' := by
  obtain ⟨_, _, _, _, _, _, _, _, h0, h1, h2, h3, h4⟩ := netProc_cases h
  exact (netComb_kept h0).trans ((netComb_kept h1).trans ((netComb_kept h2).trans
    ((netComb_kept h3).trans (netAp_kept h4))))

theorem netProc_ready {n : Network} (h : n.ready) (x : F64) : ∃ v n', netProc x n = .ok (v, n') := by
  obtain ⟨r0, n0, h0⟩ := netComb_ready h 0 x
  have k0 := (netComb_kept h0).ready h
  obtain ⟨r1, n1, h1⟩ := netComb_ready k0 1 x
  have k1 := (netComb_kept h1).ready k0
  obtain ⟨r2, n2, h2⟩ := netComb_ready k1 2 x
  have k2 := (netComb_kept h2).ready k1
  obtain ⟨r3, n3, h3⟩ := netComb_ready k2 3 x
  have k3 := (netComb_kept h3).ready k2
  obtain ⟨v, n', h4⟩ := netAp_ready k3 (fmul (fadd (fadd (fadd r0 r1) r2) r3) kCombSum)
  exact ⟨v, n', by simp only [netProc, h0, h1, h2, h3, h4]⟩

/-- What is kept of both networks. -/
def RvKept (rv rv' : Vector Network 2) : Prop := ∀ c : Fin 2, NetKept rv[c] rv'[c]

theorem NetKept.refl (n : Network) : NetKept n n := ⟨rfl, id, id, fun _ => Or.inr rfl⟩

theorem RvKept.refl (rv : Vector Network 2) : RvKept rv rv := fun _ => NetKept.refl _

theorem RvKept.trans {a b c : Vector Network 2} (h1 : RvKept a b) (h2 : RvKept b c) :
    RvKept a c := fun i => (h1 i).trans (h2 i)

theorem RvKept.set {rv : Vector Network 2} {c : Fin 2} {n : Network} (h : NetKept rv[c] n) :
    RvKept rv (rv.set c.val n c.isLt) := by
  intro d
  by_cases hd : d = c
  · subst hd; simpa using h
  · have hd' : c.val ≠ d.val := fun e => hd (Fin.ext e.symm)
    have : (rv.set c.val n c.isLt)[d] = rv[d] := by simp [Vector.getElem_set_ne, hd']
    rw [this]; exact NetKept.refl _

theorem rvProc_frame {c : Fin 2} {x v : F64} {s s' : State} (h : rvProc c x s = .ok (v, s')) :
    ∃ rv, s' = { s with rv := rv } ∧ RvKept s.rv rv := by
  unfold rvProc at h
  split at h
  · cases h
  · rename_i n hn
    cases h
    exact ⟨_, rfl, RvKept.set (netProc_kept hn)⟩

theorem sampleWet_frame {dry wet : Pair} {s s' : State} (h : sampleWet dry s = .ok (wet, s')) :
    ∃ rv, s' = { s with rv := rv } ∧ RvKept s.rv rv := by
  unfold sampleWet at h
  split at h
  · split at h
    · cases h
    rename_i wl s1 h1
    split at h
    · cases h
    rename_i wr s2 h2
    cases h
    obtain ⟨rv1, rfl, k1⟩ := rvProc_frame h1
    obtain ⟨rv2, rfl, k2⟩ := rvProc_frame h2
    exact ⟨rv2, rfl, k1.trans k2⟩
  · cases h
    exact ⟨s.rv, rfl, RvKept.refl _⟩

theorem sampleWet_answers {dry : Pair} {s : State}
    (h : s.status.capReverb = true → s.reverbReady) :
    ∃ wet s', sampleWet dry s = .ok (wet, s') := by
  unfold sampleWet
  by_cases hc : s.status.capReverb = true
  · rw [if_pos hc]
    have hr := h hc
    obtain ⟨wl, n0, h0⟩ := netProc_ready (hr 0) dry.left
    have e0 : rvProc 0 dry.left s = .ok (wl, s.setNet 0 n0) := by simp only [rvProc, h0]
    have hn : (s.setNet 0 n0).rv[(1 : Fin 2)] = s.rv[(1 : Fin 2)] := by
      simp [State.setNet, Vector.getElem_set_ne]
    have hr1 : (s.setNet 0 n0).rv[(1 : Fin 2)].ready := by rw [hn]; exact hr 1
    obtain ⟨wr, n1, h1⟩ := netProc_ready hr1 dry.right
    have e1 : rvProc 1 dry.right (s.setNet 0 n0) = .ok (wr, (s.setNet 0 n0).setNet 1 n1) := by
      simp only [rvProc, h1]
    exact ⟨⟨wl, wr⟩, (s.setNet 0 n0).setNet 1 n1, by simp only [e0, e1]⟩
  · rw [if_neg hc]; exact ⟨_, _, rfl⟩

/-! ### SAMPLE -/

/-- The state after steps 1 to 3: phases, noise registers and draw counter only. -/
theorem afterDry_frame (s : State) :
    ∃ nz ph d, afterDry s = { s with nz := nz, ph := ph, draws := d } ∧
      (s.nz.cnt.toNat < 2 ^ 32 → nz.cnt.toNat < 2 ^ 32) := by
  unfold afterDry
  obtain ⟨p, hp⟩ := sampleAdvance_frame s
  obtain ⟨nz, ph, d, h, -, hc⟩ := sampleNoise_frame (sampleAdvance s)
  rw [hp] at h hc
  exact ⟨nz, ph, d, by rw [hp, h], hc⟩

/-- All that SAMPLE can do: it emits one finite pair and counts it, or it raises RuntimeError; either
way the units have advanced, and nothing else has changed. -/
theorem sampleRun_frame {last : Bool} {s s' : State} {e : SampleEnd}
    (h : sampleRun last s = .ok (e, s')) :
    ∃ nz ph d rv, RvKept s.rv rv ∧ (s.nz.cnt.toNat < 2 ^ 32 → nz.cnt.toNat < 2 ^ 32) ∧
      ((e = .emitted ∧ ∃ l r, fisFinite l = true ∧ fisFinite r = true ∧
          s' = { s with nz := nz, ph := ph, draws := d, rv := rv,
                        out := s.out ++ [⟨l, r, last⟩], pos := s.pos + 1 }) ∨
       (e = .raised ∧
          s' = raiseError .nonfiniteOutput
            { s with nz := nz, ph := ph, draws := d, rv := rv })) := by
  unfold sampleRun at h
  split at h
  · cases h
  rename_i wet s1 h1
  obtain ⟨nz, ph, d, hd, hc⟩ := afterDry_frame s
  obtain ⟨rv, rfl, hk⟩ := sampleWet_frame h1
  rw [hd] at h hk
  refine ⟨nz, ph, d, rv, hk, hc, ?_⟩
  unfold sampleFinish at h
  split at h
  · rename_i hf
    simp only [Bool.and_eq_true] at hf
    cases h
    exact Or.inl ⟨rfl, _, _, hf.1, hf.2, rfl⟩
  · cases h
    exact Or.inr ⟨rfl, rfl⟩

theorem sampleRun_answers {s : State} (last : Bool)
    (h : s.status.capReverb = true → s.reverbReady) :
    ∃ e s', sampleRun last s = .ok (e, s') := by
  obtain ⟨nz, ph, d, hd, -⟩ := afterDry_frame s
  have h' : (afterDry s).status.capReverb = true → (afterDry s).reverbReady := by rw [hd]; exact h
  obtain ⟨wet, s1, hw⟩ := @sampleWet_answers (dryOf s) (afterDry s) h'
  exact ⟨_, _, by unfold sampleRun; rw [hw]⟩

end Sys2Proof.Machine
end

