-- ==== Sys2Proof/Laws/Commands.lean ====
section
/-! SUPPORT. What each part of a host command can do, said once: the preparation of the units, the
parameter latches, the loop of RENDER, and what a step takes from the ports. -/

namespace Sys2Proof.Machine

/-! ### RV.PREP and the preparation of the units -/

theorem rvLength_pos (t fs : F64) : 0 < (rvLength t fs).toNat := by
  unfold rvLength
  split
  · decide
  · rename_i h
    exact Nat.pos_of_ne_zero fun h0 => h (BitVec.eq_of_toNat_eq (by simpa using h0))

/-- The five lengths that RV.PREP sets at a sample rate. -/
def prepLengths (fs : F64) : Vector U64 5 :=
  #v[rvLength delayTimes[0] fs, rvLength delayTimes[1] fs, rvLength delayTimes[2] fs,
    rvLength delayTimes[3] fs, rvLength delayTimes[4] fs]

/-- All that RV.PREP does to a network, whatever it held. -/
theorem netPrep_eq (fs : F64) (n : Network) :
    netPrep fs n = ⟨prepLengths fs, #v[0, 0, 0, 0, 0], #v[[], [], [], [], []]⟩ := by
  obtain ⟨len, idx, line⟩ := n
  simp only [netPrep, List.foldl, Network.allocate, prepLengths, Network.mk.injEq]
  refine ⟨?_, ?_, ?_⟩ <;>
  · apply Vector.ext
    intro i hi
    interval_cases i <;> simp

theorem netPrep_ready (fs : F64) (n : Network) : (netPrep fs n).ready := by
  intro j
  rw [netPrep_eq]
  fin_cases j <;> exact rvLength_pos _ _

theorem netPrep_wf (fs : F64) (n : Network) : (netPrep fs n).wf := by
  intro j
  rw [netPrep_eq]
  fin_cases j <;> rfl

theorem prepareUnits_batch {s : State} (hn : s.status.capNoise = true)
    (hr : s.status.capReverb = true) :
    prepareUnits s =
      { s with
        ph := s.ph.set 4 fZero
        nz := { Noise.zero with lfoRate := lfoRateFor s.act.pulse[0] }
        rv := #v[netPrep s.act.fs s.rv[0], netPrep s.act.fs s.rv[1]] } := by
  simp only [prepareUnits, hn, hr, if_true]
  simp only [rvPrep, nzPrep, setPh_status]
  simp only [State.setNet, State.setPh]
  congr 1
  apply Vector.ext
  intro i hi
  interval_cases i <;> simp

theorem prepareUnits_stream {s : State} (hn : s.status.capNoise = false)
    (hr : s.status.capReverb = false) : prepareUnits s = s := by
  simp [prepareUnits, hn, hr]

/-! ### The parameter latch of PREPARE -/

/-- The snapshot of a BATCH session. -/
theorem latch_batch {s : State} (h : s.pend.mode = 0) :
    latchMode (latchScalars s) = { s with
      act := { s.act with
        mode := s.pend.mode, fs := s.pend.sampleRate, soft := s.pend.softness
        nlevel := s.pend.noiseLevel, gainDb := s.pend.gainDb
        gainLin := linearGain s.pend.gainDb, ent := s.pend.entType, ntype := s.pend.noiseType }
      status := batchFlags (decide (s.pend.pulseCnt = 5)) s.status
      total := f64FloorToU64 (fmul s.pend.duration s.pend.sampleRate) } := if_pos h

/-- The snapshot of a STREAM session. -/
theorem latch_stream {s : State} (h : s.pend.mode ≠ 0) :
    latchMode (latchScalars s) = { s with
      act := { s.act with
        mode := s.pend.mode, fs := s.pend.sampleRate, soft := s.pend.softness
        nlevel := s.pend.noiseLevel, gainDb := s.pend.gainDb
        gainLin := linearGain s.pend.gainDb, ent := 0, ntype := 0xFFFFFFFFFFFFFFFF }
      status := streamFlags s.status
      total := 0 } := if_neg h

/-! ### The loop of RENDER -/

theorem snapshot_frame (s : State) :
    snapshot s = { s with
      act.pulse := s.act.pulse.set 0 s.pend.pulse[0]
      act.carrier := s.act.carrier.set 0 s.pend.carrier[0]
      act.soft := s.pend.softness
      act.gainDb := s.pend.gainDb
      act.gainLin := linearGain s.pend.gainDb } := rfl

/-- What the samples of a RENDER have done so far: finite pairs appended to OUT and counted, the units
advanced, the lines of the reverb kept, nothing else. -/
structure Rendered (s s' : State) (pairs : List OutPair) : Prop where
  frame : ∃ nz ph d rv, s' = { s with
    nz := nz, ph := ph, draws := d, rv := rv, out := s.out ++ pairs,
    pos := s.pos + BitVec.ofNat 64 pairs.length }
  finite : ∀ p ∈ pairs, fisFinite p.left = true ∧ fisFinite p.right = true
  lines : RvKept s.rv s'.rv
  count : s.nz.cnt.toNat < 2 ^ 32 → s'.nz.cnt.toNat < 2 ^ 32

theorem Rendered.refl (s : State) : Rendered s s [] where
  frame := ⟨s.nz, s.ph, s.draws, s.rv, by simp⟩
  finite := by simp
  lines := RvKept.refl _
  count := id

theorem Rendered.trans {a b c : State} {p q : List OutPair} (h1 : Rendered a b p)
    (h2 : Rendered b c q) : Rendered a c (p ++ q) := by
  obtain ⟨⟨nz, ph, d, rv, rfl⟩, f1, l1, c1⟩ := h1
  obtain ⟨⟨nz', ph', d', rv', rfl⟩, f2, l2, c2⟩ := h2
  refine ⟨⟨nz', ph', d', rv', ?_⟩, ?_, l1.trans l2, c2 ∘ c1⟩
  · simp [BitVec.ofNat_add, BitVec.add_assoc, List.append_assoc]
  · intro r hr
    rcases List.mem_append.1 hr with h | h
    · exact f1 r h
    · exact f2 r h

/-- All that SAMPLE can do, in the terms of the loop: it emits one pair, or it raises after the units
have advanced. -/
theorem sampleRun_cases {last : Bool} {s s' : State} {e : SampleEnd}
    (h : sampleRun last s = .ok (e, s')) :
    (e = .emitted ∧ ∃ l r, Rendered s s' [⟨l, r, last⟩]) ∨
    (e = .raised ∧ ∃ m, Rendered s m [] ∧ s' = raiseError .nonfiniteOutput m) := by
  obtain ⟨nz, ph, d, rv, hk, hc, h⟩ := sampleRun_frame h
  rcases h with ⟨he, l, r, hl, hr, rfl⟩ | ⟨he, rfl⟩
  · left
    refine ⟨he, l, r, ⟨nz, ph, d, rv, rfl⟩, ?_, hk, hc⟩
    simp [hl, hr]
  · right
    exact ⟨he, _, ⟨⟨nz, ph, d, rv, by simp⟩, by simp, hk, hc⟩, rfl⟩

/-- All that the loop of RENDER can do: it emits `pairs`, then either stops because enough were asked
for or the batch is at its end, or raises. -/
theorem renderLoop_cases {k cnt cnt' : Nat} {s s' : State} {e : SampleEnd}
    (h : renderLoop k cnt s = .ok (e, cnt', s')) :
    ∃ pairs, pairs.length ≤ k ∧ cnt' = cnt + pairs.length ∧
      ((e = .emitted ∧ Rendered s s' pairs ∧ (pairs.length = k ∨ moreSamples s' = false)) ∨
       (e = .raised ∧ ∃ m, Rendered s m pairs ∧ moreSamples m = true ∧
          s' = raiseError .nonfiniteOutput m)) := by
  induction k generalizing cnt s with
  | zero =>
    cases h
    exact ⟨[], Nat.le_refl 0, rfl, Or.inl ⟨rfl, Rendered.refl _, Or.inl rfl⟩⟩
  | succ k ih =>
    unfold renderLoop at h
    split at h
    · rename_i hm
      split at h
      · cases h
      · rename_i s1 h1
        cases h
        rcases sampleRun_cases h1 with ⟨he, -⟩ | ⟨-, m, hr, rfl⟩
        · cases he
        · refine ⟨[], Nat.zero_le _, rfl, Or.inr ⟨rfl, m, hr, ?_, rfl⟩⟩
          obtain ⟨nz, ph, d, rv, rfl⟩ := hr.frame
          simpa [moreSamples] using hm
      · rename_i s1 h1
        rcases sampleRun_cases h1 with ⟨-, l, r, hr⟩ | ⟨he, -⟩
        · obtain ⟨ps, hl, hc, hcase⟩ := ih h
          refine ⟨⟨l, r, lastFlag k s⟩ :: ps, by simpa using hl, by simp [hc]; omega, ?_⟩
          rcases hcase with ⟨he, hr', hstop⟩ | ⟨he, m, hr', hm', hs⟩
          · exact Or.inl ⟨he, hr.trans hr', hstop.imp (by simp) id⟩
          · exact Or.inr ⟨he, m, hr.trans hr', hm', hs⟩
        · cases he
    · rename_i hm
      cases h
      exact ⟨[], Nat.zero_le _, rfl, Or.inl ⟨rfl, Rendered.refl _,
        Or.inr (by simpa using hm)⟩⟩

theorem Rendered.ready {s s' : State} {ps : List OutPair} (h : Rendered s s' ps)
    (hr : s.status.capReverb = true → s.reverbReady) :
    s'.status.capReverb = true → s'.reverbReady := by
  have hl := h.lines
  obtain ⟨nz, ph, d, rv, rfl⟩ := h.frame
  exact fun hc c => (hl c).ready (hr hc c)

/-- The loop of RENDER never meets an absent delay word in a session whose lines are allocated. -/
theorem renderLoop_answers {k cnt : Nat} {s : State}
    (h : s.status.capReverb = true → s.reverbReady) :
    ∃ e cnt' s', renderLoop k cnt s = .ok (e, cnt', s') := by
  induction k generalizing cnt s with
  | zero => exact ⟨_, _, _, rfl⟩
  | succ k ih =>
    unfold renderLoop
    split
    · obtain ⟨e, s1, h1⟩ := sampleRun_answers (lastFlag k s) h
      rw [h1]
      cases e with
      | raised => exact ⟨_, _, _, rfl⟩
      | emitted =>
        rcases sampleRun_cases h1 with ⟨-, l, r, hr⟩ | ⟨he, -⟩
        · exact ih (hr.ready h)
        · cases he
    · exact ⟨_, _, _, rfl⟩

/-! ### Entering and leaving Failed, and the response -/

@[simp] theorem raiseError_state (e : SessionError) (s : State) :
    (raiseError e s).status.state = .failed := rfl
@[simp] theorem raiseError_err (e : SessionError) (s : State) :
    (raiseError e s).status.err = errorClass e := rfl
@[simp] theorem raiseError_detail (e : SessionError) (s : State) :
    (raiseError e s).status.detail = errorDetail e := rfl

/-- `raise` writes the three fields of STATUS and nothing else. -/
theorem raiseError_frame (e : SessionError) (s : State) :
    raiseError e s = { s with status := (raiseError e s).status } := rfl

/-- A response writes the response and nothing else. -/
theorem respond_frame (c : Resp) (d : U64) (s : State) :
    respond c d s = { s with resp := some ⟨c, d⟩ } := rfl

/-- RENDER's end writes STATE, and only to Complete. -/
theorem finishRender_cases (s : State) :
    (finishRender s = s ∧ ¬ (s.act.mode = 0 ∧ s.pos = s.total)) ∨
    (finishRender s = { s with status.state := .complete } ∧ s.act.mode = 0 ∧ s.pos = s.total) := by
  unfold finishRender
  split
  · rename_i h; exact Or.inr ⟨rfl, h⟩
  · rename_i h; exact Or.inl ⟨rfl, h⟩

/-! ### What a step takes -/

theorem fetch_select {s : State} {w : CmdWord} {i : Instr} (hs : s.sel = some w)
    (hd : decodeSelect w = .ok i) : fetch s = .run i (popSelect s) := by
  simp only [fetch, hs, hd]

theorem fetch_command {s : State} {w : CmdWord} {d : WData} {rest : List PortEvent} {i : Instr}
    (hs : s.sel = none) (hp : s.port = .command w d :: rest) (hd : decodeHost w d = .ok i) :
    fetch s = .run i (popPort s) := by
  simp only [fetch, hs, hp, hd]

end Sys2Proof.Machine
end

