-- ==== Sys2Proof/Laws/Float.lean ====
section
/-! SUPPORT. What rounding does: it is monotone, it gives a representable value back unchanged, and
what follows for the operations. Provers cite these and never unfold `roundMag`. -/

set_option Elab.async false -- theorems one after another: each in a thread of its own takes too much memory

namespace Sys2Proof.Machine

/-! ### Patterns -/

theorem infMag_eq : infMag = 2047 * 2 ^ 52 := by decide

theorem fmag_lt (x : F64) : fmag x < 2 ^ 63 := Nat.mod_lt _ (by decide)

theorem toNat_fpack (s : Bool) (m : Nat) :
    (fpack s m).toNat = (if s then 2 ^ 63 else 0) + m % 2 ^ 63 := by
  have hm := Nat.mod_lt m (show 0 < 2 ^ 63 by decide)
  cases s <;> simp only [fpack, BitVec.toNat_ofNat, if_true, if_false, Bool.false_eq_true] <;> omega

theorem fmag_fpack (s : Bool) {m : Nat} (h : m < 2 ^ 63) : fmag (fpack s m) = m := by
  unfold fmag; rw [toNat_fpack]; cases s <;> simp <;> omega

theorem fsign_fpack (s : Bool) (m : Nat) : fsign (fpack s m) = s := by
  have := Nat.mod_lt m (show 0 < 2 ^ 63 by decide)
  unfold fsign; rw [toNat_fpack]; cases s <;> simp <;> omega

theorem fpack_self (x : F64) : fpack (fsign x) (fmag x) = x := by
  apply BitVec.eq_of_toNat_eq
  rw [toNat_fpack]
  have := x.isLt
  unfold fsign fmag
  by_cases h : 2 ^ 63 ≤ x.toNat
  · rw [decide_eq_true h, if_pos rfl]; omega
  · rw [decide_eq_false h, if_neg (by decide)]; omega

theorem fisNaN_eq_false {x : F64} : fisNaN x = false ↔ fmag x ≤ infMag := by
  simp [fisNaN]

/-! ### Rounding -/

theorem roundShift_mono {f g : Nat} (h : f ≤ g) : roundShift f ≤ roundShift g := by
  unfold roundShift
  have : Nat.log2 f ≤ Nat.log2 g := by
    rw [Nat.log2_eq_log_two, Nat.log2_eq_log_two]; exact Nat.log_mono_right h
  omega

/-- What is left after the shift fits in 53 bits. -/
theorem shifted_lt (f : Nat) : f / 2 ^ roundShift f < 2 ^ 53 := by
  rw [Nat.div_lt_iff_lt_mul (by positivity), ← pow_add]
  have h : f < 2 ^ (Nat.log2 f + 1) := Nat.lt_log2_self
  refine lt_of_lt_of_le h (Nat.pow_le_pow_right (by decide) ?_)
  unfold roundShift; omega

/-- Where bits are rounded away, all 53 bits are used. -/
theorem shifted_ge {f : Nat} (h : 0 < roundShift f) : 2 ^ 52 ≤ f / 2 ^ roundShift f := by
  rw [Nat.le_div_iff_mul_le (by positivity), ← pow_add]
  unfold roundShift at *
  have hf : f ≠ 0 := by rintro rfl; simp at h
  have := Nat.log2_self_le hf
  rwa [show 52 + (Nat.log2 f - 52) = Nat.log2 f by omega]

theorem nearestEven_ge (num den : Nat) : num / den ≤ nearestEven num den := by
  unfold nearestEven; split <;> omega

theorem nearestEven_le (num den : Nat) : nearestEven num den ≤ num / den + 1 := by
  unfold nearestEven; split <;> omega

theorem div_le_of_cross {a b c d : Nat} (hb : 0 < b) (hd : 0 < d) (h : a * d ≤ c * b) :
    a / b ≤ c / d := by
  rw [Nat.le_div_iff_mul_le hd]
  have h1 : a / b * b ≤ a := Nat.div_mul_le_self a b
  have : a / b * d * b ≤ c * b := by nlinarith
  exact Nat.le_of_mul_le_mul_right this hb

theorem nearestEven_mono {a b c d : Nat} (hb : 0 < b) (hd : 0 < d) (h : a * d ≤ c * b) :
    nearestEven a b ≤ nearestEven c d := by
  have hq := div_le_of_cross hb hd h
  rcases Nat.lt_or_ge (a / b) (c / d) with hlt | hge
  · exact le_trans (nearestEven_le a b) (le_trans hlt (nearestEven_ge c d))
  · have heq : a / b = c / d := le_antisymm hq hge
    have ha := Nat.div_add_mod a b
    have hc := Nat.div_add_mod c d
    rw [← heq] at hc
    have hr : a % b * d ≤ c % d * b := by
      have e1 : a * d = b * (a / b) * d + a % b * d := by rw [← add_mul, ha]
      have e2 : c * b = d * (a / b) * b + c % d * b := by rw [← add_mul, hc]
      have e3 : b * (a / b) * d = d * (a / b) * b := by ring
      omega
    unfold nearestEven
    rw [← heq]
    split
    · rename_i hup
      have hup' : d < 2 * (c % d) ∨ (2 * (c % d) = d ∧ a / b % 2 = 1) := by
        have key : ∀ r : Nat, b * d ≤ 2 * (r * b) → d ≤ 2 * r := by
          intro r hr'
          have : d * b ≤ 2 * r * b := by nlinarith
          exact Nat.le_of_mul_le_mul_right this hb
        rcases hup with h1 | ⟨h1, h2⟩
        · left
          have : d * b < 2 * (c % d) * b := by nlinarith
          exact Nat.lt_of_mul_lt_mul_right this
        · rcases Nat.lt_or_ge d (2 * (c % d)) with h3 | h3
          · exact Or.inl h3
          · refine Or.inr ⟨le_antisymm h3 (key _ ?_), h2⟩
            calc b * d = 2 * (a % b) * d := by rw [h1]
              _ = 2 * (a % b * d) := by ring
              _ ≤ 2 * (c % d * b) := by omega
      rw [if_pos hup']
    · split <;> omega

/-- Rounding is monotone. -/
theorem roundMag_mono {a b c d : Nat} (hb : 0 < b) (hd : 0 < d) (h : a * d ≤ c * b) :
    roundMag a b ≤ roundMag c d := by
  have hq := roundShift_mono (div_le_of_cross hb hd h)
  unfold roundMag
  generalize hp : roundShift (a / b) = p at *
  generalize hr : roundShift (c / d) = r at *
  refine min_le_min ?_ le_rfl
  rcases Nat.lt_or_ge p r with hlt | hge
  · have h1 : nearestEven a (b * 2 ^ p) ≤ 2 ^ 53 := by
      refine le_trans (nearestEven_le _ _) ?_
      rw [← Nat.div_div_eq_div_mul]
      have := shifted_lt (a / b); rw [hp] at this; omega
    have h2 : 2 ^ 52 ≤ nearestEven c (d * 2 ^ r) := by
      refine le_trans ?_ (nearestEven_ge _ _)
      rw [← Nat.div_div_eq_div_mul]
      have := @shifted_ge (c / d) (by omega); rwa [hr] at this
    omega
  · have hpr : p = r := le_antisymm hq hge
    subst hpr
    have : nearestEven a (b * 2 ^ p) ≤ nearestEven c (d * 2 ^ p) := by
      apply nearestEven_mono (by positivity) (by positivity)
      nlinarith [Nat.zero_le (2 ^ p)]
    omega

theorem roundMag_le (num den : Nat) : roundMag num den ≤ infMag := min_le_right _ _

theorem roundMag_lt (num den : Nat) : roundMag num den < 2 ^ 63 :=
  lt_of_le_of_lt (roundMag_le _ _) (by decide)

theorem roundMag_zero (den : Nat) : roundMag 0 den = 0 := by
  simp [roundMag, roundShift, nearestEven]

/-- An exact multiple of the denominator rounds to the quotient. -/
theorem nearestEven_exact (n : Nat) {d : Nat} (hd : 0 < d) : nearestEven (n * d) d = n := by
  simp [nearestEven, Nat.mul_div_cancel _ hd, Nat.mul_mod_left, hd.ne]

/-- A representable value rounds to itself. -/
theorem roundMag_exact {m : Nat} (hm : m < infMag) {d : Nat} (hd : 0 < d) :
    roundMag (magUnits m * d) d = m := by
  rw [infMag_eq] at hm
  unfold roundMag
  rw [Nat.mul_div_cancel _ hd]
  have hF : m % 2 ^ 52 < 2 ^ 52 := Nat.mod_lt _ (by decide)
  have hdm := Nat.div_add_mod m (2 ^ 52)
  by_cases hE : m / 2 ^ 52 = 0
  · have h1 : magUnits m = m := if_pos hE
    have h2 : m < 2 ^ 52 := by omega
    have h3 : roundShift m = 0 := by
      unfold roundShift
      have : Nat.log2 m < 53 := by
        by_cases h0 : m = 0
        · subst h0; decide
        · exact (Nat.log2_lt h0).2 (by omega)
      omega
    rw [h1, h3]
    simp only [pow_zero, mul_one, Nat.zero_mul, Nat.zero_add]
    rw [nearestEven_exact _ hd, infMag_eq]; omega
  · have h1 : magUnits m = (2 ^ 52 + m % 2 ^ 52) * 2 ^ (m / 2 ^ 52 - 1) := if_neg hE
    have h3 : roundShift (magUnits m) = m / 2 ^ 52 - 1 := by
      rw [h1]; unfold roundShift
      have : Nat.log2 ((2 ^ 52 + m % 2 ^ 52) * 2 ^ (m / 2 ^ 52 - 1)) = 52 + (m / 2 ^ 52 - 1) := by
        rw [Nat.log2_eq_iff (by positivity)]
        constructor
        · rw [pow_add]; exact Nat.mul_le_mul_right _ (by omega)
        · rw [show 52 + (m / 2 ^ 52 - 1) + 1 = 53 + (m / 2 ^ 52 - 1) by omega, pow_add]
          exact Nat.mul_lt_mul_of_pos_right (by omega) (by positivity)
      omega
    rw [h3]
    have h4 : nearestEven (magUnits m * d) (d * 2 ^ (m / 2 ^ 52 - 1)) = 2 ^ 52 + m % 2 ^ 52 := by
      rw [h1, show (2 ^ 52 + m % 2 ^ 52) * 2 ^ (m / 2 ^ 52 - 1) * d
        = (2 ^ 52 + m % 2 ^ 52) * (d * 2 ^ (m / 2 ^ 52 - 1)) by ring]
      exact nearestEven_exact _ (by positivity)
    rw [h4, infMag_eq]; omega

/-- Units rise strictly with the magnitude. -/
theorem magUnits_lt {a b : Nat} (h : a < b) : magUnits a < magUnits b := by
  have hFa : a % 2 ^ 52 < 2 ^ 52 := Nat.mod_lt _ (by decide)
  have hda := Nat.div_add_mod a (2 ^ 52)
  have hdb := Nat.div_add_mod b (2 ^ 52)
  unfold magUnits
  have hdiv : a / 2 ^ 52 ≤ b / 2 ^ 52 := Nat.div_le_div_right h.le
  by_cases hb : b / 2 ^ 52 = 0
  · have ha : a / 2 ^ 52 = 0 := by omega
    rw [if_pos ha, if_pos hb]; exact h
  · rw [if_neg hb]
    by_cases ha : a / 2 ^ 52 = 0
    · rw [if_pos ha]
      have : 1 ≤ 2 ^ (b / 2 ^ 52 - 1) := Nat.one_le_two_pow
      nlinarith [Nat.zero_le (b % 2 ^ 52)]
    · rw [if_neg ha]
      rcases Nat.lt_or_ge (a / 2 ^ 52) (b / 2 ^ 52) with hlt | hge
      · have h2 : 2 ^ (b / 2 ^ 52 - 1) = 2 ^ (b / 2 ^ 52 - a / 2 ^ 52 - 1) * 2 * 2 ^ (a / 2 ^ 52 - 1) := by
          rw [← pow_succ, ← pow_add]; congr 1; omega
        have h3 : 1 ≤ 2 ^ (b / 2 ^ 52 - a / 2 ^ 52 - 1) := Nat.one_le_two_pow
        rw [h2, ← mul_assoc]
        apply Nat.mul_lt_mul_of_pos_right _ (by positivity)
        nlinarith [Nat.zero_le (b % 2 ^ 52)]
      · have he : a / 2 ^ 52 = b / 2 ^ 52 := le_antisymm hdiv hge
        rw [he]
        apply Nat.mul_lt_mul_of_pos_right _ (by positivity)
        omega

theorem magUnits_le {a b : Nat} (h : a ≤ b) : magUnits a ≤ magUnits b := by
  rcases Nat.lt_or_ge a b with h' | h'
  · exact (magUnits_lt h').le
  · rw [le_antisymm h h']

theorem magUnits_le_iff {a b : Nat} : magUnits a ≤ magUnits b ↔ a ≤ b :=
  ⟨fun h => by by_contra hc; exact absurd (magUnits_lt (not_le.1 hc)) (not_lt.2 h), magUnits_le⟩

/-- A quotient not above a representable value rounds to at most that value. -/
theorem roundMag_le_of_le {num den m : Nat} (hden : 0 < den) (hm : m < infMag)
    (h : num ≤ magUnits m * den) : roundMag num den ≤ m := by
  rw [← roundMag_exact hm hden]
  exact roundMag_mono hden hden (Nat.mul_le_mul_right _ h)

/-- A quotient not below a representable value rounds to at least that value. -/
theorem le_roundMag_of_le {num den m : Nat} (hden : 0 < den) (hm : m < infMag)
    (h : magUnits m * den ≤ num) : m ≤ roundMag num den := by
  rw [← roundMag_exact hm hden]
  exact roundMag_mono hden hden (Nat.mul_le_mul_right _ h)

/-! ### Order -/

theorem fle_iff {a b : F64} :
    fle a b = true ↔ fisNaN a = false ∧ fisNaN b = false ∧ forder a ≤ forder b := by
  simp [fle, and_assoc]

theorem flt_iff {a b : F64} :
    flt a b = true ↔ fisNaN a = false ∧ fisNaN b = false ∧ forder a < forder b := by
  simp [flt, and_assoc]

theorem unitsPerOne_pos : 0 < unitsPerOne := by unfold unitsPerOne; positivity

theorem magUnits_zero : magUnits 0 = 0 := by decide

theorem magUnits_eq_zero {m : Nat} : magUnits m = 0 ↔ m = 0 := by
  constructor
  · intro h; by_contra hc
    have := magUnits_lt (Nat.pos_of_ne_zero hc); omega
  · rintro rfl; exact magUnits_zero

/-- The order of values is the order of their units. -/
theorem funits_le_iff {a b : F64} : funits a ≤ funits b ↔ forder a ≤ forder b := by
  have hab := @magUnits_le_iff (fmag a) (fmag b)
  have hba := @magUnits_le_iff (fmag b) (fmag a)
  have ha := @magUnits_eq_zero (fmag a)
  have hb := @magUnits_eq_zero (fmag b)
  unfold funits forder
  cases fsign a <;> cases fsign b <;> simp <;> omega

theorem forder_fpack (s : Bool) {m : Nat} (h : m < 2 ^ 63) :
    forder (fpack s m) = if s then -(m : Int) else (m : Int) := by
  unfold forder; rw [fsign_fpack, fmag_fpack s h]

/-- A rounded quotient is at most every representable value that the exact one is at most. -/
theorem order_round_le {s : Bool} {n den : Nat} {c : F64} (hden : 0 < den)
    (hc : fisFinite c = true)
    (h : (if s then -(n : Int) else (n : Int)) ≤ funits c * den) :
    forder (fpack s (roundMag n den)) ≤ forder c := by
  have hcf : fmag c < infMag := of_decide_eq_true hc
  have hz := @magUnits_eq_zero (fmag c)
  rw [forder_fpack s (roundMag_lt _ _)]
  unfold funits at h; unfold forder
  cases s <;> cases hsc : fsign c <;> simp only [hsc, if_true, if_false, Bool.false_eq_true] at h ⊢
  · have : n ≤ magUnits (fmag c) * den := by exact_mod_cast h
    have := roundMag_le_of_le hden hcf this
    omega
  · have h2 : n + magUnits (fmag c) * den ≤ 0 := by
      have : (n : Int) + (magUnits (fmag c) : Int) * den ≤ 0 := by linarith
      exact_mod_cast this
    have h3 : magUnits (fmag c) = 0 := by
      have : magUnits (fmag c) * den = 0 := by omega
      rcases Nat.mul_eq_zero.1 this with h | h
      · exact h
      · omega
    have h4 : n = 0 := by omega
    subst h4
    rw [roundMag_zero]
    have := hz.1 h3
    omega
  · omega
  · have : magUnits (fmag c) * den ≤ n := by
      have : (magUnits (fmag c) : Int) * den ≤ n := by linarith
      exact_mod_cast this
    have := le_roundMag_of_le hden hcf this
    omega

/-- A rounded quotient is at least every representable value that the exact one is at least. -/
theorem le_order_round {s : Bool} {n den : Nat} {c : F64} (hden : 0 < den)
    (hc : fisFinite c = true)
    (h : funits c * den ≤ (if s then -(n : Int) else (n : Int))) :
    forder c ≤ forder (fpack s (roundMag n den)) := by
  have hcf : fmag c < infMag := of_decide_eq_true hc
  have hz := @magUnits_eq_zero (fmag c)
  rw [forder_fpack s (roundMag_lt _ _)]
  unfold funits at h; unfold forder
  cases s <;> cases hsc : fsign c <;> simp only [hsc, if_true, if_false, Bool.false_eq_true] at h ⊢
  · have : magUnits (fmag c) * den ≤ n := by exact_mod_cast h
    have := le_roundMag_of_le hden hcf this
    omega
  · omega
  · have h2 : n + magUnits (fmag c) * den ≤ 0 := by
      have : (n : Int) + (magUnits (fmag c) : Int) * den ≤ 0 := by linarith
      exact_mod_cast this
    have h3 : magUnits (fmag c) = 0 := by
      have : magUnits (fmag c) * den = 0 := by omega
      rcases Nat.mul_eq_zero.1 this with h | h
      · exact h
      · omega
    have h4 : n = 0 := by omega
    subst h4
    rw [roundMag_zero]
    have := hz.1 h3
    omega
  · have : n ≤ magUnits (fmag c) * den := by
      have : (n : Int) ≤ (magUnits (fmag c) : Int) * den := by linarith
      exact_mod_cast this
    have := roundMag_le_of_le hden hcf this
    omega

theorem fisNaN_round (s : Bool) (num den : Nat) : fisNaN (fpack s (roundMag num den)) = false := by
  rw [fisNaN_eq_false, fmag_fpack s (roundMag_lt _ _)]; exact roundMag_le _ _

/-! ### The operations on finite operands -/

theorem not_special {a : F64} (h : fisFinite a = true) : fisNaN a = false ∧ fisInf a = false := by
  have : fmag a < infMag := of_decide_eq_true h
  simp [fisNaN, fisInf]; omega

theorem fadd_finite {a b : F64} (ha : fisFinite a = true) (hb : fisFinite b = true) :
    fadd a b = finiteSum a b := by
  simp [fadd, sumOf, not_special ha, not_special hb]

theorem fisNaN_flipSign (x : F64) : fisNaN (flipSign x) = fisNaN x := by
  unfold fisNaN flipSign; rw [fmag_fpack _ (fmag_lt x)]

theorem fisFinite_flipSign (x : F64) : fisFinite (flipSign x) = fisFinite x := by
  unfold fisFinite flipSign; rw [fmag_fpack _ (fmag_lt x)]

theorem funits_flipSign (x : F64) : funits (flipSign x) = -funits x := by
  unfold funits flipSign; rw [fmag_fpack _ (fmag_lt x), fsign_fpack]
  cases fsign x <;> simp

theorem forder_flipSign (x : F64) : forder (flipSign x) = -forder x := by
  unfold forder flipSign; rw [fmag_fpack _ (fmag_lt x), fsign_fpack]
  cases fsign x <;> simp

theorem fsub_finite {a b : F64} (ha : fisFinite a = true) (hb : fisFinite b = true) :
    fsub a b = finiteSum a (flipSign b) := by
  have hb' : fisFinite (flipSign b) = true := by rw [fisFinite_flipSign]; exact hb
  simp [fsub, sumOf, not_special ha, not_special hb, not_special hb']

theorem fmul_finite {a b : F64} (ha : fisFinite a = true) (hb : fisFinite b = true) :
    fmul a b =
      fpack (fsign a != fsign b) (roundMag (magUnits (fmag a) * magUnits (fmag b)) unitsPerOne) := by
  simp [fmul, not_special ha, not_special hb]

theorem fdiv_finite {a b : F64} (ha : fisFinite a = true) (hb : fisFinite b = true)
    (h0 : fmag b ≠ 0) :
    fdiv a b =
      fpack (fsign a != fsign b) (roundMag (magUnits (fmag a) * unitsPerOne) (magUnits (fmag b))) := by
  simp [fdiv, not_special ha, not_special hb, h0]

/-- The exact sum with its sign, as `order_round_le` and `le_order_round` take it. -/
theorem finiteSum_as_round (a b : F64) : ∃ s : Bool, ∃ n : Nat,
    finiteSum a b = fpack s (roundMag n 1) ∧
    (if s then -(n : Int) else (n : Int)) = funits a + funits b := by
  unfold finiteSum
  by_cases h : funits a + funits b = 0
  · refine ⟨fsign a && fsign b, 0, ?_, ?_⟩
    · rw [if_pos h, roundMag_zero]
    · rw [h]; simp
  · refine ⟨decide (funits a + funits b < 0), (funits a + funits b).natAbs, ?_, ?_⟩
    · rw [if_neg h]
    · by_cases hn : funits a + funits b < 0
      · rw [if_pos (decide_eq_true hn)]; omega
      · rw [if_neg (by simpa using hn)]; omega

theorem finiteSum_not_nan (a b : F64) : fisNaN (finiteSum a b) = false := by
  obtain ⟨s, n, h, -⟩ := finiteSum_as_round a b
  rw [h]; exact fisNaN_round _ _ _

theorem finiteSum_le {a b c : F64} (hc : fisFinite c = true)
    (h : funits a + funits b ≤ funits c) : forder (finiteSum a b) ≤ forder c := by
  obtain ⟨s, n, he, hn⟩ := finiteSum_as_round a b
  rw [he]; exact order_round_le Nat.one_pos hc (by rw [hn]; simpa using h)

theorem le_finiteSum {a b c : F64} (hc : fisFinite c = true)
    (h : funits c ≤ funits a + funits b) : forder c ≤ forder (finiteSum a b) := by
  obtain ⟨s, n, he, hn⟩ := finiteSum_as_round a b
  rw [he]; exact le_order_round Nat.one_pos hc (by rw [hn]; simpa using h)

/-- The exact product with its sign. -/
theorem signed_product (a b : F64) :
    (if (fsign a != fsign b) then -((magUnits (fmag a) * magUnits (fmag b) : Nat) : Int)
      else ((magUnits (fmag a) * magUnits (fmag b) : Nat) : Int)) = funits a * funits b := by
  unfold funits
  cases fsign a <;> cases fsign b <;> simp

theorem fmul_le {a b c : F64} (ha : fisFinite a = true) (hb : fisFinite b = true)
    (hc : fisFinite c = true) (h : funits a * funits b ≤ funits c * unitsPerOne) :
    forder (fmul a b) ≤ forder c := by
  rw [fmul_finite ha hb]
  exact order_round_le unitsPerOne_pos hc (by rw [signed_product]; exact h)

theorem le_fmul {a b c : F64} (ha : fisFinite a = true) (hb : fisFinite b = true)
    (hc : fisFinite c = true) (h : funits c * unitsPerOne ≤ funits a * funits b) :
    forder c ≤ forder (fmul a b) := by
  rw [fmul_finite ha hb]
  exact le_order_round unitsPerOne_pos hc (by rw [signed_product]; exact h)

theorem fmul_not_nan {a b : F64} (ha : fisFinite a = true) (hb : fisFinite b = true) :
    fisNaN (fmul a b) = false := by rw [fmul_finite ha hb]; exact fisNaN_round _ _ _

/-- A value between two finite values is finite. -/
theorem finite_of_between {lo x hi : F64} (hlo : fisFinite lo = true) (hhi : fisFinite hi = true)
    (h1 : forder lo ≤ forder x) (h2 : forder x ≤ forder hi) : fisFinite x = true := by
  have h3 : fmag lo < infMag := of_decide_eq_true hlo
  have h4 : fmag hi < infMag := of_decide_eq_true hhi
  apply decide_eq_true
  unfold forder at h1 h2
  cases hl : fsign lo <;> cases hh : fsign hi <;> cases hx : fsign x <;>
    simp only [hl, hh, hx, if_true, if_false, Bool.false_eq_true] at h1 h2 <;> omega

theorem finite_of_inRange {lo x hi : F64} (hlo : fisFinite lo = true) (hhi : fisFinite hi = true)
    (h : inRange lo hi x = true) : fisFinite x = true := by
  simp only [inRange, Bool.and_eq_true, fle_iff] at h
  exact finite_of_between hlo hhi h.1.2.2 h.2.2.2

/-! ### Free NaNs are NaNs -/

theorem fisNaN_quietNaN (b : BitVec 64) : fisNaN (quietNaN b) = true := by
  have := Nat.mod_lt b.toNat (show 0 < 2 ^ 51 by decide)
  have hi := infMag_eq
  unfold quietNaN
  apply decide_eq_true
  rw [fmag_fpack _ (by omega)]; omega

theorem fisNaN_anyNaN (b : BitVec 64) : fisNaN (anyNaN b) = true := by
  have := Nat.mod_lt b.toNat (show 0 < 2 ^ 52 by decide)
  have hi := infMag_eq
  unfold anyNaN
  split <;> apply decide_eq_true <;> rw [fmag_fpack _ (by omega)] <;> omega

/-- Every NaN is the free NaN of some choice. -/
theorem anyNaN_surjective {x : F64} (h : fisNaN x = true) : anyNaN x = x := by
  have hx : infMag < fmag x := of_decide_eq_true h
  have hi := infMag_eq
  have hm := fmag_lt x
  have hlt := x.isLt
  have e : infMag + x.toNat % 2 ^ 52 = fmag x := by unfold fmag at *; omega
  unfold anyNaN
  rw [if_neg (by omega), e, fpack_self]

/-! ### The required properties of the configuration functions -/

theorem keepIn_inRange {lo hi other : F64} (y : F64) (h : inRange lo hi other = true) :
    inRange lo hi (keepIn lo hi other y) = true := by
  unfold keepIn; split
  · assumption
  · exact h

theorem RND_inRange (n : Nat) : inRange fMinusOne fOne (RND n) = true :=
  keepIn_inRange _ (by decide +kernel)

theorem SIN_inRange {x : F64} (h : phaseInRange x = true) :
    inRange fMinusOne fOne (SIN x) = true := by
  unfold SIN; split
  · decide +kernel
  · exact keepIn_inRange _ (by decide +kernel)

theorem SIN_zero : SIN fZero = fZero := if_pos rfl

theorem POW_inRange {x e : F64} (he : positiveExponent e = true)
    (hx : inRange fZero fOne x = true) : inRange fZero fOne (POW x e) = true := by
  unfold POW; rw [if_pos (by simp [he, hx])]; split
  · decide +kernel
  · exact keepIn_inRange _ (by decide +kernel)

theorem POW_zero {e : F64} (he : positiveExponent e = true) : POW fZero e = fZero := by
  unfold POW
  rw [if_pos (by rw [he]; decide +kernel), if_pos rfl]

theorem TANH_zero : TANH fZero = fZero := by
  unfold TANH; rw [if_neg (by decide +kernel), if_pos rfl]

theorem TANH_nan {x : F64} (h : fisNaN x = true) : fisNaN (TANH x) = true := by
  unfold TANH; rw [if_pos h]; split
  · assumption
  · exact h

theorem TANH_inRange {x : F64} (h : fisNaN x = false) :
    inRange fMinusOne fOne (TANH x) = true := by
  unfold TANH; rw [if_neg (by simp [h])]; split
  · decide +kernel
  · exact keepIn_inRange _ (by decide +kernel)

end Sys2Proof.Machine
end

