-- ==== Sys2Proof/Laws/Journey.lean ====
section
/-! SUPPORT. What JNY.EVAL gives, and that the keyframe times of a session with a sample to render rise
strictly (42_journey_interpolator.md R131, R132, R135). -/

namespace Sys2Proof.Machine

/-! ### JNY.EVAL -/

theorem keyframesRise_iff {kfT : Vector F64 5} :
    keyframesRise kfT = true ↔ ∀ m : Fin 4, flt kfT[m.castSucc] kfT[m.succ] = true := by
  simp [keyframesRise, Fin.forall_fin_succ, and_assoc]

/-- Where the times rise strictly a value is the interpolation of R132. -/
theorem journeyValue_rise {kfT values : Vector F64 5} (t : F64) (h : keyframesRise kfT = true) :
    journeyValue kfT values t = keyframeValue kfT values t := if_pos h

/-- JNY.EVAL writes the two result buses and nothing else. -/
theorem execJnyEval_frame (s : State) :
    execJnyEval s = .next { s with
      resA := journeyValue s.act.kfT s.act.pulse s.opA
      resB := journeyValue s.act.kfT s.act.carrier s.opA } := rfl

/-- The difference of a finite value and a lower one is above 0: it never rounds to 0. -/
theorem finiteSum_pos {a b : F64} (h : forder a < forder b) :
    flt fZero (finiteSum b (flipSign a)) = true := by
  have hu : funits a < funits b := not_le.1 fun hc => absurd (funits_le_iff.1 hc) (not_le.2 h)
  unfold finiteSum
  rw [funits_flipSign, if_neg (by omega), show decide (funits b + -funits a < 0) = false by simp; omega]
  have h1 : 1 ≤ roundMag (funits b + -funits a).natAbs 1 :=
    le_roundMag_of_le (by decide) (by decide) (by rw [show magUnits 1 = 1 by decide]; omega)
  refine flt_iff.2 ⟨by decide, fisNaN_round _ _ _, ?_⟩
  rw [forder_fpack _ (roundMag_lt _ _)]
  simpa [forder, fmag, fsign, fZero, Nat.pos_iff_ne_zero, Nat.one_le_iff_ne_zero] using h1

/-- R135: the width of a segment whose times rise is above 0, infinities included. -/
theorem fsub_pos {a b : F64} (h : flt a b = true) : flt fZero (fsub b a) = true := by
  obtain ⟨ha, hb, ho⟩ := flt_iff.1 h
  have hla := fisNaN_eq_false.1 ha
  have hlb := fisNaN_eq_false.1 hb
  have hinf {x : F64} (hx : fisInf x = true) : fmag x = infMag := by simpa [fisInf] using hx
  have hz : forder fZero = 0 := by decide
  have hI : infMag < 2 ^ 63 ∧ 0 < infMag := by decide
  unfold fsub sumOf
  rw [ha, hb,
    show fisInf (flipSign a) = fisInf a by rw [fisInf, flipSign, fmag_fpack _ (fmag_lt a), fisInf],
    show fsign (flipSign a) = !fsign a by simp [flipSign, fsign_fpack]]
  simp only [Bool.or_self, Bool.false_eq_true, if_false]
  unfold forder at ho
  by_cases hib : fisInf b = true
  · have hsb : fsign b = false := by
      by_contra hc
      rw [Bool.not_eq_false] at hc
      have := hinf hib
      rw [hc, if_pos rfl] at ho
      split at ho <;> omega
    rw [if_pos hib, if_neg ?_]
    · refine flt_iff.2 ⟨by decide, hb, ?_⟩
      rw [hz, forder, hsb, hinf hib]; decide
    · rintro hc
      simp only [Bool.and_eq_true, bne_iff_ne, ne_eq, hsb] at hc
      have hsa : fsign a = false := by revert hc; cases fsign a <;> simp
      rw [hsa, hsb, hinf hc.1, hinf hib] at ho
      simp at ho
  · rw [if_neg hib]
    by_cases hia : fisInf a = true
    · rw [if_pos hia]
      have hsa : fsign a = true := by
        by_contra hc
        rw [Bool.not_eq_true] at hc
        have := hinf hia
        rw [hc] at ho
        simp only [Bool.false_eq_true, if_false] at ho
        split at ho <;> omega
      refine flt_iff.2 ⟨by decide, (fisNaN_flipSign a).trans ha, ?_⟩
      rw [hz, forder_flipSign, forder, hsa, hinf hia]; decide
    · rw [if_neg hia]
      exact finiteSum_pos ho

/-! ### The keyframe times of a session -/

/-- Units with a significand of 53 bits are those of some value. -/
theorem representable {n e : Nat} (hn : n < 2 ^ 53) : ∃ m, magUnits m = n * 2 ^ e := by
  induction e generalizing n with
  | zero =>
    rcases Nat.lt_or_ge n (2 ^ 52) with h | h
    · exact ⟨n, by rw [magUnits, if_pos (Nat.div_eq_of_lt h), pow_zero, Nat.mul_one]⟩
    · refine ⟨n, ?_⟩
      have h1 : n / 2 ^ 52 = 1 := by omega
      rw [magUnits, h1, if_neg (by decide)]
      simp only [Nat.sub_self, pow_zero, Nat.mul_one]
      omega
  | succ e ih =>
    rcases Nat.lt_or_ge n (2 ^ 52) with h | h
    · obtain ⟨m, hm⟩ := ih (n := 2 * n) (by omega)
      exact ⟨m, by rw [hm, pow_succ]; ring⟩
    · refine ⟨(e + 2) * 2 ^ 52 + (n - 2 ^ 52), ?_⟩
      have h1 : ((e + 2) * 2 ^ 52 + (n - 2 ^ 52)) / 2 ^ 52 = e + 2 := by omega
      have h2 : ((e + 2) * 2 ^ 52 + (n - 2 ^ 52)) % 2 ^ 52 = n - 2 ^ 52 := by omega
      unfold magUnits
      rw [h1, h2, if_neg (by omega)]
      rw [show 2 ^ 52 + (n - 2 ^ 52) = n by omega, show e + 2 - 1 = e + 1 by omega]

/-- The units of a value, as a significand below 2^53 and a shift. -/
theorem magUnits_split (m : Nat) :
    ∃ n e, n < 2 ^ 53 ∧ magUnits m = n * 2 ^ e ∧ (2 ^ 52 ≤ n ∨ e = 0) := by
  unfold magUnits
  have := Nat.mod_lt m (show 0 < 2 ^ 52 by decide)
  split
  · exact ⟨m, 0, by omega, by simp, Or.inr rfl⟩
  · exact ⟨2 ^ 52 + m % 2 ^ 52, m / 2 ^ 52 - 1, by omega, rfl, Or.inl (by omega)⟩

/-- Two quotients with two different values between them, or at them, round to different values. -/
theorem roundMag_lt_of_between {a b n k e d : Nat} (hd : 0 < d) {top : Nat} (ht : top < infMag)
    (hk : k * 2 ^ e ≤ magUnits top) (hk53 : k < 2 ^ 53) (hnk : n < k)
    (ha : a ≤ n * 2 ^ e * d) (hb : k * 2 ^ e * d ≤ b) : roundMag a d < roundMag b d := by
  obtain ⟨u, hu⟩ := representable (n := n) (e := e) (by omega)
  obtain ⟨v, hv⟩ := representable (n := k) (e := e) hk53
  have hvt : v ≤ top := magUnits_le_iff.1 (by rw [hv]; exact hk)
  have huv : u < v := by
    by_contra hc
    have h1 := magUnits_le (not_lt.1 hc)
    rw [hu, hv] at h1
    exact absurd (Nat.le_of_mul_le_mul_right h1 (by positivity)) (by omega)
  have h1 : roundMag a d ≤ u := roundMag_le_of_le hd (by omega) (by rw [hu]; exact ha)
  have h2 : v ≤ roundMag b d := le_roundMag_of_le hd (by omega) (by rw [hv]; exact hb)
  omega

/-- The magnitude of a product by a positive value. -/
theorem fmul_positive {a b : F64} (ha : fisFinite a = true) (hb : fisFinite b = true)
    (hsa : fsign a = false) (hsb : fsign b = false) :
    fmul a b = fpack false (roundMag (magUnits (fmag a) * magUnits (fmag b)) unitsPerOne) := by
  rw [fmul_finite ha hb, hsa, hsb]; rfl

theorem flt_fpack {m n : Nat} (hm : m ≤ infMag) (hn : n ≤ infMag) (h : m < n) :
    flt (fpack false m) (fpack false n) = true := by
  have h63 : infMag < 2 ^ 63 := by decide
  refine flt_iff.2 ⟨?_, ?_, ?_⟩
  · rw [fisNaN_eq_false, fmag_fpack _ (by omega)]; exact hm
  · rw [fisNaN_eq_false, fmag_fpack _ (by omega)]; exact hn
  · rw [forder_fpack _ (by omega), forder_fpack _ (by omega)]; simpa using h

/-- The keyframe times of a duration of at least eight units of 2^-1074 rise strictly. -/
theorem keyframeTimes_rise {d : F64} (hf : fisFinite d = true) (hs : fsign d = false)
    (h8 : 8 ≤ magUnits (fmag d)) : keyframesRise (keyframeTimes d) = true := by
  have hfm : fmag d < infMag := by simpa [fisFinite] using hf
  obtain ⟨c, hU, c1, c2, c3, c4⟩ : ∃ c, unitsPerOne = 4 * c ∧
      magUnits (fmag 0x3FD0000000000000) = 1 * c ∧ magUnits (fmag 0x3FE0000000000000) = 2 * c ∧
      magUnits (fmag 0x3FE8000000000000) = 3 * c ∧ magUnits (fmag 0x3FF0000000000000) = 4 * c :=
    ⟨2 ^ 1072, by decide +kernel⟩
  have q (x : F64) (hx : fisFinite x = true) (hsx : fsign x = false) (k : Nat)
      (hk : magUnits (fmag x) = k * c) :
      fmul d x = fpack false (roundMag (magUnits (fmag d) * k * c) unitsPerOne) := by
    rw [fmul_positive hf hx hs hsx, hk, Nat.mul_assoc]
  have e0 := q 0 (by decide) (by decide) 0 ((by decide : magUnits (fmag 0) = 0).trans (by simp))
  have e1 := q 0x3FD0000000000000 (by decide) (by decide) 1 c1
  have e2 := q 0x3FE0000000000000 (by decide) (by decide) 2 c2
  have e3 := q 0x3FE8000000000000 (by decide) (by decide) 3 c3
  have e4 := q 0x3FF0000000000000 (by decide) (by decide) 4 c4
  obtain ⟨n, e, hn, hu, hne⟩ := magUnits_split (fmag d)
  have hn8 : 8 ≤ n := by
    rcases hne with h | h
    · omega
    · subst h; simpa [hu] using h8
  have step (i j k l : Nat) (hk : l < k) (hkn : k ≤ n) (h1 : n * i ≤ 4 * l) (h2 : 4 * k ≤ n * j) :
      roundMag (magUnits (fmag d) * i * c) unitsPerOne <
        roundMag (magUnits (fmag d) * j * c) unitsPerOne := by
    refine roundMag_lt_of_between unitsPerOne_pos (n := l) (k := k) (e := e) hfm ?_ (by omega) hk ?_ ?_
    · rw [hu]; exact Nat.mul_le_mul_right _ hkn
    · rw [hu, hU]
      calc n * 2 ^ e * i * c = (n * i) * (2 ^ e * c) := by ring
        _ ≤ (4 * l) * (2 ^ e * c) := Nat.mul_le_mul_right _ h1
        _ = l * 2 ^ e * (4 * c) := by ring
    · rw [hu, hU]
      calc k * 2 ^ e * (4 * c) = (4 * k) * (2 ^ e * c) := by ring
        _ ≤ (n * j) * (2 ^ e * c) := Nat.mul_le_mul_right _ h2
        _ = n * 2 ^ e * j * c := by ring
  have le (x : Nat) : roundMag x unitsPerOne ≤ infMag := roundMag_le _ _
  have m0 : (keyframeTimes d)[0] = fmul d 0 := rfl
  have m1 : (keyframeTimes d)[1] = fmul d 0x3FD0000000000000 := rfl
  have m2 : (keyframeTimes d)[2] = fmul d 0x3FE0000000000000 := rfl
  have m3 : (keyframeTimes d)[3] = fmul d 0x3FE8000000000000 := rfl
  have m4 : (keyframeTimes d)[4] = fmul d 0x3FF0000000000000 := rfl
  simp only [keyframesRise, m0, m1, m2, m3, m4, e0, e1, e2, e3, e4, Bool.and_eq_true]
  refine ⟨⟨⟨?_, ?_⟩, ?_⟩, ?_⟩ <;> refine flt_fpack (le _) (le _) ?_
  · exact step 0 1 1 0 (by omega) (by omega) (by omega) (by omega)
  · exact step 1 2 (n / 2) ((n + 3) / 4) (by omega) (by omega) (by omega) (by omega)
  · exact step 2 3 (3 * n / 4) ((n + 1) / 2) (by omega) (by omega) (by omega) (by omega)
  · exact step 3 4 n ((3 * n + 3) / 4) (by omega) (by omega) (by omega) (by omega)

/-- A duration with a whole sample in it has at least eight units of 2^-1074, whatever the rate. -/
theorem duration_units {d r : F64} (hd : fisFinite d = true) (hr : fisFinite r = true)
    (hsd : fsign d = false) (hsr : fsign r = false) (hlt : flt (fmul d r) fTwoPow63 = true)
    (h : f64FloorToU64 (fmul d r) ≠ 0) : 8 ≤ magUnits (fmag d) := by
  by_contra hc
  apply h
  have hrm : fmag r ≤ infMag - 1 := by have : fmag r < infMag := by simpa [fisFinite] using hr
                                       omega
  have hR : magUnits (fmag r) ≤ 2 ^ 2098 :=
    le_trans (magUnits_le hrm) (by decide +kernel)
  have hle : roundMag (magUnits (fmag d) * magUnits (fmag r)) unitsPerOne ≤ 0x3FE0000000000000 := by
    refine roundMag_le_of_le unitsPerOne_pos (by decide) ?_
    refine le_trans (Nat.mul_le_mul (show _ ≤ 8 by omega) hR) (by decide +kernel)
  have hp := fmul_positive hd hr hsd hsr
  have hm : fmag (fmul d r) = roundMag (magUnits (fmag d) * magUnits (fmag r)) unitsPerOne := by
    rw [hp, fmag_fpack _ (roundMag_lt _ _)]
  have hdom : floorDomain (fmul d r) = true := by
    unfold floorDomain
    rw [hlt, Bool.and_true]
    refine fle_iff.2 ⟨by decide, (flt_iff.1 hlt).1, ?_⟩
    rw [hp, forder_fpack _ (roundMag_lt _ _)]
    simp [forder, fmag, fsign, fZero]
  unfold f64FloorToU64
  rw [if_pos hdom, hm]
  have : magUnits (roundMag (magUnits (fmag d) * magUnits (fmag r)) unitsPerOne) < unitsPerOne :=
    lt_of_le_of_lt (magUnits_le hle) (by decide +kernel)
  rw [Nat.div_eq_of_lt this]; rfl

theorem finitePositive_iff {x : F64} (h : finitePositive x = true) :
    fisFinite x = true ∧ fsign x = false := by
  simp only [finitePositive, Bool.and_eq_true] at h
  refine ⟨h.1, ?_⟩
  by_contra hs
  have h3 := (flt_iff.1 h.2).2.2
  simp only [Bool.not_eq_false] at hs
  have h0 : forder fZero = 0 := by decide
  rw [h0, forder, if_pos hs] at h3
  omega

/-- R135: a BATCH snapshot that PREPARE accepts and that has a sample to render has keyframe times that
rise strictly. -/
theorem accepted_rise {p : Pending} {cap : Option Nat} (hm : p.mode = 0)
    (h : prepareCheck p cap = none) (ht : f64FloorToU64 (fmul p.duration p.sampleRate) ≠ 0) :
    keyframesRise (keyframeTimes p.duration) = true := by
  unfold prepareCheck at h
  rw [if_neg (by simp [hm])] at h
  split at h
  · cases h
  rename_i hr
  unfold batchCheck at h
  split at h
  · cases h
  split at h
  · cases h
  rename_i hd
  split at h
  · cases h
  rename_i hl
  simp only [Bool.not_eq_true, Bool.not_eq_false'] at hr hd hl
  obtain ⟨hdf, hds⟩ := finitePositive_iff hd
  obtain ⟨hrf, hrs⟩ := finitePositive_iff hr
  exact keyframeTimes_rise hdf hds (duration_units hdf hrf hds hrs hl ht)

end Sys2Proof.Machine
end

