-- ==== Sys2Proof/Laws/PerInstr.lean ====
section
/-! SUPPORT. What holds of every instruction as syntax, one lemma a constructor: the major opcode says
which of the two decoders an instruction belongs to (30_encoding.md R81). -/

namespace Sys2Proof

/-- The major opcode of an instruction's word is 8 exactly when it is a unit operation, and below 7
exactly when it is a host command (30_encoding.md R81). -/
def Laws.OpClass.Statement (i : Instr) : Prop :=
  (opField (encodeWord i) = 8 ↔ i.isHost = false) ∧ (opField (encodeWord i) < 7 ↔ i.isHost = true)

theorem Laws.OpClass.nop :
    Laws.OpClass.Statement .nop := by
  unfold Laws.OpClass.Statement; decide

theorem Laws.OpClass.wrreg (a : RegAddr) (v : WData) :
    Laws.OpClass.Statement (.wrreg a v) := by
  have h : opField (encodeWord (.wrreg a v)) = 1 := by
    simp only [opField, encodeWord, fields]; revert a; decide
  unfold Laws.OpClass.Statement; rw [h]; simp [Instr.isHost]

theorem Laws.OpClass.rdreg (a : RegAddr) :
    Laws.OpClass.Statement (.rdreg a) := by
  have h : opField (encodeWord (.rdreg a)) = 2 := by
    simp only [opField, encodeWord, fields]; revert a; decide
  unfold Laws.OpClass.Statement; rw [h]; simp [Instr.isHost]

theorem Laws.OpClass.rdmem (v : WData) :
    Laws.OpClass.Statement (.rdmem v) := by
  have h : opField (encodeWord (.rdmem v)) = 3 := by
    simp only [encodeWord]; decide
  unfold Laws.OpClass.Statement; rw [h]; simp [Instr.isHost]

theorem Laws.OpClass.prepare :
    Laws.OpClass.Statement .prepare := by
  unfold Laws.OpClass.Statement; decide

theorem Laws.OpClass.render (n : WData) :
    Laws.OpClass.Statement (.render n) := by
  have h : opField (encodeWord (.render n)) = 5 := by
    simp only [encodeWord]; decide
  unfold Laws.OpClass.Statement; rw [h]; simp [Instr.isHost]

theorem Laws.OpClass.release :
    Laws.OpClass.Statement .release := by
  unfold Laws.OpClass.Statement; decide

theorem Laws.OpClass.paInc :
    Laws.OpClass.Statement .paInc := by
  unfold Laws.OpClass.Statement; decide

theorem Laws.OpClass.paAdv (k : BitVec 4) :
    Laws.OpClass.Statement (.paAdv k) := by
  unfold Laws.OpClass.Statement; revert k; decide

theorem Laws.OpClass.paVal (k : BitVec 4) :
    Laws.OpClass.Statement (.paVal k) := by
  unfold Laws.OpClass.Statement; revert k; decide

theorem Laws.OpClass.oscSin (k : BitVec 4) :
    Laws.OpClass.Statement (.oscSin k) := by
  unfold Laws.OpClass.Statement; revert k; decide

theorem Laws.OpClass.envBatch :
    Laws.OpClass.Statement .envBatch := by
  unfold Laws.OpClass.Statement; decide

theorem Laws.OpClass.envRt :
    Laws.OpClass.Statement .envRt := by
  unfold Laws.OpClass.Statement; decide

theorem Laws.OpClass.jnyBuild :
    Laws.OpClass.Statement .jnyBuild := by
  unfold Laws.OpClass.Statement; decide

theorem Laws.OpClass.jnyEval :
    Laws.OpClass.Statement .jnyEval := by
  unfold Laws.OpClass.Statement; decide

theorem Laws.OpClass.nzPrep :
    Laws.OpClass.Statement .nzPrep := by
  unfold Laws.OpClass.Statement; decide

theorem Laws.OpClass.nzWhite :
    Laws.OpClass.Statement .nzWhite := by
  unfold Laws.OpClass.Statement; decide

theorem Laws.OpClass.nzPink :
    Laws.OpClass.Statement .nzPink := by
  unfold Laws.OpClass.Statement; decide

theorem Laws.OpClass.nzBrown :
    Laws.OpClass.Statement .nzBrown := by
  unfold Laws.OpClass.Statement; decide

theorem Laws.OpClass.nzLfo :
    Laws.OpClass.Statement .nzLfo := by
  unfold Laws.OpClass.Statement; decide

theorem Laws.OpClass.nzLpf :
    Laws.OpClass.Statement .nzLpf := by
  unfold Laws.OpClass.Statement; decide

theorem Laws.OpClass.nzProc :
    Laws.OpClass.Statement .nzProc := by
  unfold Laws.OpClass.Statement; decide

theorem Laws.OpClass.rvPrep (c : BitVec 1) :
    Laws.OpClass.Statement (.rvPrep c) := by
  unfold Laws.OpClass.Statement; revert c; decide

theorem Laws.OpClass.rvComb (c : BitVec 1) (j : BitVec 3) :
    Laws.OpClass.Statement (.rvComb c j) := by
  unfold Laws.OpClass.Statement; revert c j; decide

theorem Laws.OpClass.rvAp (c : BitVec 1) :
    Laws.OpClass.Statement (.rvAp c) := by
  unfold Laws.OpClass.Statement; revert c; decide

theorem Laws.OpClass.rvProc (c : BitVec 1) :
    Laws.OpClass.Statement (.rvProc c) := by
  unfold Laws.OpClass.Statement; revert c; decide

theorem Laws.OpClass.gainLin :
    Laws.OpClass.Statement .gainLin := by
  unfold Laws.OpClass.Statement; decide

theorem Laws.OpClass.mixDry :
    Laws.OpClass.Statement .mixDry := by
  unfold Laws.OpClass.Statement; decide

theorem Laws.OpClass.mixWet :
    Laws.OpClass.Statement .mixWet := by
  unfold Laws.OpClass.Statement; decide

theorem Laws.OpClass.satTanh :
    Laws.OpClass.Statement .satTanh := by
  unfold Laws.OpClass.Statement; decide

theorem Laws.OpClass.satKnee :
    Laws.OpClass.Statement .satKnee := by
  unfold Laws.OpClass.Statement; decide

theorem Laws.OpClass.sample :
    Laws.OpClass.Statement .sample := by
  unfold Laws.OpClass.Statement; decide

end Sys2Proof
end

