-- ==== Sys2Proof/Machine/Assembler.lean ====
section
/-! DEFINITION. The assembler (30_encoding.md R89, R90): a line of text as the commands it stands for,
registers by name or address, values by the register's type, the pseudo-instructions TONE, JOURNEY and
STATUS, and the unit operations as schedules write them. What R89 leaves open of the text is chosen in
log 19. A line is a list of characters, so that every reading is structural. -/

namespace Sys2Proof.Machine

/-! ### Commands by register -/

/-- `WRREG <reg>, <value>` (R89). -/
def asmWrite (r : Reg) (v : WData) : Instr := .wrreg (regAddr r) v

/-- `RDREG <reg>` (R89). -/
def asmRead (r : Reg) : Instr := .rdreg (regAddr r)

/-- `RDMEM <c>, <j>, <o>` (R89), packed as R83 says. -/
def asmRdmem (c : BitVec 1) (j : BitVec 3) (o : BitVec 32) : Instr :=
  .rdmem ((0#28) ++ c ++ j ++ o)

/-- `TONE p, c` (R90). -/
def asmTone (p c : F64) : List Instr :=
  [asmWrite .pulseCnt 1, asmWrite .carrierCnt 1, asmWrite (.pulse 0) p, asmWrite (.carrier 0) c]

/-- `JOURNEY p0,p1,p2,p3,p4 / c0,c1,c2,c3,c4` (R90). -/
def asmJourney (pulse carrier : Vector F64 5) : List Instr :=
  [asmWrite .pulseCnt 5, asmWrite .carrierCnt 5]
    ++ [(0 : Fin 5), 1, 2, 3, 4].map (fun i => asmWrite (.pulse i) (pulse[i]))
    ++ [(0 : Fin 5), 1, 2, 3, 4].map (fun i => asmWrite (.carrier i) (carrier[i]))

/-- `STATUS` (R90). -/
def asmStatus : List Instr := [asmRead .status]

/-! ### Text -/

/-- A space or a tab. -/
def isBlank (c : Char) : Bool := c == ' ' || c == '\t'

/-- Without the blanks at both ends. -/
def trimBlanks (t : List Char) : List Char :=
  ((t.dropWhile isBlank).reverse.dropWhile isBlank).reverse

/-- Without its comment: `;` to the end of the line (R89). -/
def dropComment (t : List Char) : List Char := trimBlanks (t.takeWhile (· != ';'))

/-- The pieces between separators. -/
def splitAtChar (sep : Char) : List Char → List (List Char)
  | [] => [[]]
  | c :: rest =>
    if c = sep then [] :: splitAtChar sep rest
    else match splitAtChar sep rest with
      | [] => [[c]]
      | p :: ps => (c :: p) :: ps

/-- The operands of a line, separated by commas (R89). -/
def operandsOf (t : List Char) : List (List Char) :=
  if trimBlanks t = [] then [] else (splitAtChar ',' t).map trimBlanks

/-- A digit's value in that base, at most sixteen. -/
def digitOf (base : Nat) (c : Char) : Option Nat :=
  if '0' ≤ c ∧ c ≤ '9' then if c.toNat - 48 < base then some (c.toNat - 48) else none
  else if 'A' ≤ c ∧ c ≤ 'F' then if base = 16 then some (c.toNat - 55) else none
  else if 'a' ≤ c ∧ c ≤ 'f' then if base = 16 then some (c.toNat - 87) else none
  else none

/-- The number that the digits write, after the number `acc`. -/
def digitsFrom (base acc : Nat) : List Char → Option Nat
  | [] => some acc
  | c :: rest =>
    match digitOf base c with
    | none => none
    | some d => digitsFrom base (acc * base + d) rest

/-- An unsigned decimal integer below the limit. -/
def readDecimal (limit : Nat) (t : List Char) : Option Nat :=
  if t = [] then none
  else match digitsFrom 10 0 t with
    | none => none
    | some n => if n < limit then some n else none

/-- `0x` and exactly `count` hexadecimal digits. -/
def readHex (count : Nat) : List Char → Option Nat
  | '0' :: 'x' :: t => if t.length = count then digitsFrom 16 0 t else none
  | _ => none

/-- A sign and what follows it; true is minus. -/
def readSign : List Char → Bool × List Char
  | '-' :: t => (true, t)
  | '+' :: t => (false, t)
  | t => (false, t)

/-- A signed decimal integer, in two's complement (R89). -/
def readSigned (t : List Char) : Option WData :=
  match readSign t with
  | (false, d) => (readDecimal (2 ^ 63) d).map (BitVec.ofNat 64)
  | (true, d) => (readDecimal (2 ^ 63 + 1) d).map (fun n => -BitVec.ofNat 64 n)

/-- The binary64 nearest to `(n / 10^down) × 10^up` (R89). -/
def nearestReal (minus : Bool) (n down up : Nat) : F64 :=
  fpack minus (roundMag (n * 10 ^ up * unitsPerOne) (10 ^ down))

/-- A decimal fraction, as its digits without the point and how many of them follow the point. -/
def readFraction (t : List Char) : Option (Nat × Nat) :=
  match splitAtChar '.' t with
  | [whole] => if whole = [] then none else (digitsFrom 10 0 whole).map (fun n => (n, 0))
  | [whole, part] =>
    if whole = [] ∧ part = [] then none
    else (digitsFrom 10 0 (whole ++ part)).map (fun n => (n, part.length))
  | _ => none

/-- A decimal exponent, with its sign; at most four digits. -/
def readExponent (t : List Char) : Option (Bool × Nat) :=
  (readDecimal 10000 (readSign t).2).map (fun n => ((readSign t).1, n))

/-- A decimal real literal, converted to the nearest binary64 (R89); its exponent part is the model's
choice (log 19). -/
def readDecimalReal (t : List Char) : Option F64 :=
  match splitAtChar 'e' (readSign t).2 with
  | [m] => (readFraction m).map (fun f => nearestReal (readSign t).1 f.1 f.2 0)
  | [m, x] =>
    match readFraction m, readExponent x with
    | some f, some (true, e) => some (nearestReal (readSign t).1 f.1 (f.2 + e) 0)
    | some f, some (false, e) => some (nearestReal (readSign t).1 f.1 f.2 e)
    | _, _ => none
  | _ => none

/-- A real literal: `NaN`, the pattern program P6 of 95_test_vectors.md gives it, or a decimal real
literal (R89). Accepting `NaN` in every value of type F64 is the model's choice (log 19). -/
def readReal (t : List Char) : Option F64 :=
  if t = "NaN".toList then some 0x7FF8000000000000 else readDecimalReal t

/-! ### Registers by name and type -/

/-- A one-digit array index in brackets. -/
def bracketed (i : Nat) : List Char := ['[', Char.ofNat (48 + i), ']']

/-- The name of a register (10_state.md R37), array elements as `PULSE[2]` (R89). -/
def regName : Reg → List Char
  | .mode => "MODE".toList
  | .sampleRate => "SAMPLE_RATE".toList
  | .duration => "DURATION".toList
  | .softness => "SOFTNESS".toList
  | .gainDb => "GAIN_DB".toList
  | .entType => "ENT_TYPE".toList
  | .noiseType => "NOISE_TYPE".toList
  | .noiseLevel => "NOISE_LEVEL".toList
  | .pulseCnt => "PULSE_CNT".toList
  | .carrierCnt => "CARRIER_CNT".toList
  | .pulse i => "PULSE".toList ++ bracketed i
  | .carrier i => "CARRIER".toList ++ bracketed i
  | .status => "STATUS".toList
  | .pos => "POS".toList
  | .total => "TOTAL".toList
  | .draws => "DRAWS".toList
  | .aMode => "A_MODE".toList
  | .aFs => "A_FS".toList
  | .aSoft => "A_SOFT".toList
  | .aGainDb => "A_GAIN_DB".toList
  | .gainLin => "GAIN_LIN".toList
  | .aEnt => "A_ENT".toList
  | .aNtype => "A_NTYPE".toList
  | .aNlevel => "A_NLEVEL".toList
  | .aPulse i => "A_PULSE".toList ++ bracketed i
  | .aCarrier i => "A_CARRIER".toList ++ bracketed i
  | .kfT i => "KF_T".toList ++ bracketed i
  | .ph i => "PH".toList ++ bracketed i
  | .nzBrown => "NZ_BROWN".toList
  | .nzLpf => "NZ_LPF".toList
  | .nzCnt => "NZ_CNT".toList
  | .nzLfoRate => "NZ_LFO_RATE".toList
  | .nzRow i => "NZ_ROW".toList ++ bracketed i
  | .rvLen c j => "RV_LEN".toList ++ bracketed c ++ bracketed j
  | .rvIdx c j => "RV_IDX".toList ++ bracketed c ++ bracketed j

/-- The types of a register (10_state.md R37). -/
inductive RegType where
  | unsigned | signed | real | fields
  deriving DecidableEq, Repr

/-- The type of a register (10_state.md R37). -/
def regType : Reg → RegType
  | .mode => .unsigned
  | .sampleRate => .real
  | .duration => .real
  | .softness => .real
  | .gainDb => .real
  | .entType => .signed
  | .noiseType => .signed
  | .noiseLevel => .real
  | .pulseCnt => .unsigned
  | .carrierCnt => .unsigned
  | .pulse _ => .real
  | .carrier _ => .real
  | .status => .fields
  | .pos => .unsigned
  | .total => .unsigned
  | .draws => .unsigned
  | .aMode => .unsigned
  | .aFs => .real
  | .aSoft => .real
  | .aGainDb => .real
  | .gainLin => .real
  | .aEnt => .signed
  | .aNtype => .signed
  | .aNlevel => .real
  | .aPulse _ => .real
  | .aCarrier _ => .real
  | .kfT _ => .real
  | .ph _ => .real
  | .nzBrown => .real
  | .nzLpf => .real
  | .nzCnt => .unsigned
  | .nzLfoRate => .real
  | .nzRow _ => .real
  | .rvLen _ _ => .unsigned
  | .rvIdx _ _ => .unsigned

/-- The address that `<reg>` names: `0x` and two digits, or the register of that name (R89). -/
def readRegister (t : List Char) : Option RegAddr :=
  match readHex 2 t with
  | some n => some (BitVec.ofNat 8 n)
  | none =>
    (((List.range 256).map (BitVec.ofNat 8)).find? fun a => decide ((regAt a).map regName = some t))

/-- `<value>` for a register address: 16 hexadecimal digits outright, else by the register's type
(R89); STATUS, of type fields, takes an unsigned integer as in program P4 of 95_test_vectors.md
(log 19). -/
def readValue (a : RegAddr) (t : List Char) : Option WData :=
  match readHex 16 t with
  | some n => some (BitVec.ofNat 64 n)
  | none =>
    match (regAt a).map regType with
    | some .real => readReal t
    | some .signed => readSigned t
    | some .unsigned => (readDecimal (2 ^ 64) t).map (BitVec.ofNat 64)
    | some .fields => (readDecimal (2 ^ 64) t).map (BitVec.ofNat 64)
    | none => none

/-! ### Lines -/

/-- The mnemonic of a line and the rest of it. -/
def splitLine (t : List Char) : List Char × List Char :=
  (t.takeWhile (fun c => !isBlank c), trimBlanks (t.dropWhile (fun c => !isBlank c)))

/-- Five values for registers of that one's type, an operand of JOURNEY being the `<value>` of the WRREG
it expands to (R90; log 19). -/
def readFive (a : RegAddr) (t : List Char) : Option (Vector F64 5) :=
  match (operandsOf t).map (readValue a) with
  | [some a, some b, some c, some d, some e] => some #v[a, b, c, d, e]
  | _ => none

/-- The two lists of a JOURNEY, PULSE and CARRIER, separated by a slash (R90). -/
def readJourney (t : List Char) : Option (List Instr) :=
  match splitAtChar '/' t with
  | [pulses, carriers] =>
    match readFive (regAddr (.pulse 0)) pulses, readFive (regAddr (.carrier 0)) carriers with
    | some p, some c => some (asmJourney p c)
    | _, _ => none
  | _ => none

/-- The operands of a TONE, each the `<value>` of the WRREG it expands to (R90; log 19). -/
def readTone (pulse carrier : List Char) : Option (List Instr) :=
  match readValue (regAddr (.pulse 0)) pulse, readValue (regAddr (.carrier 0)) carrier with
  | some p, some c => some (asmTone p c)
  | _, _ => none

/-- `WRREG <reg>, <value>` (R89). -/
def readWrite (reg value : List Char) : Option (List Instr) :=
  match readRegister reg with
  | none => none
  | some a => (readValue a value).map fun v => [.wrreg a v]

/-- `RDMEM <c>, <j>, <o>` (R89). -/
def readRdmem (c j o : List Char) : Option (List Instr) :=
  match readDecimal 2 c, readDecimal 8 j, readDecimal (2 ^ 32) o with
  | some c, some j, some o =>
    some [asmRdmem (BitVec.ofNat 1 c) (BitVec.ofNat 3 j) (BitVec.ofNat 32 o)]
  | _, _, _ => none

/-- A line's commands by its mnemonic, its operands and its text after the mnemonic (R89, R90). -/
def asmCommand (m : List Char) (ops : List (List Char)) (text : List Char) : Option (List Instr) :=
  if m = "JOURNEY".toList then readJourney text
  else match ops with
    | [] =>
      if m = "NOP".toList then some [.nop]
      else if m = "PREPARE".toList then some [.prepare]
      else if m = "RELEASE".toList then some [.release]
      else if m = "STATUS".toList then some asmStatus
      else none
    | [a] =>
      if m = "RDREG".toList then (readRegister a).map fun r => [.rdreg r]
      else if m = "RENDER".toList then
        (readDecimal (2 ^ 64) a).map fun n => [.render (BitVec.ofNat 64 n)]
      else none
    | [a, b] =>
      if m = "WRREG".toList then readWrite a b
      else if m = "TONE".toList then readTone a b
      else none
    | [a, b, c] => if m = "RDMEM".toList then readRdmem a b c else none
    | _ => none

/-- The commands of one line of a host program, none where the line is no line of R89 or R90. A line
that is blank or holds only a comment is no command: R89 does not speak of it (DESIGN CHOICE, log 19). -/
def asmLine (line : List Char) : Option (List Instr) :=
  if dropComment line = [] then some []
  else asmCommand (splitLine (dropComment line)).1 (operandsOf (splitLine (dropComment line)).2)
    (splitLine (dropComment line)).2

/-- The commands of a host program, a line each (R89). -/
def asmProgram : List (List Char) → Option (List Instr)
  | [] => some []
  | line :: rest =>
    match asmLine line, asmProgram rest with
    | some a, some b => some (a ++ b)
    | _, _ => none

/-! ### Schedules -/

/-- The unit operations with no instance field, as schedules write them (R86, R89). -/
def plainUnits : List (List Char × Instr) :=
  [("PA.INC".toList, .paInc), ("ENV.BATCH".toList, .envBatch), ("ENV.RT".toList, .envRt),
    ("JNY.BUILD".toList, .jnyBuild), ("JNY.EVAL".toList, .jnyEval), ("NZ.PREP".toList, .nzPrep),
    ("NZ.WHITE".toList, .nzWhite), ("NZ.PINK".toList, .nzPink), ("NZ.BROWN".toList, .nzBrown),
    ("NZ.LFO".toList, .nzLfo), ("NZ.LPF".toList, .nzLpf), ("NZ.PROC".toList, .nzProc),
    ("GAIN.LIN".toList, .gainLin), ("MIX.DRY".toList, .mixDry), ("MIX.WET".toList, .mixWet),
    ("SAT.TANH".toList, .satTanh), ("SAT.KNEE".toList, .satKnee), ("SAMPLE".toList, .sample)]

/-- The unit operations with one instance number. -/
def numberedUnit (m : List Char) (n : Nat) : Option Instr :=
  if m = "PA.ADV".toList then if n < 5 then some (.paAdv (BitVec.ofNat 4 n)) else none
  else if m = "PA.VAL".toList then if n < 5 then some (.paVal (BitVec.ofNat 4 n)) else none
  else if m = "OSC.SIN".toList then if n < 5 then some (.oscSin (BitVec.ofNat 4 n)) else none
  else if 1 < n then none
  else if m = "RV.PREP".toList then some (.rvPrep (BitVec.ofNat 1 n))
  else if m = "RV.AP".toList then some (.rvAp (BitVec.ofNat 1 n))
  else if m = "RV.PROC".toList then some (.rvProc (BitVec.ofNat 1 n))
  else none

/-- A unit operation as a schedule writes it, `PA.ADV 1` or `RV.COMB 0, 2` (R89). -/
def asmUnit (line : List Char) : Option Instr :=
  match operandsOf (splitLine (dropComment line)).2 with
  | [] => (plainUnits.find? fun u => decide (u.1 = (splitLine (dropComment line)).1)).map (·.2)
  | [a] =>
    match readDecimal 16 a with
    | some n => numberedUnit (splitLine (dropComment line)).1 n
    | none => none
  | [a, b] =>
    match readDecimal 2 a, readDecimal 4 b with
    | some c, some j =>
      if (splitLine (dropComment line)).1 = "RV.COMB".toList then
        some (.rvComb (BitVec.ofNat 1 c) (BitVec.ofNat 3 j))
      else none
    | _, _ => none
  | _ => none

end Sys2Proof.Machine
end

