-- ==== Sys2Proof/Tests/Slice0.lean ====
section
/-! SUPPORT. The model's own tests: the well-formedness checks, words written out from the encoding
tables, vectors of 95_test_vectors.md that need no configuration function, and for every statement with
hypotheses a state and operands that meet them. -/

set_option Elab.async false -- theorems one after another: each in a thread of its own takes too much memory

namespace Sys2Proof.Tests

open Sys2Proof Sys2Proof.Machine

/-! ### Small states and readings -/

/-- The state after a step that answers one. -/
def nextOf : Host.Outcome State Fault Refusal → Option State
  | .next s => some s
  | .fault _ => none
  | .refused _ => none

/-- A field of the state after an instruction. -/
def after {α : Type} (i : Instr) (s : State) (f : State → α) : Option α := (nextOf (exec i s)).map f

theorem exists_next {o : Host.Outcome State Fault Refusal} (h : (nextOf o).isSome = true) :
    ∃ t, o = .next t := by
  cases o with
  | next s => exact ⟨s, rfl⟩
  | fault f => cases h
  | refused r => cases h

/-- The reset state with two operands on the buses. -/
def unit (a b : F64) : State := { State.reset with opA := a, opB := b }

/-- A network prepared at 100.0 Hz: lengths 2, 3, 4, 4, 1 (V-RV-0). -/
def net100 : Network := netPrep 0x4059000000000000 Network.empty

/-- A BATCH session in BinauralOffset operation at 100.0 Hz with gain 1.0, silent frequencies, noise None
and 2 samples to render. -/
def batch : State :=
  { State.reset with
    act := { Active.zero with
      fs := 0x4059000000000000, gainLin := fOne, ent := 1, ntype := 0xFFFFFFFFFFFFFFFF }
    status := batchFlags false { Status.zero with state := .rendering }
    total := 2
    rv := #v[net100, net100] }

/-- A STREAM session at 100.0 Hz with gain 1.0. -/
def stream : State :=
  { State.reset with
    act := { Active.zero with
      mode := 1, fs := 0x4059000000000000, gainLin := fOne, ntype := 0xFFFFFFFFFFFFFFFF }
    status := streamFlags { Status.zero with state := .rendering } }

/-- The reset state with a BATCH snapshot that PREPARE accepts: 0.125 s at 100.0 Hz. -/
def ready : State :=
  { State.reset with
    pend.duration := 0x3FC0000000000000
    pend.sampleRate := 0x4059000000000000 }

/-- The keyframes of scenario B (V-JNY-1). -/
def scenarioB : State :=
  { State.reset with
    act.kfT := #v[0x0000000000000000, 0x3FF0000000000000, 0x4000000000000000, 0x4008000000000000,
      0x4010000000000000]
    act.pulse := #v[0x3FF0000000000000, 0x4014000000000000, 0x4024000000000000, 0x402E000000000000,
      0x4034000000000000]
    act.carrier := #v[0x4059000000000000, 0x4062C00000000000, 0x4069000000000000,
      0x406F400000000000, 0x4072C00000000000] }

/-- A noise unit whose stream begins 0.5, -0.25, 1.0, -1.0 and goes on with zeros. -/
def noisy : State :=
  { State.reset with
    act.fs := 0x40E5888000000000
    nz.lfoRate := kLfoFast
    rndGiven := [0x3FE0000000000000, 0xBFD0000000000000, 0x3FF0000000000000, 0xBFF0000000000000,
      0, 0, 0, 0, 0] }

/-! ### Well-formedness -/

theorem test_wf_accumulator : (Instr.paAdv 4).wf = true ∧ (Instr.paAdv 5).wf = false ∧
    (Instr.paVal 5).wf = false ∧ (Instr.oscSin 5).wf = false := by decide
theorem test_wf_comb : (Instr.rvComb 1 3).wf = true ∧ (Instr.rvComb 1 4).wf = false := by decide

/-! ### Words written out from 30_encoding.md R85 and R86, bit by bit -/

theorem test_decode_NOP : decodeHost 0b0000000000000000 9 = .ok .nop := by decide
theorem test_decode_WRREG : decodeHost 0b0001000000011100 9 = .ok (.wrreg 0x1C 9) := by decide
theorem test_decode_RDREG : decodeHost 0b0010000001111100 9 = .ok (.rdreg 0x7C) := by decide
theorem test_decode_RDMEM : decodeHost 0b0011000000000000 9 = .ok (.rdmem 9) := by decide
theorem test_decode_PREPARE : decodeHost 0b0100000000000000 9 = .ok .prepare := by decide
theorem test_decode_RENDER : decodeHost 0b0101000000000000 9 = .ok (.render 9) := by decide
theorem test_decode_RELEASE : decodeHost 0b0110000000000000 9 = .ok .release := by decide
theorem test_decode_PA :
    decodeSelect 0b1000000000000000 = .ok .paInc ∧
    decodeSelect 0b1000010000000001 = .ok (.paAdv 4) ∧
    decodeSelect 0b1000001100000010 = .ok (.paVal 3) ∧
    decodeSelect 0b1000000100000011 = .ok (.oscSin 1) := by decide
theorem test_decode_ENV :
    decodeSelect 0b1000000000010000 = .ok .envBatch ∧
    decodeSelect 0b1000000000010001 = .ok .envRt := by decide
theorem test_decode_JNY :
    decodeSelect 0b1000000000100000 = .ok .jnyBuild ∧
    decodeSelect 0b1000000000100001 = .ok .jnyEval := by decide
theorem test_decode_NZ :
    decodeSelect 0b1000000000110000 = .ok .nzPrep ∧ decodeSelect 0b1000000000110001 = .ok .nzWhite ∧
    decodeSelect 0b1000000000110010 = .ok .nzPink ∧ decodeSelect 0b1000000000110011 = .ok .nzBrown ∧
    decodeSelect 0b1000000000110100 = .ok .nzLfo ∧ decodeSelect 0b1000000000110101 = .ok .nzLpf ∧
    decodeSelect 0b1000000000110110 = .ok .nzProc := by decide
theorem test_decode_RV :
    decodeSelect 0b1000100001000000 = .ok (.rvPrep 1) ∧
    decodeSelect 0b1000001101000001 = .ok (.rvComb 0 3) ∧
    decodeSelect 0b1000101001000001 = .ok (.rvComb 1 2) ∧
    decodeSelect 0b1000010001000010 = .ok (.rvAp 0) ∧
    decodeSelect 0b1000100001000011 = .ok (.rvProc 1) := by decide
theorem test_decode_MIX :
    decodeSelect 0b1000000001010000 = .ok .gainLin ∧ decodeSelect 0b1000000001010001 = .ok .mixDry ∧
    decodeSelect 0b1000000001010010 = .ok .mixWet ∧ decodeSelect 0b1000000001010011 = .ok .satTanh ∧
    decodeSelect 0b1000000001010100 = .ok .satKnee := by decide
theorem test_decode_SAMPLE : decodeSelect 0b1000000001100000 = .ok .sample := by decide
theorem test_decode_reserved :
    decodeSelect 0x8501 = .error .reservedInstance ∧ decodeSelect 0x8441 = .error .reservedInstance ∧
    decodeSelect 0x8042 = .error .reservedInstance ∧ decodeSelect 0x8004 = .error .reservedUnit ∧
    decodeHost 0x8060 0 = .error .unitOperation ∧ decodeHost 0x7000 0 = .error .reservedOp ∧
    decodeHost 0x0100 0 = .error .nonzeroInstance ∧ decodeHost 0x4001 0 = .error .nonzeroAddress := by
  decide
theorem test_decodeTableWord :
    decodeTableWord 16 0x1003 = some (.wrreg 3 0) ∧ decodeTableWord 16 0x8403 = some (.oscSin 4) ∧
    decodeTableWord 16 0x9000 = none := by decide
theorem test_assembler : (asmTone 5 6).map encode =
    [(0x1008, 1), (0x1009, 1), (0x1010, 5), (0x1018, 6)] ∧
    encode (asmRdmem 1 4 219) = (0x3000, 0xC000000DB) := by decide
/-- Lines of programs P1, P3, P4, P5 and P6 of 95_test_vectors.md, and 30_encoding.md R89's schedule example. -/
theorem test_assembler_text :
    (asmLine "WRREG SOFTNESS, 0.5      ; half".toList).map (·.map encode) =
      some [(0x1003, 0x3FE0000000000000)] ∧
    (asmLine "TONE 10.0, 200.0".toList).map (·.map encode) =
      some [(0x1008, 1), (0x1009, 1), (0x1010, 0x4024000000000000), (0x1018, 0x4069000000000000)] ∧
    (asmLine "WRREG GAIN_DB, -20.0".toList).map (·.map encode) =
      some [(0x1004, 0xC034000000000000)] ∧
    (asmLine "RDMEM 1, 4, 0".toList).map (·.map encode) = some [(0x3000, 0xC00000000)] ∧
    (asmLine "WRREG NOISE_LEVEL, NaN".toList).map (·.map encode) =
      some [(0x1007, 0x7FF8000000000000)] ∧
    (asmLine "WRREG STATUS, 0".toList).map (·.map encode) = some [(0x1020, 0)] ∧
    (asmUnit "RV.COMB 0, 2".toList).map encodeWord = some 0x8241 := by decide +kernel
/-- An operand of TONE and JOURNEY in 16 hexadecimal digits is that of the WRREG (R90, log 19). -/
theorem test_assembler_hex :
    asmLine "TONE 0x4024000000000000, 200.0".toList = asmLine "TONE 10.0, 200.0".toList ∧
    asmLine "JOURNEY 1,5,10,15,0x4034000000000000 / 100,150,200,250,300".toList =
      asmLine "JOURNEY 1,5,10,15,20 / 100,150,200,250,300".toList ∧
    (asmLine "JOURNEY 1,5,10,15,20 / 100,150,200,250,300".toList).isSome = true := by
  decide +kernel

/-! ### The vectors of 95_test_vectors.md -/

/-- V-PA-9, three rows. -/
theorem test_PA_INC :
    after .paInc (unit 0x4069000000000000 0x40E5888000000000) (·.resA) = some 0x3F9D2DD69613F104 ∧
    after .paInc (unit 0x3FA999999999999A 0x40E5888000000000) (·.resA) = some 0x3EDDE11D45B6364A ∧
    after .paInc (unit 0x40D5888000000000 0x40E5888000000000) (·.resA) = some 0x400921FB54442D18 := by
  decide +kernel

/-- V-PA-2, V-PA-3 and V-PA-8. -/
theorem test_PA_ADV :
    after (.paAdv 0) { unit 0x3FE0000000000000 0 with ph := #v[0x4018000000000000, 0, 0, 0, 0] }
      (·.ph[0]) = some 0x3FCBC095777A5D00 ∧
    after (.paAdv 4) { unit 0x3FD21FB54442D180 0 with ph := #v[0, 0, 0, 0, 0x4018000000000000] }
      (·.ph[4]) = some 0 ∧
    after (.paAdv 1) { unit 0xBFF0000000000000 0 with ph := #v[0, 0x3FE0000000000000, 0, 0, 0] }
      (·.ph[1]) = some 0xBFE0000000000000 := by decide +kernel

theorem test_PA_VAL : after (.paVal 3) { unit 0 0 with ph := #v[1, 2, 3, 4, 5] } (·.resA) = some 4 := by
  decide

/-- V-PA-10, the row of every instantiation. -/
theorem test_OSC_SIN : after (.oscSin 2) (unit 7 7) (·.resA) = some 0 := by decide

/-- V-ENV-1, the rows of property P3: raw 0.0, -0.0 and -0.5 at softness 0.5. -/
theorem test_ENV_BATCH :
    after .envBatch (unit 0x8000000000000000 0x3FE0000000000000) (·.resA) = some 0 ∧
    after .envBatch (unit 0xBFE0000000000000 0x3FE0000000000000) (·.resA) = some 0 := by
  decide +kernel
theorem test_ENV_RT :
    after .envRt (unit 0x8000000000000000 0x3FE0000000000000) (·.resA) = some 0 ∧
    after .envRt (unit 0xBFE0000000000000 0x3FE0000000000000) (·.resA) = some 0 := by
  decide +kernel

/-- V-JNY-3: a duration whose 0.75 multiple rounds. -/
theorem test_JNY_BUILD :
    after .jnyBuild { State.reset with pend.duration := 0x3FD3333333333333, status.jnyOn := true }
      (·.act.kfT) = some #v[0x0000000000000000, 0x3FB3333333333333, 0x3FC3333333333333,
        0x3FCCCCCCCCCCCCCC, 0x3FD3333333333333] := by decide +kernel

/-- V-JNY-1: the time one unit in the last place above a keyframe, and a time beyond the end. -/
theorem test_JNY_EVAL :
    after .jnyEval { scenarioB with opA := 0x3FF0000000000001 } (fun t => (t.resA, t.resB)) =
      some (0x4014000000000002, 0x4062C00000000001) ∧
    after .jnyEval { scenarioB with opA := 0x4012000000000000 } (fun t => (t.resA, t.resB)) =
      some (0x4034000000000000, 0x4072C00000000000) := by decide +kernel

/-- V-NZ-4: 8.0, the value just below it, and a NaN. -/
theorem test_NZ_PREP :
    after .nzPrep (unit 0x4020000000000000 0) (·.nz.lfoRate) = some 0x3FC999999999999A ∧
    after .nzPrep (unit 0x401FFFFFFFFFFFFF 0) (·.nz.lfoRate) = some 0x3FA999999999999A ∧
    after .nzPrep (unit 0x7FF8000000000000 0) (·.nz.lfoRate) = some 0x3FC999999999999A := by
  decide +kernel

theorem test_NZ_WHITE :
    after .nzWhite noisy (fun t => (t.resA, t.draws)) = some (0x3FE0000000000000, 1) := by decide

/-- V-NZ-2, call 0. -/
theorem test_NZ_BROWN :
    after .nzBrown noisy (fun t => (t.nz.brown, t.resA)) =
      some (0x3F9958B67EBB907A, 0x3FB62D9FAEE41E6B) := by decide +kernel

/-- V-NZ-3, calls 0 and 4 on the rows there. -/
theorem test_NZ_PINK :
    after .nzPink { noisy with rndGiven := [0xBFF0000000000000, 0xBFE4000000000000,
      0xBFD0000000000000, 0x3FC0000000000000, 0x3FE0000000000000, 0x3FEC000000000000,
      0xBFEC000000000000] } (fun t => (t.resA, t.draws, t.nz.cnt)) =
      some (0xBFC3333333333333, 7, 1) ∧
    after .nzPink { noisy with
      rndGiven := [0x3FF0000000000000, 0xBFE8000000000000, 0xBFD8000000000000], nz.cnt := 4
      nz.row := #v[0x3FE4000000000000, 0x3FD0000000000000, 0xBFD0000000000000, 0x3FC0000000000000,
        0x3FE0000000000000, 0x3FEC000000000000, 0xBFEC000000000000] }
      (fun t => (t.resA, t.draws, t.nz.row[2], t.nz.row[3])) =
      some (0x3FAEB851EB851EB8, 3, 0xBFD8000000000000, 0x3FC0000000000000) := by decide +kernel

/-- V-NZ-1, call 0. -/
theorem test_NZ_LFO :
    after .nzLfo noisy (fun t => (t.resA, t.ph[4])) =
      some (0x3F9EB851EB851EB9, 0x3EFDE11D45B6364A) := by decide +kernel
theorem test_NZ_LPF :
    after .nzLpf (unit 0x3FE0000000000000 0x3F9EB851EB851EB9) (fun t => (t.resA, t.nz.lpf)) =
      some (0x3F8EB851EB851EB9, 0x3F8EB851EB851EB9) := by decide +kernel

/-- V-NZ-1 and V-NZ-2, call 0. -/
theorem test_NZ_PROC :
    after .nzProc noisy (fun t => (t.resA, t.ph[4])) =
      some (0x3F8EB851EB851EB9, 0x3EFDE11D45B6364A) ∧
    after .nzProc { noisy with act.ntype := 2 } (·.nz.lpf) = some 0x3F654A84D0DAFE7C := by
  decide +kernel

/-- V-RV-0 at 44100.0 and at 30.0 Hz. -/
theorem test_RV_PREP :
    after (.rvPrep 1) { State.reset with act.fs := 0x40E5888000000000 }
      (fun t => (t.rv[1].len, t.rv[0].len)) =
      some (#v[1309, 1636, 1812, 1927, 220], #v[0, 0, 0, 0, 0]) ∧
    after (.rvPrep 0) { State.reset with act.fs := 0x403E000000000000 } (·.rv[0].len) =
      some #v[1, 1, 1, 1, 1] := by decide +kernel

/-- V-RV-2: the first call, and the third, which reads the word of the first. -/
theorem test_RV_COMB :
    after (.rvComb 0 0) { batch with opA := fOne }
      (fun t => (t.resA, t.rv[0].line[0], t.rv[0].idx[0])) = some (0, [(0, fOne)], 1) ∧
    after (.rvComb 0 0) { batch with rv := #v[(net100.writeWord 0 0 fOne), net100] }
      (fun t => (t.resA, t.rv[0].line[0])) = some (fOne, [(0, 0x3FEAE147AE147AE1)]) := by
  decide +kernel

/-- V-RV-2. -/
theorem test_RV_AP :
    after (.rvAp 1) { batch with opA := fOne }
      (fun t => (t.resA, t.rv[1].line[4], t.rv[1].idx[4])) =
      some (0xBFE0000000000000, [(0, 0x3FE8000000000000)], 0) ∧
    after (.rvAp 0) { batch with rv := #v[(net100.writeWord 4 0 0x3FE8000000000000), net100] }
      (fun t => (t.resA, t.rv[0].line[4])) = some (0x3FE8000000000000, [(0, 0x3FD8000000000000)]) := by
  decide +kernel

/-- V-RV-1, calls 0 to 2: the wet sample of the third. -/
theorem test_RV_PROC :
    (((nextOf (exec (.rvProc 0) { batch with opA := fOne })).bind fun a =>
      nextOf (exec (.rvProc 0) { a with opA := 0 })).bind fun b =>
      after (.rvProc 0) b fun t => (t.resA, t.rv[0].idx)) =
      some (0xBFC0000000000000, #v[1, 0, 3, 3, 0]) := by decide +kernel

/-- V-MIX-2. -/
theorem test_MIX_DRY :
    after .mixDry { unit 0 0x3F8EB851EB851EB9 with
      status.capNoise := true, act.nlevel := fHalf, act.gainLin := fOne } (·.resA) =
      some 0x3F7EB851EB851EB9 ∧
    after .mixDry { unit 0 0x3F8EB851EB851EB9 with act.nlevel := fHalf, act.gainLin := fOne }
      (·.resA) = some 0 := by decide +kernel
theorem test_MIX_WET :
    after .mixWet { unit 0x3FE8C4FA1F50D7DC 0xBF4EB851EB851EB9 with status.capReverb := true }
      (·.resA) = some 0x3FE8C40E315693DE ∧
    after .mixWet (unit 5 6) (·.resA) = some 5 := by decide +kernel
theorem test_SAT_TANH : after .satTanh (unit 0 0) (·.resA) = some 0 := by decide

/-- V-SAT-1: 0.9000000000000001, -1.0, 2.0, 0.9. -/
theorem test_SAT_KNEE :
    after .satKnee (unit 0x3FECCCCCCCCCCCCE 0) (·.resA) = some 0x3FECCCCCCCCCCCCD ∧
    after .satKnee (unit 0xBFF0000000000000 0) (·.resA) = some 0xBFED1EB851EB851F ∧
    after .satKnee (unit 0x4000000000000000 0) (·.resA) = some 0x3FF028F5C28F5C29 ∧
    after .satKnee (unit 0x3FECCCCCCCCCCCCD 0) (·.resA) = some 0x3FECCCCCCCCCCCCD := by
  decide +kernel

/-- 45_mixer_saturator.md R191, the example: the exponent of -10.0 is -0.5. -/
theorem test_GAIN_LIN :
    after .gainLin (unit 0xC024000000000000 0) (·.act.gainLin) =
      some (POW fTen (fdiv 0xC024000000000000 fTwenty)) ∧
    fdiv 0xC024000000000000 fTwenty = 0xBFE0000000000000 :=
  ⟨by simp only [after, nextOf, exec, execGainLin, gainLin, linearGain, unit, Option.map_some],
    by decide +kernel⟩

/-- 46_engine_commands.md R217, corner cases: sample 0 is (+0.0, +0.0), with its flag. -/
theorem test_SAMPLE :
    after .sample { batch with opLast := true } (fun t => (t.out, t.pos)) =
      some ([⟨0, 0, true⟩], 1) := by decide +kernel

/-- The `last` flag on the second of two samples of a batch of which more are asked (R216), and
Complete. -/
theorem test_RENDER :
    after (.render 9) batch (fun t => (t.out.map (·.last), t.status.state, t.resp)) =
      some ([false, true], .complete, some ⟨.ok, 2⟩) ∧
    after (.render 9) State.reset (·.resp) = some (some ⟨.errState, 0⟩) := by decide +kernel

/-- Straight after reset PREPARE fails with detail 4 (R271); the example of R214. -/
theorem test_PREPARE :
    after .prepare State.reset (fun t => (t.status.state, t.resp)) =
      some (.failed, some ⟨.ok, 0x414⟩) ∧
    after .prepare { State.reset with pend.duration := fOne, pend.pulse := #v[fTen, 0, 0, 0, 0] }
      (fun t => (t.total, t.resp, t.nz.lfoRate)) =
      some (44100, some ⟨.ok, 0x0E0002⟩, kLfoFast) := by decide +kernel

theorem test_RELEASE :
    after .release batch (fun t => (t.status, t.rv[0].len[0], t.resp)) =
      some (Status.zero, 0, some ⟨.ok, 0⟩) := by decide
theorem test_NOP : after .nop batch (fun t => (t.resp, t.rv)) = some (some ⟨.ok, 0⟩, batch.rv) := by
  decide +kernel
theorem test_WRREG :
    after (.wrreg 0x1C 77) batch (fun t => (t.pend.carrier, t.resp)) =
      some (#v[0, 0, 0, 0, 77], some ⟨.ok, 0⟩) ∧
    after (.wrreg 0x20 77) batch (·.resp) = some (some ⟨.errRo, 0⟩) := by decide
/-- 46_engine_commands.md R213, the example; and an undefined address. -/
theorem test_RDREG :
    after (.rdreg 0x01) State.reset (·.resp) = some (some ⟨.ok, 0x40E5888000000000⟩) ∧
    after (.rdreg 0x0A) State.reset (·.resp) = some (some ⟨.errAddr, 0⟩) := by decide
theorem test_RDMEM :
    after (.rdmem 0xA00000003) { batch with rv := #v[net100, net100.writeWord 2 3 8] } (·.resp) =
      some (some ⟨.ok, 8⟩) ∧
    after (.rdmem 0x1000000000) batch (·.resp) = some (some ⟨.errAddr, 0⟩) := by decide +kernel

/-- From reset, the transfers of RENDER and of a unit operation placed for the next step are the ones it
runs. -/
theorem test_withFetchWord :
    ((nextOf (step (State.reset.withFetchWord 16 0x5000))).map (·.resp)) =
      some (some ⟨.errState, 0⟩) ∧
    ((nextOf (step (State.reset.withFetchWord 16 0x8060))).map (·.out)) = some [⟨0, 0, false⟩] := by
  decide +kernel

/-! ### Witnesses: states and operands that meet the hypotheses of the statements -/

theorem witness_DecodeInvertsEncode : (Instr.rvComb 1 3).wf = true := by decide
theorem witness_DecodedInstructionHasThatWord :
    decode 0x1003 5 = .ok (.wrreg 3 5) ∧ opField 0x1003 = 1 ∧
    decode 0x3000 5 = .ok (.rdmem 5) ∧ opField 0x3000 = 3 ∧
    decode 0x5000 5 = .ok (.render 5) ∧ opField 0x5000 = 5 := by decide
theorem witness_HostCommandRows :
    (0x10FF : CmdWord) &&& 0xFF00 = 0x1000 ∧ (0x2000 : CmdWord) &&& 0xFF00 = 0x2000 ∧
    (0x0000 : CmdWord) &&& 0xFFFF = 0x0000 ∧ (0x3000 : CmdWord) &&& 0xFFFF = 0x3000 ∧
    (0x4000 : CmdWord) &&& 0xFFFF = 0x4000 ∧ (0x5000 : CmdWord) &&& 0xFFFF = 0x5000 ∧
    (0x6000 : CmdWord) &&& 0xFFFF = 0x6000 ∧ decodeHost 0x6000 0 = .ok .release := by decide
theorem witness_UnitOperationRows :
    (0x8401 : CmdWord) &&& 0xF0FF = 0x8001 ∧ (0x8501 : CmdWord) &&& 0xF0FF = 0x8001 ∧
    (0x8402 : CmdWord) &&& 0xF0FF = 0x8002 ∧ (0x8502 : CmdWord) &&& 0xF0FF = 0x8002 ∧
    (0x8403 : CmdWord) &&& 0xF0FF = 0x8003 ∧ (0x8F03 : CmdWord) &&& 0xF0FF = 0x8003 ∧
    (0x8401 : CmdWord).toNat / 256 % 16 = 4 ∧ (0x8501 : CmdWord).toNat / 256 % 16 = 5 ∧
    (0x8840 : CmdWord) &&& 0xF7FF = 0x8040 ∧ (0x8B41 : CmdWord) &&& 0xF4FF = 0x8041 ∧
    (0x8C42 : CmdWord) &&& 0xF7FF = 0x8442 ∧ (0x8843 : CmdWord) &&& 0xF7FF = 0x8043 ∧
    (0x8C42 : CmdWord).toNat / 4096 = 8 ∧ decodeSelect 0x8060 = .ok .sample := by decide
theorem witness_StepRunsTheDecodedInstruction :
    decodeHost 0x2020 0 = .ok (.rdreg 0x20) ∧
    { State.reset with port := [.command 0x2020 0] }.port = .command 0x2020 0 :: [] ∧
    { State.reset with port := [.command 0x2020 0] }.sel = none ∧
    { State.reset with sel := some 0x8404 }.sel = some 0x8404 ∧
    decodeSelect 0x8404 = .error .reservedUnit ∧ decodeSelect 0x8403 = .ok (.oscSin 4) := by decide
/-- One word of each kind that 30_encoding.md R87 lists. -/
theorem witness_IllegalWordsAreRefused :
    ([(0x7000 : CmdWord), 0xFFFF, 0x1100, 0x0001, 0x8060, 0x8004].all fun w =>
      decide (w &&& 0xFFFF ≠ 0x0000 ∧ w &&& 0xFF00 ≠ 0x1000 ∧ w &&& 0xFF00 ≠ 0x2000 ∧
        w &&& 0xFFFF ≠ 0x3000 ∧ w &&& 0xFFFF ≠ 0x4000 ∧ w &&& 0xFFFF ≠ 0x5000 ∧
        w &&& 0xFFFF ≠ 0x6000)) = true ∧
    { State.reset with port := [.command 0x7000 0] }.port = .command 0x7000 0 :: [] ∧
    State.reset.sel = none ∧ 2 ^ 36 ≤ (0x1000000000 : WData).toNat := by decide
theorem witness_NothingPresentedHoldsTheState : State.reset.sel = none ∧ State.reset.port = [] := by
  decide
theorem witness_ResetState :
    { batch with port := [.reset] }.port = .reset :: [] ∧ batch.sel = none := by decide
theorem witness_WrregWritesOnePendingRegister :
    regAt 0x0A = none ∧ regAt 0xFF = none ∧ regAt 0x20 = some .status ∧
    regAt 0x1C = some (.carrier 4) ∧ 0x20 ≤ (0x20 : RegAddr).toNat ∧
    (0x1C : RegAddr).toNat < 0x20 ∧ Reg.mode ≠ .carrier 4 := by decide
theorem witness_RdregReadsTheRegister : regAt 0x7C = some (.rvIdx 1 4) ∧ regAt 0x7D = none := by decide
theorem witness_RdmemReadsTheDelayWord :
    2 ^ 32 - 1 < 2 ^ 32 ∧ 3 < (batch.rv[1].len[2]).toNat ∧ ¬ 4 < (batch.rv[1].len[2]).toNat ∧
    2 ^ 36 ≤ (0x1000000000 : WData).toNat ∧ 4 < (0x500000000 : WData).toNat / 2 ^ 32 % 8 := by
  decide +kernel
theorem witness_CommandLegalityByState :
    batch.status.state ≠ .preparing ∧ batch.status.state ≠ .idle ∧
    State.reset.status.state ≠ .preparing ∧ State.reset.status.state ≠ .rendering := by decide
theorem witness_CommandLegalityByState_executed :
    (∃ t, exec .nop State.reset = .next t) ∧ State.reset.status.state = .idle ∧
    batch.status.state = .rendering ∧ batch.status.capReverb = true ∧
    batch.reverbReady := ⟨⟨_, rfl⟩, rfl, rfl, rfl, by decide +kernel⟩
/-- The reset state fails with detail 4, and with no lower detail. -/
theorem witness_PrepareReportsTheFirstFailure :
    State.reset.status.state = .idle ∧ checkFails State.reset .badDuration ∧
    ∀ e, (errorDetail e).toNat < (errorDetail .badDuration).toNat → ¬ checkFails State.reset e := by
  refine ⟨rfl, ⟨Or.inl (by decide +kernel), fun _ => rfl⟩, fun e he hf => ?_⟩
  have hc := hf.1
  cases e with
  | badMode => exact hc.1 rfl
  | badRate => exact hc (by decide +kernel)
  | badJourney => exact hc (Or.inl (by decide))
  | badDuration => exact absurd he (by decide)
  | badEnt => exact absurd he (by decide)
  | badNoise => exact absurd he (by decide)
  | delayTooLong => exact absurd he (by decide)
  | nonfiniteOutput => exact hc
/-- A capacity of 3 words is too small for the lines of 4 (detail 7), the last check. -/
theorem witness_PrepareReportsTheFirstFailure_last :
    checkFails { ready with delayCap := some 3 } .delayTooLong :=
  ⟨⟨2, Or.inr ⟨3, rfl, by decide +kernel⟩⟩, fun _ => rfl⟩
theorem ready_parametersOk (m : U64) (hm : m = 0 ∨ m = 1) :
    parametersOk { ready with pend.mode := m } := by
  intro e hf
  cases e with
  | badMode => rcases hm with rfl | rfl; exacts [hf.1.1 rfl, hf.1.2 rfl]
  | badRate =>
    have hc : causeOf ready .badRate := hf.1
    exact hc (by decide +kernel)
  | badJourney => exact hf.1 (Or.inl ⟨rfl, rfl⟩)
  | badDuration =>
    have hc : causeOf ready .badDuration := hf.1
    rcases hc with h | h
    · exact h (by decide +kernel)
    · exact absurd h (by decide +kernel)
  | badEnt => exact hf.1.1 rfl
  | badNoise =>
    have hc : causeOf ready .badNoise := hf.1
    rcases hc with h | h <;> exact absurd h (by decide)
  | delayTooLong =>
    obtain ⟨j, h | ⟨cap, h, -⟩⟩ := hf.1
    · have h' : flt (fmul (delayTimes[j]) ready.pend.sampleRate) fTwoPow63 = false := h
      have hall : ∀ j : Fin 5,
          flt (fmul (delayTimes[j]) ready.pend.sampleRate) fTwoPow63 = true := by decide +kernel
      exact absurd ((hall j).symm.trans h') (by decide)
    · cases h
  | nonfiniteOutput => exact hf.1
theorem witness_PrepareBatchSession :
    ready.status.state = .idle ∧ parametersOk { ready with pend.mode := 0 } ∧
    { ready with pend.mode := 0 }.pend.mode = 0 :=
  ⟨rfl, ready_parametersOk 0 (Or.inl rfl), rfl⟩
theorem witness_PrepareStreamSession :
    parametersOk { ready with pend.mode := 1 } ∧ { ready with pend.mode := 1 }.pend.mode = 1 :=
  ⟨ready_parametersOk 1 (Or.inr rfl), rfl⟩
theorem witness_RenderEmitsTheBlock :
    batch.status.state = .rendering ∧ batch.status.capReverb = true ∧ batch.reverbReady ∧
    batch.act.mode = 0 ∧ stream.status.state = .rendering ∧ stream.status.capReverb = false ∧
    stream.act.mode = 1 := by decide +kernel
theorem witness_RenderCompletes :
    stream.status.state = .rendering ∧ batch.status.state = .rendering ∧ batch.act.mode = 0 ∧
    batch.pos.toNat < batch.total.toNat ∧ (∀ k : Fin 5, batch.ph[k] = fZero) ∧
    batch.act.ntype = 0xFFFFFFFFFFFFFFFF ∧ batch.reverbReady ∧
    (∀ (c : Fin 2) (j : Fin 5), batch.rv[c].line[j] = []) ∧ fle fZero batch.act.soft = true ∧
    fle batch.act.soft fOne = true ∧ fisFinite batch.act.gainLin = true ∧
    fsign batch.act.gainLin = false := by decide +kernel
theorem witness_RenderReadsOnlyTheSnapshot :
    (∃ t, exec (.render 1) batch = .next t) ∧ (∃ t, exec (.render 0) stream = .next t) ∧
    { Pending.reset with duration := 1 }.pulse[0] = stream.pend.pulse[0] ∧
    { Pending.reset with duration := 1 }.carrier[0] = stream.pend.carrier[0] ∧
    { Pending.reset with duration := 1 }.softness = stream.pend.softness ∧
    { Pending.reset with duration := 1 }.gainDb = stream.pend.gainDb :=
  ⟨exists_next (by decide +kernel), exists_next (by decide +kernel), rfl, rfl, rfl, rfl⟩
theorem witness_StateTransitions :
    Instr.isHost .prepare = true ∧ ready.status.state ≠ .preparing ∧
    (∃ t, exec .prepare ready = .next t) ∧ (∃ t, exec (.render 2) batch = .next t) ∧
    ∃ t, exec .release batch = .next t :=
  ⟨rfl, by decide, exists_next (by decide +kernel), exists_next (by decide +kernel), ⟨_, rfl⟩⟩
theorem witness_ReleaseClearsTheSession :
    Instr.isHost .prepare = true ∧ Instr.prepare ≠ .release ∧
    (raiseError .badMode State.reset).status.state = .failed ∧
    (∃ t, exec .prepare (raiseError .badMode State.reset) = .next t) ∧
    { batch with status.state := .complete }.status.state = .complete ∧
    ∃ t, exec .prepare { batch with status.state := .complete } = .next t :=
  ⟨rfl, by decide, rfl, ⟨_, rfl⟩, rfl, ⟨_, rfl⟩⟩
theorem witness_FailedUntilRelease :
    (raiseError .badMode State.reset).status.state = .failed ∧ Instr.isHost (.render 1) = true ∧
    Instr.isHost .release = true := by decide
theorem witness_RefusalsChangeNothing :
    Instr.isHost .prepare = true ∧ (∃ t, exec .prepare batch = .next t ∧
      t.resp = some ⟨.errState, 0⟩) ∧ Resp.errState ≠ .ok :=
  ⟨rfl, ⟨_, rfl, rfl⟩, by decide⟩
theorem witness_OutIsAppendOnly : ∃ t, exec .sample batch = .next t :=
  exists_next (by decide +kernel)
theorem witness_BatchEmitsExactlyTotal :
    batch.status.state = .rendering ∧ batch.act.mode = 0 ∧ batch.pos = 0 ∧
    (renderRun [1, 5] batch).map (fun r => (r.1, r.2.status.state)) =
      some ([1, 1], .complete) ∧
    { batch with status.state := .complete }.status.state = .complete ∧
    Instr.isHost (.render 5) = true ∧
    (nextOf (exec (.render 5) { batch with status.state := .complete })).isSome = true := by
  decide +kernel
theorem witness_PhaseUnitResults :
    (4 : BitVec 4).toNat = (4 : Fin 5).val ∧ 4 < (5 : BitVec 4).toNat ∧
    State.reset.ph[(4 : Fin 5)] = fZero := by decide
/-- The largest phase and the largest increment in contract. -/
theorem witness_PhaseStaysBelowTwoPi :
    (0 : BitVec 4).toNat = (0 : Fin 5).val ∧ fle fZero 0x401921FB54442D17 = true ∧
    flt 0x401921FB54442D17 twoPi = true := by decide +kernel
theorem witness_EnvelopeInUnitInterval :
    fle fMinusOne fMinusOne = true ∧ fle fMinusOne fOne = true ∧ fle fOne fOne = true ∧
    fle fZero fZero = true ∧ fle fZero fOne = true ∧ fle fMinusOne fZero = true := by decide +kernel
/-- A time in the second segment, its boundary, and a time beyond the last keyframe. -/
theorem witness_JourneyResults :
    (∀ m : Fin 4, flt (scenarioB.act.kfT[m.castSucc]) (scenarioB.act.kfT[m.succ]) = true) ∧
    fle 0x3FF8000000000000 (scenarioB.act.kfT[(1 : Fin 4).succ]) = true ∧
    fle 0x4000000000000000 (scenarioB.act.kfT[(1 : Fin 4).succ]) = true ∧
    (∀ m : Fin 4, m < 1 → fle 0x4000000000000000 (scenarioB.act.kfT[m.succ]) = false) ∧
    (∀ m : Fin 4, m < 3 → fle 0x4012000000000000 (scenarioB.act.kfT[m.succ]) = false) := by
  decide +kernel
theorem witness_JourneyMeetsItsKeyframes :
    fle fZero (scenarioB.act.kfT[0]) = true ∧
    (∀ m : Fin 4, flt (scenarioB.act.kfT[m.castSucc]) (scenarioB.act.kfT[m.succ]) = true) ∧
    (∀ m : Fin 5, fisFinite (scenarioB.act.kfT[m]) = true ∧
      fisFinite (scenarioB.act.pulse[m]) = true ∧ fisFinite (scenarioB.act.carrier[m]) = true ∧
      scenarioB.act.pulse[m] ≠ 0x8000000000000000 ∧
      scenarioB.act.carrier[m] ≠ 0x8000000000000000) ∧
    { scenarioB with opA := 0x4010000000000000 }.opA = scenarioB.act.kfT[4] := by decide +kernel
theorem noisy_inRange : ∀ v ∈ noisy.rndGiven, fle fMinusOne v = true ∧ fle v fOne = true := by
  have h : (noisy.rndGiven.all fun v => fle fMinusOne v && fle v fOne) = true := by decide +kernel
  intro v hv
  simpa using List.all_eq_true.1 h v hv
theorem witness_WhiteAndBrownTakeOneDraw :
    (∀ v ∈ noisy.rndGiven, fle fMinusOne v = true ∧ fle v fOne = true) ∧
    noisy.rndGiven[noisy.draws.toNat]? = some 0x3FE0000000000000 ∧
    State.reset.rndGiven.length ≤ State.reset.draws.toNat ∧
    fle 0xC014000000000000 0xC014000000000000 = true ∧
    fle 0xC014000000000000 0x4014000000000000 = true ∧
    fle 0x4014000000000000 0x4014000000000000 = true :=
  ⟨noisy_inRange, by decide, by decide, by decide +kernel, by decide +kernel, by decide +kernel⟩
theorem witness_PinkRefreshesTheDueRows :
    noisy.draws.toNat + 7 ≤ noisy.rndGiven.length ∧ noisy.rndGiven.length < 2 ^ 64 ∧
    noisy.nz.cnt.toNat % 2 ^ 6 = 0 ∧ (1 : U64).toNat % 2 ^ 1 ≠ 0 := by decide
theorem witness_PinkCadence : noisy.nz.cnt = 0 ∧ 1023 < 1024 ∧ rowDue 1023 0 = true ∧
    rowDue 1023 1 = false := by decide
theorem witness_LowpassCoefficientRange :
    fle fZero (noisy.ph[4]) = true ∧ flt (noisy.ph[4]) twoPi = true ∧ noisy.ph[4] = fZero ∧
    flt 0x401921FB54442D17 twoPi = true := by decide +kernel
theorem witness_ReverbPrepare : (1 : BitVec 1).toNat = (1 : Fin 2).val := by decide
/-- A cursor at the last word, one beyond it, and a reserved comb number. -/
theorem witness_CombReadsWritesAdvances :
    (1 : BitVec 1).toNat = (1 : Fin 2).val ∧ (3 : BitVec 3).toNat = (3 : Fin 5).val ∧
    (3 : Fin 5) ≠ 4 ∧
    ({ net100 with idx := #v[1, 2, 3, 3, 0] }.idx[(3 : Fin 5)]).toNat <
      (net100.len[(3 : Fin 5)]).toNat ∧
    (net100.len[(3 : Fin 5)]).toNat ≤
      ({ net100 with idx := #v[2, 3, 4, 4, 1] }.idx[(3 : Fin 5)]).toNat ∧
    4 ≤ (4 : BitVec 3).toNat := by decide +kernel
theorem witness_AllpassReadsWritesAdvances :
    (0 : BitVec 1).toNat = (0 : Fin 2).val ∧
    (batch.rv[0].idx[4]).toNat < (batch.rv[0].len[4]).toNat ∧
    (Network.empty.len[4]).toNat ≤ (Network.empty.idx[4]).toNat := by decide +kernel
theorem witness_ReverbProcChainsTheFilters :
    (0 : BitVec 1).toNat = (0 : Fin 2).val ∧
    ∀ j : Fin 5, (batch.rv[0].idx[j]).toNat < (batch.rv[0].len[j]).toNat := by decide +kernel
theorem witness_CursorsStayInRange :
    Instr.isHost (.rvProc 1) = false ∧ batch.reverbReady ∧
    (nextOf (exec (.rvProc 1) batch)).isSome = true := by decide +kernel
/-- Three writes into the line of length 2; and the line of length 1. -/
theorem witness_DelayLineIsADelay :
    lineWf (net100.len[(0 : Fin 5)]).toNat (net100.line[(0 : Fin 5)]) = true ∧
    (net100.idx[(0 : Fin 5)]).toNat < (net100.len[(0 : Fin 5)]).toNat ∧
    0 + (net100.len[(0 : Fin 5)]).toNat < 3 ∧ net100.line[(0 : Fin 5)] = [] ∧
    (net100.len[(4 : Fin 5)]).toNat = 1 := by decide +kernel
theorem witness_MixerResults :
    { State.reset with status.capNoise := true, act.ntype := 2 }.status.capNoise = true ∧
    (2 : S64) ≠ 0xFFFFFFFFFFFFFFFF ∧ State.reset.status.capNoise = false ∧
    batch.status.capReverb = true ∧ State.reset.status.capReverb = false ∧
    fle (fabs 0xBFECCCCCCCCCCCCD) kKneeT = true ∧ fle (fabs 0x3FECCCCCCCCCCCCE) kKneeT = false := by
  decide +kernel
theorem witness_LinearGainIsPositive :
    fle 0xC0B7700000000000 0xC04E000000000000 = true ∧
    fle 0xC04E000000000000 0x40B7700000000000 = true := by decide +kernel
theorem witness_TanhSaturatorBounded :
    (unit fZero 0).opA = fZero ∧ fisNaN fOne = false ∧ fisNaN 0x7FF8000000000000 = true := by
  decide +kernel
theorem witness_KneeBoundAndSymmetry :
    fle fMinusOne fMinusOne = true ∧ fle fMinusOne fOne = true ∧ fle fOne fOne = true ∧
    fisNaN 0x7FF0000000000000 = false ∧ fisNaN 0x7FF8000000000000 = true := by decide +kernel
theorem witness_SampleEmitsOrRaises :
    batch.status.capReverb = true ∧ batch.reverbReady ∧ 1 ≠ (batch.rv[0].idx[(4 : Fin 5)]).toNat ∧
    stream.status.capReverb = false := by decide +kernel
theorem witness_StreamSample :
    stream.status.jnyOn = false ∧ stream.status.capNoise = false ∧
    stream.status.capReverb = false ∧ stream.status.envSel = true ∧ stream.status.satSel = true ∧
    stream.act.ent = 0 ∧ ∃ x y, exec .satKnee { stream with opA := x } =
      .next { stream with opA := x, resA := y } :=
  ⟨rfl, rfl, rfl, rfl, rfl, rfl, 0, satKnee 0, rfl⟩
theorem witness_BinauralBatchSample :
    batch.status.jnyOn = false ∧ batch.act.ntype = 0xFFFFFFFFFFFFFFFF ∧
    batch.status.capReverb = true ∧ batch.status.satSel = false ∧ batch.act.ent ≠ 0 ∧
    (netProc 0 batch.rv[0]).isOk = true ∧ (netProc 0 batch.rv[1]).isOk = true := by decide +kernel
theorem witness_SampleAdvancesItsPhases :
    (∃ t, exec .sample batch = .next t) ∧ batch.status.jnyOn = false ∧ batch.act.ent ≠ 0 ∧
    batch.act.ntype = 0xFFFFFFFFFFFFFFFF ∧ (∃ t, exec .sample State.reset = .next t) ∧
    State.reset.act.ent = 0 ∧ State.reset.status.capNoise = false :=
  ⟨exists_next (by decide +kernel), rfl, by decide, rfl, exists_next (by decide +kernel), rfl, rfl⟩
/-- A session with a journey and with noise. -/
theorem witness_SampleAdvancesItsPhases_noise :
    (∃ u, exec .jnyEval { noisy with
      status.jnyOn := true, status.capNoise := true, act.ntype := 0, opA := 0 } = .next u) ∧
    (0 : S64) ≠ 0xFFFFFFFFFFFFFFFF := ⟨⟨_, rfl⟩, by decide⟩
/-- A batch in AmplitudeModulated operation with a journey and pink noise, and one without either. -/
theorem witness_SampleFollowsItsSchedule :
    batch.status.capReverb = true ∧ batch.reverbReady ∧ batch.status.jnyOn = false ∧
    batch.act.ent ≠ 0 ∧ (1 : S64) ≠ 0xFFFFFFFFFFFFFFFF ∧
    ∃ u, exec .jnyEval { { batch with act.ent := 0, act.ntype := 1, status.jnyOn := true } with
      opA := fdiv (u64ToF64 batch.pos) batch.act.fs } = .next u :=
  ⟨rfl, witness_SampleEmitsOrRaises.2.1, rfl, by decide, by decide, ⟨_, rfl⟩⟩
theorem witness_SampleZeroIsSilence :
    (∀ k : Fin 5, batch.ph[k] = fZero) ∧ batch.act.ntype = 0xFFFFFFFFFFFFFFFF ∧
    batch.reverbReady ∧ (∀ (c : Fin 2) (j : Fin 5), batch.rv[c].line[j] = []) ∧
    fle fZero batch.act.soft = true ∧ fle batch.act.soft fOne = true ∧
    fisFinite batch.act.gainLin = true ∧ fsign batch.act.gainLin = false := by decide +kernel
theorem witness_AmplitudeModulatedIsMono :
    { batch with act.ent := 0 }.act.ent = 0 ∧ batch.rv[0] = batch.rv[1] ∧
    after .sample { batch with act.ent := 0 } (·.out) = some ([] ++ [⟨0, 0, false⟩]) := by
  decide +kernel
theorem batch_inv : Inv batch where
  memory := by decide +kernel
  cursors := by decide +kernel
  reverb := by decide +kernel
  notPreparing := by decide
  errors := by decide
  pinkCount := by decide
  flags := by decide
theorem witness_EveryStepKeepsTheInvariant :
    Inv { batch with port := [.command 0x5000 1] } ∧
    ∃ t, step { batch with port := [.command 0x5000 1] } = .next t :=
  ⟨⟨batch_inv.memory, batch_inv.cursors, batch_inv.reverb, batch_inv.notPreparing, batch_inv.errors,
    batch_inv.pinkCount, batch_inv.flags⟩, exists_next (by decide +kernel)⟩
theorem witness_HostStepsKeepTheBatch :
    BatchInv { batch with port := [.command 0x5000 2] } ∧ batch.sel = none ∧
    ∃ t, step { batch with port := [.command 0x5000 2] } = .next t :=
  ⟨⟨by decide, by decide, by decide, by decide⟩, rfl, exists_next (by decide +kernel)⟩
/-- PREPARE of a BATCH snapshot with a journey and a TOTAL of 12, from Idle. -/
theorem witness_HostStepsKeepTheBatch_journey :
    BatchInv { ready with
      pend.pulseCnt := 5, pend.carrierCnt := 5, port := [.command 0x4000 0] } ∧
    after .prepare { ready with pend.pulseCnt := 5, pend.carrierCnt := 5 }
      (fun t => (t.status.state, t.status.jnyOn, t.total, keyframesRise t.act.kfT)) =
      some (.rendering, true, 12, true) :=
  ⟨⟨by decide, by decide, by decide, by decide⟩, by decide +kernel⟩
theorem witness_EveryCommandGetsAResponse :
    Inv { batch with port := [.command 0x5000 1] } ∧ batch.sel = none ∧
    { batch with port := [.command 0x5000 1] }.port = .command 0x5000 1 :: [] :=
  ⟨witness_EveryStepKeepsTheInvariant.1, rfl, rfl⟩

end Sys2Proof.Tests
end

section
/-! What no instruction can see of the sink stream OUT. The whole of R35 follows from one law: putting
pairs in front of OUT before an instruction is the same as putting them in front of OUT after it.
An instruction that read OUT back, or dropped a pair of it, would break the law. -/

namespace Sys2Proof.Machine

/-- The state as if `p` had been emitted before everything else. -/
def State.prependOut (p : List OutPair) (s : State) : State := { s with out := p ++ s.out }

/-- A next state changed by `f`, a fault and a refusal as they are. -/
def mapNext (f : State → State) :
    Host.Outcome State Fault Refusal → Host.Outcome State Fault Refusal
  | .next t => .next (f t)
  | .fault r => .fault r
  | .refused r => .refused r

@[simp] theorem mapNext_next (f : State → State) (t : State) :
    mapNext f (.next t) = .next (f t) := rfl
@[simp] theorem mapNext_fault (f : State → State) (r : Fault) :
    mapNext f (.fault r) = .fault r := rfl
@[simp] theorem mapNext_refused (f : State → State) (r : Refusal) :
    mapNext f (.refused r) = .refused r := rfl

theorem mapNext_eq_next {f : State → State} {r : Host.Outcome State Fault Refusal} {t : State}
    (h : mapNext f r = .next t) : ∃ u, r = .next u ∧ f u = t := by
  cases r with
  | next u => exact ⟨u, rfl, by simpa using h⟩
  | fault => simp at h
  | refused => simp at h

/-- What a unit operation answers, with the pairs put in front of OUT in its next state. -/
abbrev prependResult {α : Type} (p : List OutPair) : α × State → α × State :=
  Prod.map id (State.prependOut p)

/-! ### What reads the same -/

@[simp] theorem prependOut_pend (p : List OutPair) (s : State) : (s.prependOut p).pend = s.pend := rfl
@[simp] theorem prependOut_act (p : List OutPair) (s : State) : (s.prependOut p).act = s.act := rfl
@[simp] theorem prependOut_status (p : List OutPair) (s : State) :
    (s.prependOut p).status = s.status := rfl
@[simp] theorem prependOut_rv (p : List OutPair) (s : State) : (s.prependOut p).rv = s.rv := rfl
@[simp] theorem prependOut_nz (p : List OutPair) (s : State) : (s.prependOut p).nz = s.nz := rfl
@[simp] theorem prependOut_delayCap (p : List OutPair) (s : State) :
    (s.prependOut p).delayCap = s.delayCap := rfl
@[simp] theorem prependOut_opLast (p : List OutPair) (s : State) :
    (s.prependOut p).opLast = s.opLast := rfl
@[simp] theorem readReg_prependOut (p : List OutPair) (s : State) (r : Reg) :
    readReg (s.prependOut p) r = readReg s r := by cases r <;> rfl

/-! ### The shared updates of the state -/

@[simp] theorem setPh_prependOut (p : List OutPair) (s : State) (k : Fin 5) (v : F64) :
    (s.prependOut p).setPh k v = (s.setPh k v).prependOut p := rfl
@[simp] theorem respond_prependOut (p : List OutPair) (s : State) (c : Resp) (d : U64) :
    respond c d (s.prependOut p) = (respond c d s).prependOut p := rfl
@[simp] theorem refuse_prependOut (p : List OutPair) (s : State) (c : Resp) :
    refuse c (s.prependOut p) = (refuse c s).prependOut p := rfl
@[simp] theorem raiseError_prependOut (p : List OutPair) (s : State) (e : SessionError) :
    raiseError e (s.prependOut p) = (raiseError e s).prependOut p := rfl
@[simp] theorem result_prependOut (p : List OutPair) (s : State) (v : F64) :
    result v (s.prependOut p) = (result v s).prependOut p := rfl

/-- The one operation that writes OUT puts its pair behind the others. -/
@[simp] theorem emit_prependOut (p : List OutPair) (s : State) (l r : F64) (last : Bool) :
    emit l r last (s.prependOut p) = (emit l r last s).prependOut p := by
  simp [emit, State.prependOut]

@[simp] theorem paAdv_prependOut (p : List OutPair) (k : Fin 5) (inc : F64) (s : State) :
    paAdv k inc (s.prependOut p) = (paAdv k inc s).prependOut p :=
  setPh_prependOut p s k _

/-! ### The noise unit -/

theorem pinkRow_prependOut (p : List OutPair) (n : U64) (s : State) (i : Fin 7) :
    pinkRow n (s.prependOut p) i = (pinkRow n s i).prependOut p := by
  simp only [pinkRow, apply_ite (State.prependOut p)]
  rfl

@[simp] theorem pinkRows_prependOut (p : List OutPair) (n : U64) (s : State) :
    pinkRows n (s.prependOut p) = (pinkRows n s).prependOut p :=
  List.foldl_hom (State.prependOut p) (pinkRow_prependOut p n)

@[simp] theorem nzPink_prependOut (p : List OutPair) (s : State) :
    nzPink (s.prependOut p) = prependResult p (nzPink s) := by
  simp only [nzPink, prependOut_nz, pinkRows_prependOut, Prod.map_apply, id]
  rfl

@[simp] theorem nzGenerate_prependOut (p : List OutPair) (s : State) :
    nzGenerate (s.prependOut p) = prependResult p (nzGenerate s) := by
  simp only [nzGenerate, prependOut_act, nzPink_prependOut, apply_ite (prependResult p)]
  rfl

@[simp] theorem nzProc_prependOut (p : List OutPair) (s : State) :
    nzProc (s.prependOut p) = prependResult p (nzProc s) := by
  simp only [nzProc, nzGenerate_prependOut]
  rfl

/-! ### SAMPLE -/

@[simp] theorem sampleFreq_prependOut (p : List OutPair) (s : State) :
    sampleFreq (s.prependOut p) = sampleFreq s := rfl

@[simp] theorem advanceAm_prependOut (p : List OutPair) (fp fc : F64) (s : State) :
    advanceAm fp fc (s.prependOut p) = (advanceAm fp fc s).prependOut p := by
  rw [advanceAm, paAdv_prependOut, paAdv_prependOut]
  rfl

@[simp] theorem advanceBinaural_prependOut (p : List OutPair) (fp fc : F64) (s : State) :
    advanceBinaural fp fc (s.prependOut p) = (advanceBinaural fp fc s).prependOut p := by
  rw [advanceBinaural, paAdv_prependOut, paAdv_prependOut]
  rfl

@[simp] theorem sampleAdvance_prependOut (p : List OutPair) (s : State) :
    sampleAdvance (s.prependOut p) = (sampleAdvance s).prependOut p := by
  simp only [sampleAdvance, prependOut_act, sampleFreq_prependOut, advanceAm_prependOut,
    advanceBinaural_prependOut, apply_ite (State.prependOut p)]

@[simp] theorem sampleNoise_prependOut (p : List OutPair) (s : State) :
    sampleNoise (s.prependOut p) = prependResult p (sampleNoise s) := by
  simp only [sampleNoise, nzProc_prependOut, apply_ite (prependResult p)]
  rfl

@[simp] theorem dryOf_prependOut (p : List OutPair) (s : State) :
    dryOf (s.prependOut p) = dryOf s := by
  simp only [dryOf, sampleAdvance_prependOut, sampleNoise_prependOut]
  rfl

@[simp] theorem afterDry_prependOut (p : List OutPair) (s : State) :
    afterDry (s.prependOut p) = (afterDry s).prependOut p := by
  simp only [afterDry, sampleAdvance_prependOut, sampleNoise_prependOut]
  rfl

@[simp] theorem rvProc_prependOut (p : List OutPair) (c : Fin 2) (x : F64) (s : State) :
    rvProc c x (s.prependOut p) = (rvProc c x s).map (prependResult p) := by
  simp only [rvProc, prependOut_rv]
  cases netProc x s.rv[c] <;> rfl

@[simp] theorem sampleWet_prependOut (p : List OutPair) (dry : Pair) (s : State) :
    sampleWet dry (s.prependOut p) = (sampleWet dry s).map (prependResult p) := by
  unfold sampleWet
  cases hr : s.status.capReverb with
  | false => simp [hr, Except.map]
  | true =>
    cases h0 : rvProc 0 dry.left s with
    | error f => simp [hr, h0, Except.map]
    | ok r0 =>
      cases h1 : rvProc 1 dry.right r0.2 with
      | error f => simp [hr, h0, h1, Except.map]
      | ok r1 => simp [hr, h0, h1, Except.map]

@[simp] theorem sampleFinish_prependOut (p : List OutPair) (last : Bool) (y : Pair) (s : State) :
    sampleFinish last y (s.prependOut p) = prependResult p (sampleFinish last y s) := by
  simp only [sampleFinish, emit_prependOut, apply_ite (prependResult p)]
  rfl

@[simp] theorem sampleRun_prependOut (p : List OutPair) (last : Bool) (s : State) :
    sampleRun last (s.prependOut p) = (sampleRun last s).map (prependResult p) := by
  simp only [sampleRun, dryOf_prependOut, afterDry_prependOut, sampleWet_prependOut]
  cases sampleWet (dryOf s) (afterDry s) with
  | error f => rfl
  | ok r => exact congrArg Except.ok (sampleFinish_prependOut p last _ r.2)

theorem execSample_prependOut (p : List OutPair) (s : State) :
    execSample (s.prependOut p) = mapNext (State.prependOut p) (execSample s) := by
  simp only [execSample, prependOut_opLast, sampleRun_prependOut]
  cases sampleRun s.opLast s <;> rfl

/-! ### The loop of RENDER -/

theorem renderLoop_prependOut (p : List OutPair) (k cnt : Nat) (s : State) :
    renderLoop k cnt (s.prependOut p) =
      (renderLoop k cnt s).map (Prod.map id (prependResult p)) := by
  induction k generalizing cnt s with
  | zero => rfl
  | succ k ih =>
    have hm : moreSamples (s.prependOut p) = moreSamples s := rfl
    have hl : lastFlag k (s.prependOut p) = lastFlag k s := rfl
    simp only [renderLoop, hm, hl, sampleRun_prependOut]
    cases moreSamples s with
    | false => rfl
    | true =>
      cases sampleRun (lastFlag k s) s with
      | error f => rfl
      | ok r =>
        obtain ⟨e, s'⟩ := r
        cases e with
        | raised => rfl
        | emitted => exact ih (cnt + 1) s'

@[simp] theorem finishRender_prependOut (p : List OutPair) (s : State) :
    finishRender (s.prependOut p) = (finishRender s).prependOut p := by
  simp only [finishRender, apply_ite (State.prependOut p)]
  rfl

/-- The state that the loop of RENDER begins in. -/
theorem renderStart_prependOut (p : List OutPair) (s : State) :
    (if (s.prependOut p).act.mode = 1 then snapshot (s.prependOut p) else s.prependOut p) =
      (if s.act.mode = 1 then snapshot s else s).prependOut p := by
  rw [apply_ite (State.prependOut p)]
  rfl

theorem execRender_prependOut (p : List OutPair) (n : WData) (s : State) :
    execRender n (s.prependOut p) = mapNext (State.prependOut p) (execRender n s) := by
  simp only [execRender, renderStart_prependOut, renderLoop_prependOut, prependOut_status]
  split
  · rfl
  · cases renderLoop n.toNat 0 (if s.act.mode = 1 then snapshot s else s) with
    | error f => rfl
    | ok r =>
      obtain ⟨e, cnt, s'⟩ := r
      cases e with
      | raised => rfl
      | emitted => simp [Except.map]

/-! ### PREPARE -/

@[simp] theorem latchMode_prependOut (p : List OutPair) (s : State) :
    latchMode (s.prependOut p) = (latchMode s).prependOut p := by
  simp only [latchMode, apply_ite (State.prependOut p)]
  rfl

@[simp] theorem prepareUnits_prependOut (p : List OutPair) (s : State) :
    prepareUnits (s.prependOut p) = (prepareUnits s).prependOut p := by
  simp only [prepareUnits, apply_ite (State.prependOut p), apply_ite (rvPrep _)]
  rfl

@[simp] theorem prepareSession_prependOut (p : List OutPair) (s : State) :
    prepareSession (s.prependOut p) = (prepareSession s).prependOut p := by
  have hscalars : latchScalars (s.prependOut p) = (latchScalars s).prependOut p := rfl
  have hbuild (u : State) : jnyBuild (u.prependOut p) = (jnyBuild u).prependOut p := rfl
  have hclear (u : State) : clearCounters (u.prependOut p) = (clearCounters u).prependOut p := rfl
  simp only [prepareSession, hscalars, latchMode_prependOut, hbuild, hclear,
    prepareUnits_prependOut]
  rfl

theorem execPrepare_prependOut (p : List OutPair) (s : State) :
    execPrepare (s.prependOut p) = mapNext (State.prependOut p) (execPrepare s) := by
  by_cases hs : s.status.state = .idle
  · simp only [execPrepare, prependOut_status, prependOut_pend, prependOut_delayCap, hs]
    cases prepareCheck s.pend s.delayCap <;> simp
  · simp [execPrepare, hs]

/-! ### The commands that access registers and delay words -/

theorem execWrreg_prependOut (p : List OutPair) (a : RegAddr) (v : WData) (s : State) :
    execWrreg a v (s.prependOut p) = mapNext (State.prependOut p) (execWrreg a v s) := by
  simp only [execWrreg, prependOut_pend]
  cases regAt a with
  | none => rfl
  | some r => cases h : writePending s.pend v r <;> simp only [h] <;> rfl

theorem execRdreg_prependOut (p : List OutPair) (a : RegAddr) (s : State) :
    execRdreg a (s.prependOut p) = mapNext (State.prependOut p) (execRdreg a s) := by
  unfold execRdreg
  cases regAt a <;> simp

theorem execRdmem_prependOut (p : List OutPair) (d : WData) (s : State) :
    execRdmem d (s.prependOut p) = mapNext (State.prependOut p) (execRdmem d s) := by
  simp only [execRdmem, prependOut_rv]
  cases dmFields d with
  | none => rfl
  | some a =>
    obtain ⟨c, j, o⟩ := a
    cases h : s.rv[c].readWord j o <;> simp only [h] <;> rfl

/-! ### The unit operations that name an accumulator or a line -/

theorem execPaAdv_prependOut (p : List OutPair) (k : BitVec 4) (s : State) :
    execPaAdv k (s.prependOut p) = mapNext (State.prependOut p) (execPaAdv k s) := by
  unfold execPaAdv
  cases accumulatorOf k <;> rfl

theorem execPaVal_prependOut (p : List OutPair) (k : BitVec 4) (s : State) :
    execPaVal k (s.prependOut p) = mapNext (State.prependOut p) (execPaVal k s) := by
  unfold execPaVal
  cases accumulatorOf k <;> rfl

theorem execOscSin_prependOut (p : List OutPair) (k : BitVec 4) (s : State) :
    execOscSin k (s.prependOut p) = mapNext (State.prependOut p) (execOscSin k s) := by
  unfold execOscSin
  cases accumulatorOf k <;> rfl

theorem netOutcome_prependOut (p : List OutPair) (c : Fin 2) (s : State)
    (r : Except Fault (F64 × Network)) :
    netOutcome c (s.prependOut p) r = mapNext (State.prependOut p) (netOutcome c s r) := by
  cases r <;> rfl

theorem execRvComb_prependOut (p : List OutPair) (c : BitVec 1) (j : BitVec 3) (s : State) :
    execRvComb c j (s.prependOut p) = mapNext (State.prependOut p) (execRvComb c j s) := by
  unfold execRvComb
  cases combOf j with
  | none => rfl
  | some i => exact netOutcome_prependOut p _ s _

/-! ### Every instruction -/

/-- Pairs put in front of OUT come through every instruction, and nothing else depends on them. -/
theorem exec_prependOut (p : List OutPair) (i : Instr) (s : State) :
    exec i (s.prependOut p) = mapNext (State.prependOut p) (exec i s) := by
  cases i with
  | wrreg a v => exact execWrreg_prependOut p a v s
  | rdreg a => exact execRdreg_prependOut p a s
  | rdmem d => exact execRdmem_prependOut p d s
  | prepare => exact execPrepare_prependOut p s
  | render n => exact execRender_prependOut p n s
  | paAdv k => exact execPaAdv_prependOut p k s
  | paVal k => exact execPaVal_prependOut p k s
  | oscSin k => exact execOscSin_prependOut p k s
  | nzPink => simp [exec, execNzPink]
  | nzProc => simp [exec, execNzProc]
  | rvComb c j => exact execRvComb_prependOut p c j s
  | rvAp c => exact netOutcome_prependOut p _ s _
  | rvProc c => exact netOutcome_prependOut p _ s _
  | sample => exact execSample_prependOut p s
  | nop | release | paInc | envBatch | envRt | jnyBuild | jnyEval | nzPrep | nzWhite | nzBrown
  | nzLfo | nzLpf | rvPrep | gainLin | mixDry | mixWet | satTanh | satKnee => rfl

/-- The run of an instruction from an empty stream says all about its run from the stream `o`: the
pairs it appends are those it emits there. -/
theorem exec_from_empty_out {i : Instr} {s u : State} (h : exec i { s with out := [] } = .next u)
    (o : List OutPair) : exec i { s with out := o } = .next { u with out := o ++ u.out } := by
  have hs : { s with out := o } = State.prependOut o { s with out := [] } := by
    simp [State.prependOut]
  rw [hs, exec_prependOut, h]
  rfl

/-- Settles O26: by `exec_prependOut`, a run is the run from the empty stream with OUT put in front,
so OUT only grows and what is appended is the same whatever OUT was. -/
theorem outIsAppendOnly : Obligations.OutIsAppendOnly := by
  refine ⟨rfl, fun i s t h => ?_⟩
  have hs : State.prependOut s.out { s with out := [] } = s := by simp [State.prependOut]
  rw [← hs, exec_prependOut] at h
  obtain ⟨u, hu, rfl⟩ := mapNext_eq_next h
  exact ⟨u.out, rfl, exec_from_empty_out hu⟩

end Sys2Proof.Machine
end

section
/-! A delay line as a queue (20_memory.md R76): its words, listed from the cursor on, are what its
accesses read next. An access takes the first of them and puts the word it writes at the end, so that
this word comes up again as many accesses later as the line is long. -/

namespace Sys2Proof.Machine

/-! ### The queue of a line -/

/-- Line `j` is canonical and its cursor in range. -/
structure Network.LineReady (n : Network) (j : Fin 5) : Prop where
  canonical : lineWf (n.len[j]).toNat n.line[j] = true
  inRange : (n.idx[j]).toNat < (n.len[j]).toNat

/-- The word of line `j` that is `d` words after the one at the cursor, around the line. -/
def Network.upcoming (n : Network) (j : Fin 5) (d : Nat) : F64 :=
  lineRead n.line[j] (((n.idx[j]).toNat + d) % (n.len[j]).toNat)

/-- The network after an access to line `j` that writes what `w` gives of the word read. -/
def Network.accessed (n : Network) (j : Fin 5) (w : F64 → F64) : Network :=
  (n.writeWord j (n.idx[j]).toNat (w (n.upcoming j 0))).advance j

theorem upcoming_zero {n : Network} {j : Fin 5} (h : (n.idx[j]).toNat < (n.len[j]).toNat) :
    n.upcoming j 0 = lineRead n.line[j] (n.idx[j]).toNat := by
  rw [Network.upcoming, Nat.add_zero, Nat.mod_eq_of_lt h]

theorem upcoming_cleared {n : Network} {j : Fin 5} (h : n.line[j] = []) (d : Nat) :
    n.upcoming j d = fZero := by
  rw [Network.upcoming, h]
  rfl

theorem nextCursor_toNat {i len : U64} (h : 0 < len.toNat) :
    (nextCursor i len).toNat = (i.toNat + 1) % len.toNat := by
  have hlt := Nat.mod_lt (i.toNat + 1) h
  rw [nextCursor, BitVec.toNat_ofNat, Nat.mod_eq_of_lt (by omega)]

/-- Less than a whole turn from a place of a line never leads back to it. -/
theorem add_mod_ne_self {i d len : Nat} (hi : i < len) (hd : 0 < d) (hlt : d < len) :
    (i + d) % len ≠ i := by
  by_cases h : i + d < len
  · rw [Nat.mod_eq_of_lt h]
    omega
  · rw [Nat.mod_eq_sub_mod (by omega), Nat.mod_eq_of_lt (by omega)]
    omega

/-! ### One access -/

section OneAccess

variable {n : Network} {j : Fin 5} (w : F64 → F64)

theorem access_eq_accessed (h : n.LineReady j) :
    n.access j w = .ok (n.upcoming j 0, n.accessed j w) := by
  rw [access_spec h.inRange, Network.accessed, upcoming_zero h.inRange]
  rfl

@[simp] theorem accessed_len : (n.accessed j w).len = n.len := rfl

@[simp] theorem accessed_idx :
    (n.accessed j w).idx[j] = nextCursor n.idx[j] n.len[j] := by
  simp [Network.accessed, Network.advance, Network.writeWord]

@[simp] theorem accessed_line :
    (n.accessed j w).line[j] =
      lineWrite n.line[j] (n.idx[j]).toNat (w (n.upcoming j 0)) := by
  simp [Network.accessed, Network.advance, Network.writeWord]

theorem accessed_cursor (h : n.LineReady j) :
    ((n.accessed j w).idx[j]).toNat = ((n.idx[j]).toNat + 1) % (n.len[j]).toNat := by
  rw [accessed_idx, nextCursor_toNat (Nat.zero_lt_of_lt h.inRange)]

theorem accessed_lineReady (h : n.LineReady j) : (n.accessed j w).LineReady j where
  canonical := by
    rw [accessed_len, accessed_line]
    exact lineWrite_wf h.canonical h.inRange
  inRange := by
    rw [accessed_len, accessed_idx]
    exact nextCursor_lt (Nat.zero_lt_of_lt h.inRange)

/-- A place seen from the cursor after an access, in terms of the line before it: all is one word
nearer, and the word just read is the one written. -/
theorem upcoming_accessed (h : n.LineReady j) (d : Nat) :
    (n.accessed j w).upcoming j d =
      if ((n.idx[j]).toNat + (d + 1)) % (n.len[j]).toNat = (n.idx[j]).toNat
      then w (n.upcoming j 0) else n.upcoming j (d + 1) := by
  have hplace : (((n.idx[j]).toNat + 1) % (n.len[j]).toNat + d) % (n.len[j]).toNat =
      ((n.idx[j]).toNat + (d + 1)) % (n.len[j]).toNat := by
    rw [Nat.mod_add_mod, Nat.add_assoc, Nat.add_comm 1 d]
  rw [Network.upcoming, accessed_cursor w h, accessed_len, accessed_line, hplace,
    lineRead_write h.canonical]
  rfl

theorem upcoming_accessed_of_lt (h : n.LineReady j) {d : Nat} (hd : d + 1 < (n.len[j]).toNat) :
    (n.accessed j w).upcoming j d = n.upcoming j (d + 1) := by
  rw [upcoming_accessed w h, if_neg (add_mod_ne_self h.inRange (Nat.succ_pos d) hd)]

/-- The word written is the last to come up. -/
theorem upcoming_accessed_last (h : n.LineReady j) {d : Nat} (hd : d + 1 = (n.len[j]).toNat) :
    (n.accessed j w).upcoming j d = w (n.upcoming j 0) := by
  rw [upcoming_accessed w h, if_pos (by rw [hd, Nat.add_mod_right, Nat.mod_eq_of_lt h.inRange])]

end OneAccess

/-! ### A sequence of accesses -/

/-- What accesses to line `j` of `n` that write by `ws` give: `rs` are the words read and `n'` is the
network after them. -/
structure DelayRun (n : Network) (j : Fin 5) (ws : List (F64 → F64)) (rs : List F64)
    (n' : Network) : Prop where
  length : rs.length = ws.length
  len : n'.len = n.len
  cursor : (n'.idx[j]).toNat = ((n.idx[j]).toNat + ws.length) % (n.len[j]).toNat
  /-- The first turn reads what stood on the line. -/
  firstTurn : ∀ k, k < (n.len[j]).toNat → k < rs.length → rs[k]? = some (n.upcoming j k)
  /-- After it, an access reads what the access a whole turn earlier wrote. -/
  delay : ∀ k w r, ws[k]? = some w → rs[k]? = some r → k + (n.len[j]).toNat < rs.length →
    rs[k + (n.len[j]).toNat]? = some (w r)

theorem DelayRun.nil {n : Network} {j : Fin 5} (h : n.LineReady j) : DelayRun n j [] [] n where
  length := rfl
  len := rfl
  cursor := (Nat.mod_eq_of_lt h.inRange).symm
  firstTurn := by simp
  delay := by simp

/-- An access before a sequence: its read is the head of the queue, and its write is the end of the
first turn of the rest. -/
theorem DelayRun.cons {n n' : Network} {j : Fin 5} {w : F64 → F64} {ws : List (F64 → F64)}
    {rs : List F64} (h : n.LineReady j) (hrun : DelayRun (n.accessed j w) j ws rs n') :
    DelayRun n j (w :: ws) (n.upcoming j 0 :: rs) n' where
  length := by simp [hrun.length]
  len := hrun.len
  cursor := by
    rw [hrun.cursor, accessed_cursor w h, accessed_len, Nat.mod_add_mod, List.length_cons,
      Nat.add_assoc, Nat.add_comm 1]
  firstTurn
    | 0, _, _ => rfl
    | k + 1, hk, hlen => by
      rw [← upcoming_accessed_of_lt w h hk]
      exact hrun.firstTurn k (Nat.lt_of_succ_lt hk) (Nat.lt_of_succ_lt_succ hlen)
  delay
    | 0, v, r, hv, hr, hlen => by
      obtain rfl : w = v := Option.some.inj hv
      obtain rfl : n.upcoming j 0 = r := Option.some.inj hr
      obtain ⟨d, hd⟩ := Nat.exists_eq_succ_of_ne_zero (Nat.ne_zero_of_lt h.inRange)
      rw [hd, Nat.zero_add] at hlen ⊢
      rw [← upcoming_accessed_last w h hd.symm]
      exact hrun.firstTurn d (hd ▸ Nat.lt_succ_self d) (Nat.lt_of_succ_lt_succ hlen)
    | k + 1, v, r, hv, hr, hlen => by
      rw [Nat.succ_add] at hlen ⊢
      exact hrun.delay k v r hv hr (Nat.lt_of_succ_lt_succ hlen)

theorem accessRun_delayRun {j : Fin 5} (ws : List (F64 → F64)) {n : Network} (h : n.LineReady j) :
    ∃ rs n', accessRun j ws n = .ok (rs, n') ∧ DelayRun n j ws rs n' := by
  induction ws generalizing n with
  | nil => exact ⟨[], n, rfl, .nil h⟩
  | cons w ws ih =>
    obtain ⟨rs, n', hok, hrun⟩ := ih (accessed_lineReady w h)
    refine ⟨n.upcoming j 0 :: rs, n', ?_, .cons h hrun⟩
    simp only [accessRun, access_eq_accessed w h, hok]

/-! ### The filters -/

/-- The all-pass is one access to the fifth line; its output is a function of the word read. -/
theorem netAp_eq_ok_iff {n n' : Network} {x y : F64} :
    netAp x n = .ok (y, n') ↔
      ∃ r, n.access 4 (fun d => fadd x (fmul gAp (apOut x d))) = .ok (r, n') ∧ y = apOut x r := by
  unfold netAp
  cases n.access 4 (fun d => fadd x (fmul gAp (apOut x d))) with
  | error f => simp
  | ok p =>
    obtain ⟨d, m⟩ := p
    simp only [Except.ok.injEq, Prod.mk.injEq]
    constructor
    · rintro ⟨rfl, rfl⟩
      exact ⟨d, ⟨rfl, rfl⟩, rfl⟩
    · rintro ⟨r, ⟨rfl, rfl⟩, rfl⟩
      exact ⟨rfl, rfl⟩

/-- Settles O45: by `accessRun_delayRun` the accesses serve the line's words as a queue; the combs are
accesses by definition and the all-pass is one by `netAp_eq_ok_iff`. -/
theorem delayLineIsADelay : Obligations.DelayLineIsADelay := by
  refine ⟨fun n j ws hwf hcur => ?_, fun _ _ _ => rfl, fun _ _ _ _ => netAp_eq_ok_iff⟩
  obtain ⟨rs, n', hok, hrun⟩ := accessRun_delayRun ws ⟨hwf, hcur⟩
  refine ⟨rs, n', hok, hrun.length, hrun.len, hrun.cursor, fun hone => ?_, fun k hk w hw => ?_,
    fun hclear k hk hlt => ?_⟩
  · have hzero : (n'.idx[j]).toNat = 0 := by rw [hrun.cursor, hone, Nat.mod_one]
    exact BitVec.eq_of_toNat_eq hzero
  · have hr : rs[k]? = some rs[k] := List.getElem?_eq_getElem (by omega)
    exact (List.getElem?_eq_some_iff.mp (hrun.delay k w _ hw hr hk)).2
  · have hread := hrun.firstTurn k hlt hk
    rw [upcoming_cleared hclear] at hread
    exact (List.getElem?_eq_some_iff.mp hread).2

end Sys2Proof.Machine
end

section
/-! The host decoder as the table of the host commands (30_encoding.md R85): a row is a word given by
its three fields, its mask keeps the fields it fixes, and the decoder accepts a word exactly when a
row has it. Every other word is refused at the port (R87). -/

namespace Sys2Proof

/-! ### A word and its fields -/

@[simp] theorem opField_fields (op k : BitVec 4) (a : BitVec 8) :
    opField (fields op k a) = op.toNat := by
  rw [opField, fields, BitVec.extractLsb'_append_eq_of_le (by decide),
    BitVec.extractLsb'_append_eq_left]

@[simp] theorem kField_fields (op k : BitVec 4) (a : BitVec 8) : kField (fields op k a) = k := by
  rw [kField, fields, BitVec.extractLsb'_append_eq_of_le (by decide),
    BitVec.extractLsb'_append_eq_right]

@[simp] theorem aField_fields (op k : BitVec 4) (a : BitVec 8) : aField (fields op k a) = a :=
  BitVec.extractLsb'_append_eq_right

theorem fields_of_word (w : CmdWord) : fields (w.extractLsb' 12 4) (kField w) (aField w) = w := by
  rw [fields, kField,
    BitVec.extractLsb'_append_extractLsb'_eq_extractLsb' (start₁ := 8) (len₁ := 4) rfl]
  exact BitVec.extractLsb'_append_extractLsb'

/-- A word is known by its three fields. -/
theorem eq_fields {w : CmdWord} {op k : BitVec 4} {a : BitVec 8} (hop : opField w = op.toNat)
    (hk : kField w = k) (ha : aField w = a) : w = fields op k a := by
  rw [← fields_of_word w, hk, ha, BitVec.eq_of_toNat_eq hop]

/-! ### The two masks -/

/-- The mask of format H0 keeps the whole word. -/
theorem and_maskH0 (w : CmdWord) : w &&& 0xFFFF = w := BitVec.and_allOnes

/-- The mask of format HA drops the address. -/
theorem fields_and_maskHA (op k : BitVec 4) (a : BitVec 8) :
    fields op k a &&& 0xFF00 = fields op k 0 := by
  have hmask : (0xFF00 : CmdWord) = BitVec.allOnes 4 ++ BitVec.allOnes 4 ++ 0#8 := by decide
  rw [hmask, fields, BitVec.and_append, BitVec.and_append, BitVec.and_allOnes, BitVec.and_allOnes,
    BitVec.and_zero]
  rfl

/-- A match under the mask of format HA fixes the opcode and the instance of a word. -/
theorem fields_of_and_maskHA {w : CmdWord} {op k : BitVec 4} (h : w &&& 0xFF00 = fields op k 0) :
    opField w = op.toNat ∧ kField w = k := by
  rw [← fields_of_word w, fields_and_maskHA] at h
  constructor
  · rw [opField, ← opField_fields _ (kField w) 0, h, opField_fields]
  · rw [← kField_fields (w.extractLsb' 12 4) (kField w) 0, h, kField_fields]

/-! ### The rows -/

/-- The rows of the host-command table with operand word `d`: a word and its command. -/
inductive HostRow (d : WData) : CmdWord → Instr → Prop where
  | nop : HostRow d (fields 0 0 0) .nop
  | wrreg (a : RegAddr) : HostRow d (fields 1 0 a) (.wrreg a d)
  | rdreg (a : RegAddr) : HostRow d (fields 2 0 a) (.rdreg a)
  | rdmem : HostRow d (fields 3 0 0) (.rdmem d)
  | prepare : HostRow d (fields 4 0 0) .prepare
  | render : HostRow d (fields 5 0 0) (.render d)
  | release : HostRow d (fields 6 0 0) .release

theorem HostRow.wrreg_of_fields {w : CmdWord} {d : WData} (hop : opField w = 1)
    (hk : kField w = 0) : HostRow d w (.wrreg (aField w) d) := by
  rw [eq_fields (op := 1) hop hk rfl, aField_fields]
  exact .wrreg _

theorem HostRow.rdreg_of_fields {w : CmdWord} {d : WData} (hop : opField w = 2)
    (hk : kField w = 0) : HostRow d w (.rdreg (aField w)) := by
  rw [eq_fields (op := 2) hop hk rfl, aField_fields]
  exact .rdreg _

theorem formatH0_eq_ok_iff {w : CmdWord} {i j : Instr} :
    formatH0 w i = .ok j ↔ aField w = 0 ∧ i = j := by
  by_cases ha : aField w = 0
  · rw [formatH0, if_pos ha, Except.ok.injEq, and_iff_right ha]
  · rw [formatH0, if_neg ha]
    simp only [reduceCtorEq, ha, false_and]

/-- The decoder accepts exactly the words of the rows; its arms stand in the order of the opcodes. -/
theorem decodeHost_eq_ok_iff {w : CmdWord} {d : WData} {i : Instr} :
    decodeHost w d = .ok i ↔ HostRow d w i := by
  constructor
  · intro h
    unfold decodeHost at h
    split_ifs at h with _ _ hk
    have hk : kField w = 0 := not_not.mp hk
    split at h
    case h_2 hop =>
      cases h
      exact .wrreg_of_fields hop hk
    case h_3 hop =>
      cases h
      exact .rdreg_of_fields hop hk
    case h_8 => cases h
    all_goals
      rename_i hop
      obtain ⟨ha, rfl⟩ := formatH0_eq_ok_iff.mp h
    case h_1 => exact eq_fields (op := 0) hop hk ha ▸ .nop
    case h_4 => exact eq_fields (op := 3) hop hk ha ▸ .rdmem
    case h_5 => exact eq_fields (op := 4) hop hk ha ▸ .prepare
    case h_6 => exact eq_fields (op := 5) hop hk ha ▸ .render
    case h_7 => exact eq_fields (op := 6) hop hk ha ▸ .release
  · intro h
    cases h <;> simp [decodeHost, formatH0]

/-- A row of the host-command table selects the word by its match and mask columns. -/
def SelectedByHostRow (w : CmdWord) : Prop :=
  w &&& 0xFFFF = 0x0000 ∨ w &&& 0xFF00 = 0x1000 ∨ w &&& 0xFF00 = 0x2000 ∨
  w &&& 0xFFFF = 0x3000 ∨ w &&& 0xFFFF = 0x4000 ∨ w &&& 0xFFFF = 0x5000 ∨
  w &&& 0xFFFF = 0x6000

theorem HostRow.selected {w : CmdWord} {d : WData} {i : Instr} (h : HostRow d w i) :
    SelectedByHostRow w := by
  unfold SelectedByHostRow
  cases h with
  | wrreg a => exact .inr (.inl (fields_and_maskHA 1 0 a))
  | rdreg a => exact .inr (.inr (.inl (fields_and_maskHA 2 0 a)))
  | nop | rdmem | prepare | render | release => decide

/-- A word that no row selects is rejected whatever its operand word. -/
theorem decodeHost_error_of_not_selected {w : CmdWord} (h : ¬ SelectedByHostRow w) (d : WData) :
    ∃ e, decodeHost w d = .error e := by
  cases hd : decodeHost w d with
  | error e => exact ⟨e, rfl⟩
  | ok i => exact absurd (decodeHost_eq_ok_iff.mp hd).selected h

/-- Settles O3: the rows are those of `decodeHost_eq_ok_iff`, and a mask and match fix the word up to
the address (`fields_of_and_maskHA`). -/
theorem hostCommandRows : Obligations.HostCommandRows := by
  intro w d
  simp only [and_maskH0, decodeHost_eq_ok_iff]
  refine ⟨?nop, ?wrreg, ?rdreg, ?rdmem, ?prepare, ?render, ?release, ?converse⟩
  case wrreg =>
    intro h
    obtain ⟨hop, hk⟩ := fields_of_and_maskHA (op := 1) (k := 0) h
    exact .wrreg_of_fields hop hk
  case rdreg =>
    intro h
    obtain ⟨hop, hk⟩ := fields_of_and_maskHA (op := 2) (k := 0) h
    exact .rdreg_of_fields hop hk
  case nop => exact fun h => h ▸ .nop
  case rdmem => exact fun h => h ▸ .rdmem
  case prepare => exact fun h => h ▸ .prepare
  case render => exact fun h => h ▸ .render
  case release => exact fun h => h ▸ .release
  case converse =>
    rintro ⟨i, hi⟩
    simpa only [SelectedByHostRow, and_maskH0] using hi.selected

end Sys2Proof

namespace Sys2Proof.Machine

/-! ### The refusal -/

/-- The companion of `fetch_command`, for a word the decoder rejects. -/
theorem fetch_illegal {s : State} {w : CmdWord} {d : WData} {rest : List PortEvent} {e : Reject}
    (hs : s.sel = none) (hp : s.port = .command w d :: rest) (hd : decodeHost w d = .error e) :
    fetch s = .illegal (popPort s) := by
  simp only [fetch, hs, hp, hd]

theorem popPort_eq {s : State} {e : PortEvent} {rest : List PortEvent} (hp : s.port = e :: rest) :
    popPort s = { s with port := rest } := by
  rw [popPort, hp, List.tail_cons]

/-- A delay-word address ends at bit 35. -/
theorem dmFields_eq_none_of_ge {d : WData} (h : 2 ^ 36 ≤ d.toNat) : dmFields d = none := by
  have hne : d.extractLsb' 36 28 ≠ 0 := by
    intro h0
    have hbits : d.toNat / 2 ^ 36 % 2 ^ 28 = 0 := by
      rw [← Nat.shiftRight_eq_div_pow, ← BitVec.extractLsb'_toNat, h0]
      rfl
    have hlt := d.isLt
    omega
  rw [dmFields, if_pos hne]

/-- Settles O8: a word of no row is rejected by the decoder (`decodeHost_error_of_not_selected`) and an
operand with a bit above 35 is no delay-word address (`dmFields_eq_none_of_ge`). -/
theorem illegalWordsAreRefused : Obligations.IllegalWordsAreRefused := by
  refine ⟨fun s w d rest hs hp hrow => ?_, fun s d h => ?_⟩
  · have hsel : ¬ SelectedByHostRow w := by simpa only [SelectedByHostRow, not_or] using hrow
    obtain ⟨e, hd⟩ := decodeHost_error_of_not_selected hsel d
    simp only [step, fetch_illegal hs hp hd, popPort_eq hp]
    rfl
  · simp only [exec, execRdmem, dmFields_eq_none_of_ge h]
    rfl

end Sys2Proof.Machine
end

section
/-! The register map read both ways (10_state.md R37), the reading and the writing of a register as
rules over it, and the two commands that use them: WRREG and RDREG (46_engine_commands.md R212,
R213). -/

namespace Sys2Proof.Machine

/-! ### The map -/

/-- A lookup by the address `n` that finds no register but the one at that address. -/
def FindsOnlyAt (n : Nat) (found : Option Reg) : Prop :=
  ∀ r, found = some r → (regAddr r).toNat = n

theorem FindsOnlyAt.orElse {n : Nat} {x y : Option Reg} (hx : FindsOnlyAt n x)
    (hy : FindsOnlyAt n y) : FindsOnlyAt n (x <|> y) := by
  intro r h
  rcases (Option.orElse_eq_some x y r).mp h with h | ⟨-, h⟩
  · exact hx r h
  · exact hy r h

theorem FindsOnlyAt.block {base n : Nat} {array : Fin 5 → Reg}
    (hbase : ∀ i, (regAddr (array i)).toNat = base + i.val) :
    FindsOnlyAt n ((blockIndex base n).map array) := by
  intro r h
  unfold blockIndex at h
  split at h
  case isTrue hin =>
    cases h
    rw [hbase]
    exact Nat.add_sub_cancel' hin.1
  case isFalse => cases h

theorem FindsOnlyAt.row {base n : Nat} {array : Fin 7 → Reg}
    (hbase : ∀ i, (regAddr (array i)).toNat = base + i.val) :
    FindsOnlyAt n ((rowIndex base n).map array) := by
  intro r h
  unfold rowIndex at h
  split at h
  case isTrue hin =>
    cases h
    rw [hbase]
    exact Nat.add_sub_cancel' hin.1
  case isFalse => cases h

theorem arrayAt_findsOnlyAt (n : Nat) : FindsOnlyAt n (arrayAt n) := by
  refine .orElse (.block ?pulse) <| .orElse (.block ?carrier) <| .orElse (.block ?aPulse) <|
    .orElse (.block ?aCarrier) <| .orElse (.block ?kfT) <| .orElse (.block ?ph) <|
    .orElse (.row ?nzRow) <| .orElse (.block ?rvLen0) <| .orElse (.block ?rvLen1) <|
    .orElse (.block ?rvIdx0) (.block ?rvIdx1)
  all_goals decide

theorem regAddr_of_regAt {a : RegAddr} {r : Reg} (h : regAt a = some r) : regAddr r = a := by
  apply BitVec.eq_of_toNat_eq
  unfold regAt at h
  split at h
  case h_27 => exact arrayAt_findsOnlyAt _ _ h
  all_goals
    rename_i ha
    cases h
    exact ha.symm

@[simp] theorem regAt_regAddr (r : Reg) : regAt (regAddr r) = some r := by
  cases r with
  | pulse i | carrier i | aPulse i | aCarrier i | kfT i | ph i | nzRow i => revert i; decide
  | rvLen c j | rvIdx c j => revert c j; decide
  | mode | sampleRate | duration | softness | gainDb | entType | noiseType | noiseLevel | pulseCnt
  | carrierCnt | status | pos | total | draws | aMode | aFs | aSoft | aGainDb | gainLin | aEnt
  | aNtype | aNlevel | nzBrown | nzLpf | nzCnt | nzLfoRate => rfl

/-- The map is one to one between the defined addresses and the registers. -/
theorem regAt_eq_some_iff {a : RegAddr} {r : Reg} : regAt a = some r ↔ regAddr r = a :=
  ⟨regAddr_of_regAt, fun h => h ▸ regAt_regAddr r⟩

/-! ### Writing a register -/

/-- The RW registers are those below address 0x20. -/
theorem writePending_isSome_iff {p : Pending} {v : U64} {r : Reg} :
    (writePending p v r).isSome = true ↔ (regAddr r).toNat < 0x20 := by
  cases r with
  | pulse i | carrier i | aPulse i | aCarrier i | kfT i | ph i | nzRow i | rvLen c i | rvIdx c i =>
    simp only [writePending, regAddr, BitVec.toNat_ofNat, Option.isSome_some, Option.isSome_none,
      Bool.false_eq_true, true_iff, false_iff]
    omega
  | mode | sampleRate | duration | softness | gainDb | entType | noiseType | noiseLevel | pulseCnt
  | carrierCnt | status | pos | total | draws | aMode | aFs | aSoft | aGainDb | gainLin | aEnt
  | aNtype | aNlevel | nzBrown | nzLpf | nzCnt | nzLfoRate => simp [writePending, regAddr]

theorem writePending_readOnly {p : Pending} {v : U64} {r : Reg} (h : 0x20 ≤ (regAddr r).toNat) :
    writePending p v r = none := by
  rw [← Option.not_isSome_iff_eq_none, writePending_isSome_iff]
  omega

/-- A read after a write: the value written in that register, the register as before elsewhere. -/
theorem readReg_writePending {s : State} {v : U64} {r : Reg} {p : Pending}
    (h : writePending s.pend v r = some p) (q : Reg) :
    readReg { s with pend := p } q = if q = r then v else readReg s q := by
  cases r with
  | pulse i =>
    cases h
    cases q with
    | pulse j => simp [readReg, Vector.getElem_set, Fin.ext_iff, eq_comm]
    | _ => rfl
  | carrier i =>
    cases h
    cases q with
    | carrier j => simp [readReg, Vector.getElem_set, Fin.ext_iff, eq_comm]
    | _ => rfl
  | mode | sampleRate | duration | softness | gainDb | entType | noiseType | noiseLevel | pulseCnt
  | carrierCnt =>
    cases h
    cases q <;> rfl
  | status | pos | total | draws | aMode | aFs | aSoft | aGainDb | gainLin | aEnt | aNtype | aNlevel
  | aPulse | aCarrier | kfT | ph | nzBrown | nzLpf | nzCnt | nzLfoRate | nzRow | rvLen | rvIdx =>
    cases h

/-! ### WRREG -/

/-- The word of a command of format HA is its match column with the address in its low byte. -/
theorem fields_eq_or_address (op k : BitVec 4) (a : BitVec 8) :
    fields op k a = fields op k 0#8 ||| a.setWidth 16 := by
  have haddress : a.setWidth 16 = (0#8) ++ a := BitVec.setWidth_eq_append (by decide)
  rw [haddress, fields, fields, BitVec.or_append, BitVec.or_zero, BitVec.zero_or]

theorem exec_wrreg_undefined {a : RegAddr} (h : regAt a = none) (v : WData) (s : State) :
    exec (.wrreg a v) s = .next (refuse .errAddr s) := by
  simp only [exec, execWrreg, h]

theorem exec_wrreg_readOnly {r : Reg} {s : State} {v : WData}
    (h : writePending s.pend v r = none) :
    exec (.wrreg (regAddr r) v) s = .next (refuse .errRo s) := by
  simp only [exec, execWrreg, regAt_regAddr, h]

theorem exec_wrreg_writable {r : Reg} {s : State} {v : WData} {p : Pending}
    (h : writePending s.pend v r = some p) :
    exec (.wrreg (regAddr r) v) s = .next (respond .ok 0 { s with pend := p }) := by
  simp only [exec, execWrreg, regAt_regAddr, h]

/-- Settles O12: the register at the address is writable exactly below 0x20
(`writePending_isSome_iff`), and reads after the write are those of `readReg_writePending`. -/
theorem wrregWritesOnePendingRegister : Obligations.WrregWritesOnePendingRegister := by
  intro a v s
  refine ⟨fields_eq_or_address 1 0 a, fun h => exec_wrreg_undefined h v s, fun r hr hro => ?_,
    fun r hr hrw => ?_⟩
  · obtain rfl := regAddr_of_regAt hr
    exact exec_wrreg_readOnly (writePending_readOnly hro)
  · obtain rfl := regAddr_of_regAt hr
    obtain ⟨p, hp⟩ := Option.isSome_iff_exists.mp (writePending_isSome_iff.mpr hrw)
    refine ⟨p, exec_wrreg_writable hp, ?_, fun q hq => ?_⟩
    · rw [readReg_writePending hp, if_pos rfl]
    · rw [readReg_writePending hp, if_neg hq]

/-! ### RDREG -/

theorem exec_rdreg_undefined {a : RegAddr} (h : regAt a = none) (s : State) :
    exec (.rdreg a) s = .next (refuse .errAddr s) := by
  simp only [exec, execRdreg, h]

theorem exec_rdreg_regAddr (s : State) (r : Reg) :
    exec (.rdreg (regAddr r)) s = .next (respond .ok (readReg s r) s) := by
  simp only [exec, execRdreg, regAt_regAddr]

theorem toNat_append_eq_add {m n : Nat} (x : BitVec m) (y : BitVec n) :
    (x ++ y).toNat = 2 ^ n * x.toNat + y.toNat := by
  rw [BitVec.toNat_append, ← Nat.shiftLeft_add_eq_or_of_lt y.isLt, Nat.shiftLeft_eq, Nat.mul_comm]

/-- The fields of STATUS by the place of each. -/
theorem statusWord_toNat (st : Status) :
    (statusWord st).toNat =
      (stateCode st.state).toNat + 2 ^ 4 * (errCode st.err).toNat + 2 ^ 8 * st.detail.toNat +
      2 ^ 16 * st.jnyOn.toNat + 2 ^ 17 * st.capNoise.toNat + 2 ^ 18 * st.capReverb.toNat +
      2 ^ 19 * st.capJourney.toNat + 2 ^ 20 * st.envSel.toNat + 2 ^ 21 * st.satSel.toNat := by
  simp only [statusWord, toNat_append_eq_add, BitVec.toNat_ofBool, BitVec.toNat_ofNat,
    Nat.zero_mod]
  ring

/-- Settles O13: each row of the map is `exec_rdreg_regAddr` at a register, and STATUS is
`statusWord_toNat`. -/
theorem rdregReadsTheRegister : Obligations.RdregReadsTheRegister := by
  refine ⟨rfl, rfl, fun a s => ?_⟩
  have hread := exec_rdreg_regAddr s
  refine ⟨fields_eq_or_address 2 0 a, ?scalars, fun i => ?arrays, fun i => hread (.nzRow i),
    fun h => exec_rdreg_undefined h s, fun r hr => ?defined, hread .status,
    statusWord_toNat s.status⟩
  case scalars =>
    simp only [List.forall_mem_cons]
    exact ⟨hread .mode, hread .sampleRate, hread .duration, hread .softness, hread .gainDb,
      hread .entType, hread .noiseType, hread .noiseLevel, hread .pulseCnt, hread .carrierCnt,
      hread .pos, hread .total, hread .draws, hread .aMode, hread .aFs, hread .aSoft,
      hread .aGainDb, hread .gainLin, hread .aEnt, hread .aNtype, hread .aNlevel,
      hread .nzBrown, hread .nzLpf, hread .nzCnt, hread .nzLfoRate, List.forall_mem_nil _⟩
  case arrays =>
    simp only [List.forall_mem_cons]
    exact ⟨hread (.pulse i), hread (.carrier i), hread (.aPulse i), hread (.aCarrier i),
      hread (.kfT i), hread (.ph i), hread (.rvLen 0 i), hread (.rvLen 1 i), hread (.rvIdx 0 i),
      hread (.rvIdx 1 i), List.forall_mem_nil _⟩
  case defined =>
    obtain rfl := regAddr_of_regAt hr
    exact hread r

end Sys2Proof.Machine
end

section
/-! The delay-word address of RDMEM as arithmetic: its fields are quotients and remainders of the
operand (20_memory.md R62, 46_engine_commands.md R215). -/

namespace Sys2Proof.Machine

theorem extractLsb'_toNat_eq_div_mod {n : Nat} (d : BitVec n) (start len : Nat) :
    (d.extractLsb' start len).toNat = d.toNat / 2 ^ start % 2 ^ len := by
  rw [BitVec.extractLsb'_toNat, Nat.shiftRight_eq_div_pow]

/-- There are five lines in a network. -/
theorem dmFields_eq_none_of_line {d : WData} (h : 4 < d.toNat / 2 ^ 32 % 8) :
    dmFields d = none := by
  have hline : ¬ (d.extractLsb' 32 3).toNat < 5 := by
    rw [extractLsb'_toNat_eq_div_mod]
    omega
  rw [dmFields, dif_neg hline, ite_self]

theorem dmFields_of_toNat {d : WData} {c : Fin 2} {j : Fin 5} {o : Nat} (ho : o < 2 ^ 32)
    (hd : d.toNat = c.val * 2 ^ 35 + j.val * 2 ^ 32 + o) : dmFields d = some (c, j, o) := by
  have hhigh : d.extractLsb' 36 28 = 0 := by
    apply BitVec.eq_of_toNat_eq
    rw [extractLsb'_toNat_eq_div_mod, hd]
    change _ = 0
    omega
  have hchannel : channelOf (d.extractLsb' 35 1) = c := by
    apply Fin.ext
    change (d.extractLsb' 35 1).toNat = c.val
    rw [extractLsb'_toNat_eq_div_mod, hd]
    omega
  have hline : (d.extractLsb' 32 3).toNat = j.val := by
    rw [extractLsb'_toNat_eq_div_mod, hd]
    omega
  have hoffset : (d.extractLsb' 0 32).toNat = o := by
    rw [extractLsb'_toNat_eq_div_mod, hd]
    omega
  have hexists : (d.extractLsb' 32 3).toNat < 5 := hline ▸ j.isLt
  rw [dmFields, if_neg (not_not.mpr hhigh), dif_pos hexists]
  simp only [hchannel, hline, hoffset]

theorem exec_rdmem_none {d : WData} (h : dmFields d = none) (s : State) :
    exec (.rdmem d) s = .next (refuse .errAddr s) := by
  simp only [exec, execRdmem, h]

theorem exec_rdmem_some {d : WData} {c : Fin 2} {j : Fin 5} {o : Nat}
    (h : dmFields d = some (c, j, o)) (s : State) :
    exec (.rdmem d) s =
      if o < (s.rv[c].len[j]).toNat then .next (respond .ok (lineRead s.rv[c].line[j] o) s)
      else .next (refuse .errAddr s) := by
  by_cases ho : o < (s.rv[c].len[j]).toNat
  · simp only [exec, execRdmem, h, Network.readWord, Network.wordExists, ho, decide_true, if_true]
  · simp only [exec, execRdmem, h, Network.readWord, Network.wordExists, ho, decide_false, if_false,
      Bool.false_eq_true]

/-- Settles O14: the operand's fields are `c`, `j` and `o` (`dmFields_of_toNat`), or it names no
line. -/
theorem rdmemReadsTheDelayWord : Obligations.RdmemReadsTheDelayWord := by
  refine ⟨by decide, fun s c j o ho => ?_, fun s d h => ?_⟩
  · apply exec_rdmem_some
    apply dmFields_of_toNat ho
    rw [BitVec.toNat_ofNat]
    omega
  · rcases h with h | h
    · exact exec_rdmem_none (dmFields_eq_none_of_ge h) s
    · exact exec_rdmem_none (dmFields_eq_none_of_line h) s

end Sys2Proof.Machine
end

section
/-! Which host command runs in which state (46_engine_commands.md R219), and what each does to the
session (R211, R218). The commands of registers and memory write the pending registers and the
response at most, whatever the state; PREPARE and RENDER are refused outside their state; RELEASE
clears the session in every state. -/

namespace Sys2Proof.Machine

/-! ### NOP -/

/-- Settles O11: NOP is its response. -/
theorem nopOnlyResponds : Obligations.NopOnlyResponds :=
  ⟨by decide, fun _ => rfl⟩

/-! ### Executed -/

/-- The command is executed: it completes with a response that is not the refusal for the state. -/
def Executes (i : Instr) (s : State) : Prop :=
  ∃ c d u, exec i s = .next (respond c d u) ∧ c ≠ .errState

theorem Executes.answers {i : Instr} {s : State} (h : Executes i s) : ∃ t, exec i s = .next t := by
  obtain ⟨c, d, u, he, -⟩ := h
  exact ⟨_, he⟩

theorem Executes.not_errState {i : Instr} {s t : State} (h : Executes i s)
    (ht : exec i s = .next t) (d : U64) : t.resp ≠ some ⟨.errState, d⟩ := by
  obtain ⟨c, d', u, he, hc⟩ := h
  obtain rfl : respond c d' u = t := by simpa [he] using ht
  simp [hc]

/-! ### The commands that no state refuses -/

theorem exec_wrreg_frame (a : RegAddr) (v : WData) (s : State) :
    ∃ c d p, exec (.wrreg a v) s = .next (respond c d { s with pend := p }) ∧ c ≠ .errState := by
  cases ha : regAt a with
  | none => exact ⟨.errAddr, 0, s.pend, exec_wrreg_undefined ha v s, by decide⟩
  | some r =>
    obtain rfl := regAddr_of_regAt ha
    cases hp : writePending s.pend v r with
    | none => exact ⟨.errRo, 0, s.pend, exec_wrreg_readOnly hp, by decide⟩
    | some p => exact ⟨.ok, 0, p, exec_wrreg_writable hp, by decide⟩

theorem exec_rdreg_frame (a : RegAddr) (s : State) :
    ∃ c d, exec (.rdreg a) s = .next (respond c d s) ∧ c ≠ .errState := by
  cases ha : regAt a with
  | none => exact ⟨.errAddr, 0, exec_rdreg_undefined ha s, by decide⟩
  | some r =>
    obtain rfl := regAddr_of_regAt ha
    exact ⟨.ok, readReg s r, exec_rdreg_regAddr s r, by decide⟩

theorem exec_rdmem_frame (d : WData) (s : State) :
    ∃ c v, exec (.rdmem d) s = .next (respond c v s) ∧ c ≠ .errState := by
  cases hd : dmFields d with
  | none => exact ⟨.errAddr, 0, exec_rdmem_none hd s, by decide⟩
  | some word =>
    obtain ⟨c, j, o⟩ := word
    rw [exec_rdmem_some hd]
    split
    · exact ⟨.ok, _, rfl, by decide⟩
    · exact ⟨.errAddr, 0, rfl, by decide⟩

/-- A host command other than PREPARE, RENDER and RELEASE writes the pending registers and the
response at most, and no state refuses it. -/
theorem exec_ungated_frame {i : Instr} (hhost : i.isHost = true) (hprepare : i ≠ .prepare)
    (hrender : ∀ n, i ≠ .render n) (hrelease : i ≠ .release) (s : State) :
    ∃ c d p, exec i s = .next (respond c d { s with pend := p }) ∧ c ≠ .errState := by
  cases i with
  | nop => exact ⟨.ok, 0, s.pend, rfl, by decide⟩
  | wrreg a v => exact exec_wrreg_frame a v s
  | rdreg a =>
    obtain ⟨c, d, h⟩ := exec_rdreg_frame a s
    exact ⟨c, d, s.pend, h⟩
  | rdmem d =>
    obtain ⟨c, v, h⟩ := exec_rdmem_frame d s
    exact ⟨c, v, s.pend, h⟩
  | prepare => exact absurd rfl hprepare
  | render n => exact absurd rfl (hrender n)
  | release => exact absurd rfl hrelease
  | _ => cases hhost

/-! ### PREPARE -/

theorem exec_prepare_refused {s : State} (h : s.status.state ≠ .idle) :
    exec .prepare s = .next (refuse .errState s) := by
  rw [exec, execPrepare, if_pos h]

/-- PREPARE in Idle answers OK, whether its checks pass or one fails. -/
theorem prepare_executes {s : State} (h : s.status.state = .idle) : Executes .prepare s := by
  unfold Executes
  rw [exec, execPrepare, if_neg (not_not.mpr h)]
  cases prepareCheck s.pend s.delayCap with
  | some e => exact ⟨.ok, _, _, rfl, by decide⟩
  | none => exact ⟨.ok, _, _, rfl, by decide⟩

/-! ### RENDER -/

/-- The state that the loop of RENDER begins in. -/
def renderStart (s : State) : State := if s.act.mode = 1 then snapshot s else s

/-- The snapshot leaves the flags and the reverb as they are. -/
theorem renderStart_ready {s : State} (h : s.status.capReverb = true → s.reverbReady) :
    (renderStart s).status.capReverb = true → (renderStart s).reverbReady := by
  unfold renderStart
  split
  · exact h
  · exact h

theorem exec_render_refused {s : State} (h : s.status.state ≠ .rendering) (n : WData) :
    exec (.render n) s = .next (refuse .errState s) := by
  rw [exec, execRender, if_pos h]

/-- RENDER stops exactly where its loop does. -/
theorem exec_render_fault {s : State} {n : WData} {f : Fault} (h : s.status.state = .rendering)
    (hloop : renderLoop n.toNat 0 (renderStart s) = .error f) :
    exec (.render n) s = .fault f := by
  rw [renderStart] at hloop
  rw [exec, execRender, if_neg (not_not.mpr h), hloop]

/-- A RENDER whose loop ends answers OK, whether a sample raised or not. -/
theorem render_executes {s s' : State} {n : WData} {e : SampleEnd} {cnt : Nat}
    (h : s.status.state = .rendering)
    (hloop : renderLoop n.toNat 0 (renderStart s) = .ok (e, cnt, s')) :
    Executes (.render n) s := by
  rw [renderStart] at hloop
  unfold Executes
  rw [exec, execRender, if_neg (not_not.mpr h), hloop]
  cases e with
  | raised => exact ⟨.ok, _, _, rfl, by decide⟩
  | emitted => exact ⟨.ok, _, _, rfl, by decide⟩

theorem render_executes_of_next {s t : State} {n : WData} (h : s.status.state = .rendering)
    (ht : exec (.render n) s = .next t) : Executes (.render n) s := by
  cases hloop : renderLoop n.toNat 0 (renderStart s) with
  | error f =>
    rw [exec_render_fault h hloop] at ht
    cases ht
  | ok r =>
    obtain ⟨e, cnt, s'⟩ := r
    exact render_executes h hloop

theorem render_executes_of_ready {s : State} (h : s.status.state = .rendering)
    (hready : s.status.capReverb = true → s.reverbReady) (n : WData) : Executes (.render n) s := by
  obtain ⟨e, cnt, s', hloop⟩ := renderLoop_answers (k := n.toNat) (cnt := 0)
    (renderStart_ready hready)
  exact render_executes h hloop

/-! ### The table of legality -/

theorem executes_of_not_render {i : Instr} {s : State} (hhost : i.isHost = true)
    (hprepare : i = .prepare → s.status.state = .idle) (hrender : ∀ n, i ≠ .render n) :
    Executes i s := by
  by_cases hp : i = .prepare
  · subst hp
    exact prepare_executes (hprepare rfl)
  by_cases hr : i = .release
  · subst hr
    exact ⟨.ok, 0, clearSession s, rfl, by decide⟩
  obtain ⟨c, d, p, h⟩ := exec_ungated_frame hhost hp hrender hr s
  exact ⟨c, d, _, h⟩

/-- Settles O15: outside their state PREPARE and RENDER are refused; a RENDER in Rendering ends as
its loop does, which answers where the lines are allocated (`renderLoop_answers`), and every other
command executes (`executes_of_not_render`). -/
theorem commandLegalityByState : Obligations.CommandLegalityByState := by
  intro s _
  refine ⟨exec_prepare_refused, fun h => exec_render_refused h,
    fun i t hhost ht hprepare hrender => ?refusedNever, fun i hhost hprepare hrender => ?answers⟩
  case refusedNever =>
    by_cases hr : ∃ n, i = .render n
    · obtain ⟨n, rfl⟩ := hr
      exact (render_executes_of_next (hrender ⟨n, rfl⟩) ht).not_errState ht
    · exact (executes_of_not_render hhost hprepare (not_exists.mp hr)).not_errState ht
  case answers =>
    by_cases hr : ∃ n, i = .render n
    · obtain ⟨hstate, hready⟩ := hrender hr
      obtain ⟨n, rfl⟩ := hr
      exact (render_executes_of_ready hstate hready n).answers
    · exact (executes_of_not_render hhost hprepare (not_exists.mp hr)).answers

/-! ### Leaving Complete and Failed -/

/-- In Complete and Failed, PREPARE and RENDER are refused too, so no command but RELEASE writes
STATUS. -/
theorem status_kept_at_session_end {i : Instr} {s t : State} (hhost : i.isHost = true)
    (hrelease : i ≠ .release) (hend : s.status.state = .complete ∨ s.status.state = .failed)
    (ht : exec i s = .next t) : t.status = s.status := by
  have hidle : s.status.state ≠ .idle := by rcases hend with h | h <;> simp [h]
  have hrendering : s.status.state ≠ .rendering := by rcases hend with h | h <;> simp [h]
  by_cases hp : i = .prepare
  · subst hp
    rw [exec_prepare_refused hidle] at ht
    cases ht
    rfl
  by_cases hr : ∃ n, i = .render n
  · obtain ⟨n, rfl⟩ := hr
    rw [exec_render_refused hrendering] at ht
    cases ht
    rfl
  obtain ⟨c, d, p, h, -⟩ := exec_ungated_frame hhost hp (not_exists.mp hr) hrelease s
  rw [h] at ht
  cases ht
  rfl

/-- Settles O22: RELEASE is `clearSession` and its response, and at the end of a session every other
command keeps STATUS (`status_kept_at_session_end`). -/
theorem releaseClearsTheSession : Obligations.ReleaseClearsTheSession := by
  refine ⟨by decide, fun i s t hhost hrelease hend ht => ?_, fun _ => rfl⟩
  rw [status_kept_at_session_end hhost hrelease hend ht]

end Sys2Proof.Machine
end

section
/-! The block between commands (60_exceptions.md R255): a step that is presented nothing takes
nothing. -/

namespace Sys2Proof.Machine

/-- The companion of `fetch_select` and `fetch_command`, for an empty slot and an empty port. -/
theorem fetch_quiet {s : State} (hs : s.sel = none) (hp : s.port = []) : fetch s = .quiet := by
  simp only [fetch, hs, hp]

/-- Settles O9: with nothing presented the step takes nothing (`fetch_quiet`). -/
theorem nothingPresentedHoldsTheState : Obligations.NothingPresentedHoldsTheState := by
  intro s hs hp
  rw [step, fetch_quiet hs hp]

end Sys2Proof.Machine
end

section
/-! The state after reset (70_reset_and_hazards.md R270, R271): a step with the reset input at the head
of the port takes it, every value of the list of R271 then stands, and PREPARE on those values fails
its check of the duration. -/

namespace Sys2Proof.Machine

/-! ### What the reset input leaves -/

/-- The companion of `fetch_quiet`, for the reset input at the head of the port. -/
theorem fetch_reset {s : State} {rest : List PortEvent} (hs : s.sel = none)
    (hp : s.port = .reset :: rest) : fetch s = .reset (popPort s) := by
  simp only [fetch, hs, hp]

/-- A line of length 0 has no word (20_memory.md R62). -/
theorem readWord_of_len_zero {n : Network} {j : Fin 5} (h : n.len[j] = 0) (o : Nat) :
    n.readWord j o = none := by
  simp [Network.readWord, Network.wordExists, h]

/-- Reset leaves no line allocated: every length and every cursor is 0 (10_state.md R33). -/
theorem reset_lines_unallocated :
    ∀ c : Fin 2, ∀ j : Fin 5, State.reset.rv[c].len[j] = 0 ∧ State.reset.rv[c].idx[j] = 0 := by
  decide

/-- The list of R271 speaks of the block alone, so it holds whatever the ports, the random source and
DELAY_CAP were when the reset input came. -/
theorem resetInput_afterReset (s : State) : AfterReset (resetInput s) where
  mode := rfl
  sampleRate := rfl
  duration := rfl
  softness := rfl
  gainDb := rfl
  entType := rfl
  noiseType := rfl
  noiseLevel := rfl
  counts := ⟨rfl, rfl⟩
  lists := by rw [resetInput_pend]; decide
  status := ⟨rfl, rfl, rfl⟩
  flags := ⟨rfl, rfl, rfl, rfl, rfl, rfl⟩
  counters := ⟨rfl, rfl, rfl⟩
  active := ⟨rfl, rfl, rfl, rfl, rfl, rfl, rfl, rfl⟩
  activeLists := by rw [resetInput_act]; decide
  phases := by rw [resetInput_ph]; decide
  noise := ⟨rfl, rfl, rfl, rfl⟩
  rows := by rw [resetInput_nz]; decide
  lines := by rw [resetInput_rv]; exact reset_lines_unallocated
  memory c j := by
    rw [resetInput_rv]
    exact readWord_of_len_zero (reset_lines_unallocated c j).1
  out := rfl

/-- The machine starts in the state that the reset input gives. -/
theorem resetInput_reset : resetInput State.reset = State.reset := rfl

/-! ### PREPARE straight after reset -/

/-- PREPARE in Idle raises the first check that fails. -/
theorem exec_prepare_failed {s : State} {e : SessionError} (hidle : s.status.state = .idle)
    (he : prepareCheck s.pend s.delayCap = some e) :
    exec .prepare s = .next (respond .ok (statusWord (raiseError e s).status) (raiseError e s)) := by
  rw [exec, execPrepare, if_neg (not_not.mpr hidle), he]

/-- Check 4 of R214 is the one reported where the checks before it pass. -/
theorem prepareCheck_badDuration {p : Pending} {cap : Option Nat} (hmode : p.mode = 0)
    (hrate : finitePositive p.sampleRate = true) (hcounts : countsOk p = true)
    (hduration : finitePositive p.duration = false) :
    prepareCheck p cap = some .badDuration := by
  simp [prepareCheck, batchCheck, hmode, hrate, hcounts, hduration]

/-- Reset leaves a good mode, sample rate and pair of counts, and a duration that is not positive. -/
theorem prepareCheck_reset (cap : Option Nat) :
    prepareCheck Pending.reset cap = some .badDuration :=
  prepareCheck_badDuration rfl (by decide) (by decide) (by decide)

/-- Settles O10: the step takes the reset input (`fetch_reset`), which sets every value of R271
(`resetInput_afterReset`); of those the duration fails PREPARE (`prepareCheck_reset`). -/
theorem resetState : Obligations.ResetState := by
  refine ⟨?_, ?_, fun s rest hs hp => ?_⟩
  · rw [← resetInput_reset]
    exact resetInput_afterReset State.reset
  · exact ⟨_, exec_prepare_failed rfl (prepareCheck_reset none), rfl, rfl, rfl⟩
  · refine ⟨resetInput (popPort s), ?_, resetInput_afterReset (popPort s)⟩
    rw [step, fetch_reset hs hp]

end Sys2Proof.Machine
end

section
/-! The decoder of select words as the inverse of the encoder (30_encoding.md R86): a word decodes
to a unit operation exactly when it is that operation's word. With the table of the host commands
this makes the whole decoder and the encoder inverse to each other. -/

namespace Sys2Proof

/-! ### The fields of a reverb word -/

/-- Channel and line together are the select field of a reverb operation. -/
theorem reverbFields_eq_fields (c : BitVec 1) (j : BitVec 3) (u : BitVec 8) :
    reverbFields c j u = fields 8 (c ++ j) u := by
  rw [reverbFields, fields, BitVec.append_assoc (x₁ := 8#4)]
  rfl

theorem lineField_eq (w : CmdWord) : lineField w = (kField w).extractLsb' 0 3 := by
  unfold lineField kField
  ext i hi
  simp
  omega

theorem channelField_eq (w : CmdWord) : channelField w = (kField w).extractLsb' 3 1 := by
  unfold channelField kField
  ext i hi
  obtain rfl : i = 0 := Nat.lt_one_iff.mp hi
  simp

theorem channel_append_line (w : CmdWord) : channelField w ++ lineField w = kField w := by
  rw [channelField_eq, lineField_eq]
  exact BitVec.extractLsb'_append_extractLsb'

@[simp] theorem opField_reverbFields (c : BitVec 1) (j : BitVec 3) (u : BitVec 8) :
    opField (reverbFields c j u) = 8 := by
  rw [reverbFields_eq_fields, opField_fields]
  rfl

@[simp] theorem aField_reverbFields (c : BitVec 1) (j : BitVec 3) (u : BitVec 8) :
    aField (reverbFields c j u) = u := by
  rw [reverbFields_eq_fields, aField_fields]

@[simp] theorem lineField_reverbFields (c : BitVec 1) (j : BitVec 3) (u : BitVec 8) :
    lineField (reverbFields c j u) = j := by
  rw [reverbFields_eq_fields, lineField_eq, kField_fields]
  exact BitVec.extractLsb'_append_eq_right

@[simp] theorem channelField_reverbFields (c : BitVec 1) (j : BitVec 3) (u : BitVec 8) :
    channelField (reverbFields c j u) = c := by
  rw [reverbFields_eq_fields, channelField_eq, kField_fields]
  exact BitVec.extractLsb'_append_eq_left

/-- A select word is known by its opcode, its select field and the number of its unit operation. -/
theorem fields_eq_select {w : CmdWord} {k : BitVec 4} {u : Nat} (hop : opField w = 8)
    (hk : kField w = k) (hu : (aField w).toNat = u) : fields 8 k (BitVec.ofNat 8 u) = w := by
  refine (eq_fields (op := 8) hop hk ?_).symm
  rw [← hu, BitVec.ofNat_toNat, BitVec.setWidth_eq]

theorem reverbFields_eq_select {w : CmdWord} {j : BitVec 3} {u : Nat} (hop : opField w = 8)
    (hj : lineField w = j) (hu : (aField w).toNat = u) :
    reverbFields (channelField w) j (BitVec.ofNat 8 u) = w := by
  rw [reverbFields_eq_fields, ← hj, channel_append_line]
  exact fields_eq_select hop rfl hu

/-! ### The select words -/

theorem instanceZero_eq_ok_iff {w : CmdWord} {i j : Instr} :
    instanceZero w i = .ok j ↔ kField w = 0 ∧ i = j := by
  unfold instanceZero
  by_cases hk : kField w = 0
  · simp only [hk, if_true, Except.ok.injEq, true_and]
  · simp only [hk, if_false, reduceCtorEq, false_and]

theorem instanceAccumulator_eq_ok_iff {w : CmdWord} {i : BitVec 4 → Instr} {j : Instr} :
    instanceAccumulator w i = .ok j ↔ accumulatorOk (kField w) = true ∧ i (kField w) = j := by
  by_cases hk : accumulatorOk (kField w) = true <;> simp [instanceAccumulator, hk]

theorem instanceLine_eq_ok_iff {w : CmdWord} {l : BitVec 3} {i : BitVec 1 → Instr} {j : Instr} :
    instanceLine w l i = .ok j ↔ lineField w = l ∧ i (channelField w) = j := by
  by_cases hl : lineField w = l <;> simp [instanceLine, hl]

/-- A select word that decodes is the word of the unit operation it decodes to. -/
theorem encodeWord_of_decodeSelect {w : CmdWord} {i : Instr} (h : decodeSelect w = .ok i) :
    i.isHost = false ∧ i.wf = true ∧ encodeWord i = w := by
  unfold decodeSelect at h
  split at h
  · cases h
  rename_i hop
  rw [not_not] at hop
  split at h
  case h_26 => cases h
  case h_2 | h_3 | h_4 =>
    rename_i hu
    obtain ⟨hk, rfl⟩ := instanceAccumulator_eq_ok_iff.mp h
    exact ⟨rfl, hk, fields_eq_select hop rfl hu⟩
  case h_17 hu =>
    split at h
    case isFalse => cases h
    rename_i hj
    cases h
    exact ⟨rfl, hj, reverbFields_eq_select hop rfl hu⟩
  case h_16 | h_18 | h_19 =>
    rename_i hu
    obtain ⟨hl, rfl⟩ := instanceLine_eq_ok_iff.mp h
    exact ⟨rfl, rfl, reverbFields_eq_select hop hl hu⟩
  all_goals
    rename_i hu
    obtain ⟨hk, rfl⟩ := instanceZero_eq_ok_iff.mp h
    exact ⟨rfl, rfl, fields_eq_select hop hk hu⟩

/-- Every well-formed unit operation is decoded from its word. -/
theorem decodeSelect_encodeWord {i : Instr} (hunit : i.isHost = false) (hwf : i.wf = true) :
    decodeSelect (encodeWord i) = .ok i := by
  cases i with
  | nop | wrreg _ _ | rdreg _ | rdmem _ | prepare | render _ | release => cases hunit
  | paAdv k | paVal k | oscSin k =>
    have hk : accumulatorOk k = true := hwf
    simp [decodeSelect, encodeWord, instanceAccumulator, hk]
  | rvComb c j =>
    have hj : combOk j = true := hwf
    simp [decodeSelect, encodeWord, hj]
  | rvPrep c | rvAp c | rvProc c => simp [decodeSelect, encodeWord, instanceLine]
  | paInc | envBatch | envRt | jnyBuild | jnyEval | nzPrep | nzWhite | nzPink | nzBrown | nzLfo
  | nzLpf | nzProc | gainLin | mixDry | mixWet | satTanh | satKnee | sample => rfl

/-- The select decoder is the inverse of the encoder on the well-formed unit operations. -/
theorem decodeSelect_eq_ok_iff {w : CmdWord} {i : Instr} :
    decodeSelect w = .ok i ↔ i.isHost = false ∧ i.wf = true ∧ encodeWord i = w := by
  refine ⟨encodeWord_of_decodeSelect, ?_⟩
  rintro ⟨hunit, hwf, rfl⟩
  exact decodeSelect_encodeWord hunit hwf

/-! ### Both decoders together -/

/-- The operand word of a command that uses one is the command's. -/
theorem HostRow.encode_eq {w : CmdWord} {d : WData} {i : Instr} (h : HostRow d w i) :
    encodeWord i = w ∧ i.wf = true ∧ opField w ≠ 8 ∧
      (opField w = 1 ∨ opField w = 3 ∨ opField w = 5 → encodeWData i = d) := by
  cases h <;> simp [encodeWord, Instr.wf, encodeWData]

/-- Every host command stands in the table with its own words. -/
theorem hostRow_encode {i : Instr} (h : i.isHost = true) :
    HostRow (encodeWData i) (encodeWord i) i := by
  cases i with
  | nop => exact .nop
  | wrreg a v => exact .wrreg a
  | rdreg a => exact .rdreg a
  | rdmem v => exact .rdmem
  | prepare => exact .prepare
  | render n => exact .render
  | release => exact .release
  | _ => cases h

/-- The opcode of a unit operation's word is 8: its row has that constant. -/
theorem opField_encodeWord_unit {i : Instr} (h : i.isHost = false) :
    opField (encodeWord i) = 8 := by
  cases i with
  | nop | wrreg _ _ | rdreg _ | rdmem _ | prepare | render _ | release => cases h
  | _ => simp [encodeWord]

/-- Settles O1: a host command is decoded by its row (`decodeHost_eq_ok_iff`), a unit operation by
`decodeSelect_eq_ok_iff`; the opcode tells them apart. -/
theorem decodeInvertsEncode : Obligations.DecodeInvertsEncode := by
  intro i hwf
  cases hhost : i.isHost with
  | true =>
    have hrow := hostRow_encode hhost
    rw [decode, if_neg hrow.encode_eq.2.2.1, decodeHost_eq_ok_iff]
    exact hrow
  | false =>
    rw [decode, if_pos (opField_encodeWord_unit hhost)]
    exact decodeSelect_encodeWord hhost hwf

/-- Settles O2: the converse reading of the same two tables. -/
theorem decodedInstructionHasThatWord : Obligations.DecodedInstructionHasThatWord := by
  intro w d i h
  unfold decode at h
  split at h
  · rename_i hop
    obtain ⟨-, hwf, hword⟩ := decodeSelect_eq_ok_iff.mp h
    exact ⟨hword, hwf, by omega⟩
  · obtain ⟨hword, hwf, -, hdata⟩ := (decodeHost_eq_ok_iff.mp h).encode_eq
    exact ⟨hword, hwf, hdata⟩

end Sys2Proof
end

section
/-! The unit operations by their match and mask columns (30_encoding.md R86), and the words and the
register map that the specification writes out (R89, 10_state.md R37). -/

namespace Sys2Proof

/-! ### Masks -/

/-- A mask keeps of each field what its own field keeps. -/
theorem fields_and_fields (op k mop mk : BitVec 4) (a ma : BitVec 8) :
    fields op k a &&& fields mop mk ma = fields (op &&& mop) (k &&& mk) (a &&& ma) := by
  rw [fields, fields, BitVec.and_append, BitVec.and_append, fields]

/-- A match under a mask that keeps the opcode and the low byte fixes both, and of the select field what
the mask keeps of it. -/
theorem select_of_and_mask {w : CmdWord} {k mk : BitVec 4} {a : BitVec 8}
    (h : w &&& fields 0xF mk 0xFF = fields 8 k a) :
    opField w = 8 ∧ aField w = a ∧ kField w &&& mk = k := by
  have hall : w &&& fields 0xF mk 0xFF =
      fields (w.extractLsb' 12 4) (kField w &&& mk) (aField w) := by
    conv_lhs => rw [← fields_of_word w]
    rw [fields_and_fields]
    exact congrArg₂ (fields · _ ·) BitVec.and_allOnes BitVec.and_allOnes
  rw [hall] at h
  refine ⟨?_, ?_, ?_⟩
  · exact (opField_fields _ _ _).symm.trans ((congrArg opField h).trans (opField_fields _ _ _))
  · simpa only [aField_fields] using congrArg aField h
  · simpa only [kField_fields] using congrArg kField h

theorem kField_toNat (w : CmdWord) : (kField w).toNat = w.toNat / 256 % 16 := by
  rw [kField, BitVec.extractLsb'_toNat, Nat.shiftRight_eq_div_pow]

theorem opField_eq_div (w : CmdWord) : opField w = w.toNat / 4096 := by
  have hlt := w.isLt
  rw [opField, BitVec.extractLsb'_toNat, Nat.shiftRight_eq_div_pow, Nat.mod_eq_of_lt (by omega)]

/-! ### The rows of accumulators -/

section Accumulator

variable {w : CmdWord}

/-- A word of a row whose mask leaves the select field free is that row's word for its select field. -/
theorem eq_accumulator_word {a : BitVec 8} (h : w &&& 0xF0FF = fields 8 0 a) :
    fields 8 (kField w) a = w := by
  obtain ⟨hop, ha, -⟩ := select_of_and_mask (mk := 0) h
  exact (eq_fields (op := 8) hop rfl ha).symm

/-- Such a row with a select field up to 4 decodes to its unit operation. -/
theorem decodeSelect_accumulator {a : BitVec 8} {i : BitVec 4 → Instr}
    (h : w &&& 0xF0FF = fields 8 0 a) (hk : w.toNat / 256 % 16 ≤ 4)
    (hunit : ∀ k, (i k).isHost = false) (hwf : ∀ k, (i k).wf = accumulatorOk k)
    (hword : ∀ k, encodeWord (i k) = fields 8 k a) : decodeSelect w = .ok (i (kField w)) := by
  refine decodeSelect_eq_ok_iff.mpr ⟨hunit _, ?_, ?_⟩
  · rw [hwf, accumulatorOk, kField_toNat]
    exact decide_eq_true hk
  · rw [hword]
    exact eq_accumulator_word h

/-- The same row with a select field above 4 is reserved. -/
theorem decodeSelect_reserved_accumulator {a : BitVec 8} {i : BitVec 4 → Instr}
    (h : w &&& 0xF0FF = fields 8 0 a) (hk : 4 < w.toNat / 256 % 16)
    (hrow : ∀ k, decodeSelect (fields 8 k a) = instanceAccumulator (fields 8 k a) i) :
    ∃ r, decodeSelect w = .error r := by
  have hbad : accumulatorOk (kField w) = false := by
    rw [accumulatorOk, kField_toNat]
    exact decide_eq_false (Nat.not_le.mpr hk)
  rw [← eq_accumulator_word h, hrow, instanceAccumulator, kField_fields, hbad]
  exact ⟨_, rfl⟩

end Accumulator

/-! ### The rows of reverb -/

/-- A word of a reverb row decodes to its unit operation on the channel and line it names. -/
theorem decodeSelect_reverb {w : CmdWord} {u : BitVec 8} {i : Instr} (hop : opField w = 8)
    (hu : aField w = u) (hunit : i.isHost = false) (hwf : i.wf = true)
    (hword : encodeWord i = reverbFields (channelField w) (lineField w) u) :
    decodeSelect w = .ok i := by
  refine decodeSelect_eq_ok_iff.mpr ⟨hunit, hwf, ?_⟩
  rw [hword, reverbFields_eq_fields, channel_append_line]
  exact (eq_fields (op := 8) hop rfl hu).symm

/-- The mask 0xF7FF leaves the channel free and fixes the line. -/
theorem line_of_mask {k : BitVec 4} {j : BitVec 3} (h : k &&& 7 = 0#1 ++ j) :
    k.extractLsb' 0 3 = j := by
  revert k j
  decide

/-- The mask 0xF4FF keeps the top bit of the line. -/
theorem combOk_of_mask {k : BitVec 4} (h : k &&& 4 = 0) : combOk (k.extractLsb' 0 3) = true := by
  revert k
  decide

/-- Settles O4: a mask and match give the fields (`select_of_and_mask`), the fields give the unit
operation by `decodeSelect_eq_ok_iff`, and by the same lemma a word that decodes is the word of a
unit operation, which its row selects. -/
theorem unitOperationRows : Obligations.UnitOperationRows := by
  intro w
  refine ⟨?host, ?advReserved, ?valReserved, ?sinReserved, ?adv, ?val, ?sin, ?prep, ?comb, ?ap,
    ?proc, ?fixed, ?converse⟩
  case host =>
    intro hop d
    rw [← opField_eq_div] at hop
    exact ⟨.unitOperation, if_pos hop⟩
  case advReserved =>
    exact fun h hk => decodeSelect_reserved_accumulator (a := 0x01) (i := .paAdv) h hk fun k => by
      simp [decodeSelect]
  case valReserved =>
    exact fun h hk => decodeSelect_reserved_accumulator (a := 0x02) (i := .paVal) h hk fun k => by
      simp [decodeSelect]
  case sinReserved =>
    exact fun h hk => decodeSelect_reserved_accumulator (a := 0x03) (i := .oscSin) h hk fun k => by
      simp [decodeSelect]
  case adv =>
    exact fun h hk => decodeSelect_accumulator (a := 0x01) (i := .paAdv) h hk (fun _ => rfl)
      (fun _ => rfl) fun _ => rfl
  case val =>
    exact fun h hk => decodeSelect_accumulator (a := 0x02) (i := .paVal) h hk (fun _ => rfl)
      (fun _ => rfl) fun _ => rfl
  case sin =>
    exact fun h hk => decodeSelect_accumulator (a := 0x03) (i := .oscSin) h hk (fun _ => rfl)
      (fun _ => rfl) fun _ => rfl
  case prep =>
    intro h
    obtain ⟨hop, ha, hk⟩ := select_of_and_mask (mk := 7) (k := 0) (a := 0x40) h
    have hl : lineField w = 0 := (lineField_eq w).trans (line_of_mask hk)
    exact decodeSelect_reverb hop ha rfl rfl (by rw [hl]; rfl)
  case comb =>
    intro h
    obtain ⟨hop, ha, hk⟩ := select_of_and_mask (mk := 4) (k := 0) (a := 0x41) h
    have hcomb : combOk (lineField w) = true := (lineField_eq w).symm ▸ combOk_of_mask hk
    exact decodeSelect_reverb hop ha rfl hcomb rfl
  case ap =>
    intro h
    obtain ⟨hop, ha, hk⟩ := select_of_and_mask (mk := 7) (k := 4) (a := 0x42) h
    have hl : lineField w = 4 := (lineField_eq w).trans (line_of_mask hk)
    exact decodeSelect_reverb hop ha rfl rfl (by rw [hl]; rfl)
  case proc =>
    intro h
    obtain ⟨hop, ha, hk⟩ := select_of_and_mask (mk := 7) (k := 0) (a := 0x43) h
    have hl : lineField w = 0 := (lineField_eq w).trans (line_of_mask hk)
    exact decodeSelect_reverb hop ha rfl rfl (by rw [hl]; rfl)
  case fixed =>
    have row (i : Instr) (hunit : i.isHost = false) (hwf : i.wf = true) (h : w = encodeWord i) :
        decodeSelect w = .ok i := h ▸ decodeSelect_encodeWord hunit hwf
    simp only [List.forall_mem_cons]
    exact ⟨row .paInc rfl rfl, row .envBatch rfl rfl, row .envRt rfl rfl, row .jnyBuild rfl rfl,
      row .jnyEval rfl rfl, row .nzPrep rfl rfl, row .nzWhite rfl rfl, row .nzPink rfl rfl,
      row .nzBrown rfl rfl, row .nzLfo rfl rfl, row .nzLpf rfl rfl, row .nzProc rfl rfl,
      row .gainLin rfl rfl, row .mixDry rfl rfl, row .mixWet rfl rfl, row .satTanh rfl rfl,
      row .satKnee rfl rfl, row .sample rfl rfl, List.forall_mem_nil _⟩
  case converse =>
    rintro ⟨i, hi⟩
    obtain ⟨hunit, hwf, rfl⟩ := decodeSelect_eq_ok_iff.mp hi
    cases i with
    | nop | wrreg _ _ | rdreg _ | rdmem _ | prepare | render _ | release => cases hunit
    | paAdv k | paVal k | oscSin k | rvPrep k | rvAp k | rvProc k =>
      clear hi hwf
      revert k
      decide
    | rvComb c j =>
      clear hi
      revert c j
      decide
    | paInc | envBatch | envRt | jnyBuild | jnyEval | nzPrep | nzWhite | nzPink | nzBrown | nzLfo
    | nzLpf | nzProc | gainLin | mixDry | mixWet | satTanh | satKnee | sample => decide

/-! ### Words of the spec -/

/-- Settles O5, by evaluation of the decoders on these words. -/
theorem specWordsDecode : Obligations.SpecWordsDecode := by
  refine ⟨rfl, rfl, rfl, rfl, rfl, rfl⟩

end Sys2Proof

namespace Sys2Proof.Machine

/-! ### The register map -/

/-- Settles O6: the addresses by evaluation, the map and its inverse by `regAt_eq_some_iff`, the
undefined addresses by going through all 256, the writable registers by `writePending_isSome_iff`.
-/
theorem registerMap : Obligations.RegisterMap := by
  refine ⟨by decide, by decide, by decide, by decide, fun _ _ => regAt_eq_some_iff, ?undefined,
    fun _ _ _ => writePending_isSome_iff⟩
  case undefined => decide

end Sys2Proof.Machine
end

section
/-! Ranges of results: on finite operands the operations are monotone, so a result lies between the
results on the bounds of the operands, which are constants and evaluate. -/

namespace Sys2Proof.Machine

/-! ### A range in units -/

theorem fle_trans {a b c : F64} (hab : fle a b = true) (hbc : fle b c = true) :
    fle a c = true := by
  obtain ⟨ha, -, hle⟩ := fle_iff.mp hab
  obtain ⟨-, hc, hle'⟩ := fle_iff.mp hbc
  exact fle_iff.mpr ⟨ha, hc, hle.trans hle'⟩

theorem inRange_iff {lo hi x : F64} :
    inRange lo hi x = true ↔ fle lo x = true ∧ fle x hi = true := by
  rw [inRange, Bool.and_eq_true]

/-- Between finite bounds a value is finite, and its units lie between theirs. -/
theorem inRange_iff_units {lo hi x : F64} (hlo : fisFinite lo = true) (hhi : fisFinite hi = true) :
    inRange lo hi x = true ↔
      fisFinite x = true ∧ funits lo ≤ funits x ∧ funits x ≤ funits hi := by
  constructor
  · intro h
    refine ⟨finite_of_inRange hlo hhi h, ?_⟩
    obtain ⟨hl, hh⟩ := inRange_iff.mp h
    exact ⟨funits_le_iff.mpr (fle_iff.mp hl).2.2, funits_le_iff.mpr (fle_iff.mp hh).2.2⟩
  · rintro ⟨hx, hl, hh⟩
    have nan {y : F64} (hy : fisFinite y = true) := (not_special hy).1
    exact inRange_iff.mpr ⟨fle_iff.mpr ⟨nan hlo, nan hx, funits_le_iff.mp hl⟩,
      fle_iff.mpr ⟨nan hx, nan hhi, funits_le_iff.mp hh⟩⟩

theorem inRange_weaken {lo hi lo' hi' x : F64} (hlo : fle lo lo' = true) (hhi : fle hi' hi = true)
    (h : inRange lo' hi' x = true) : inRange lo hi x = true := by
  obtain ⟨hl, hh⟩ := inRange_iff.mp h
  exact inRange_iff.mpr ⟨fle_trans hlo hl, fle_trans hh hhi⟩

theorem inRange_self {x : F64} (h : fisNaN x = false) : inRange x x x = true :=
  inRange_iff.mpr ⟨fle_iff.mpr ⟨h, h, le_rfl⟩, fle_iff.mpr ⟨h, h, le_rfl⟩⟩

/-- A value that is not a NaN and not at or above a bound is below it. -/
theorem flt_of_not_fle {a b : F64} (ha : fisNaN a = false) (hb : fisNaN b = false)
    (h : fle b a = false) : flt a b = true := by
  refine flt_iff.mpr ⟨ha, hb, lt_of_not_ge fun hle => ?_⟩
  rw [fle_iff.mpr ⟨hb, ha, hle⟩] at h
  cases h

theorem fle_of_flt {a b : F64} (h : flt a b = true) : fle a b = true := by
  obtain ⟨ha, hb, hlt⟩ := flt_iff.mp h
  exact fle_iff.mpr ⟨ha, hb, hlt.le⟩

theorem flt_of_flt_of_fle {a b c : F64} (hab : flt a b = true) (hbc : fle b c = true) :
    flt a c = true := by
  obtain ⟨ha, -, hlt⟩ := flt_iff.mp hab
  obtain ⟨-, hc, hle⟩ := fle_iff.mp hbc
  exact flt_iff.mpr ⟨ha, hc, hlt.trans_le hle⟩

theorem flt_of_fle_of_flt {a b c : F64} (hab : fle a b = true) (hbc : flt b c = true) :
    flt a c = true := by
  obtain ⟨ha, -, hle⟩ := fle_iff.mp hab
  obtain ⟨-, hc, hlt⟩ := flt_iff.mp hbc
  exact flt_iff.mpr ⟨ha, hc, hle.trans_lt hlt⟩

/-- Below a bound is at or below the value just under it. -/
theorem inRange_of_flt_succ {lo hi top x : F64} (hhi : fisNaN hi = false)
    (hsucc : forder top = forder hi + 1) (hl : fle lo x = true) (hx : flt x top = true) :
    inRange lo hi x = true := by
  obtain ⟨hnan, -, hlt⟩ := flt_iff.mp hx
  exact inRange_iff.mpr ⟨hl, fle_iff.mpr ⟨hnan, hhi, by omega⟩⟩

/-! ### The operations -/

/-- Rounding keeps the order of exact quotients with their signs. -/
theorem order_round_mono {s t : Bool} {n m d e : Nat} (hd : 0 < d) (he : 0 < e)
    (h : (if s then -(n : Int) else n) * e ≤ (if t then -(m : Int) else m) * d) :
    forder (fpack s (roundMag n d)) ≤ forder (fpack t (roundMag m e)) := by
  rw [forder_fpack s (roundMag_lt _ _), forder_fpack t (roundMag_lt _ _)]
  cases s <;> cases t <;> simp only [if_true, if_false, Bool.false_eq_true] at h ⊢
  case false.false =>
    have : roundMag n d ≤ roundMag m e := roundMag_mono hd he (by exact_mod_cast h)
    exact_mod_cast this
  case true.true =>
    have : roundMag m e ≤ roundMag n d :=
      roundMag_mono he hd (by simp only [neg_mul, neg_le_neg_iff] at h; exact_mod_cast h)
    omega
  case true.false => omega
  case false.true =>
    have hsum : n * e + m * d ≤ 0 := by
      have : (n : Int) * e + m * d ≤ 0 := by linarith
      exact_mod_cast this
    have hn : n = 0 := by
      rcases Nat.mul_eq_zero.mp (by omega : n * e = 0) with h | h <;> omega
    have hm : m = 0 := by
      rcases Nat.mul_eq_zero.mp (by omega : m * d = 0) with h | h <;> omega
    rw [hn, hm, roundMag_zero, roundMag_zero]
    rfl

section Ranges

variable {a a' b b' la ha lb hb : F64}

theorem finiteSum_mono (h : funits a + funits b ≤ funits a' + funits b') :
    forder (finiteSum a b) ≤ forder (finiteSum a' b') := by
  obtain ⟨s, n, he, hn⟩ := finiteSum_as_round a b
  obtain ⟨t, m, he', hm⟩ := finiteSum_as_round a' b'
  rw [he, he']
  exact order_round_mono Nat.one_pos Nat.one_pos (by rw [hn, hm]; simpa using h)

theorem fadd_inRange (hfin : [la, ha, lb, hb].all fisFinite = true)
    (ha' : inRange la ha a = true) (hb' : inRange lb hb b = true) :
    inRange (fadd la lb) (fadd ha hb) (fadd a b) = true := by
  simp only [List.all_cons, List.all_nil, Bool.and_true, Bool.and_eq_true] at hfin
  obtain ⟨fla, fha, flb, fhb⟩ := hfin
  obtain ⟨fa, hla, hha⟩ := (inRange_iff_units fla fha).mp ha'
  obtain ⟨fb, hlb, hhb⟩ := (inRange_iff_units flb fhb).mp hb'
  rw [fadd_finite fa fb, fadd_finite fla flb, fadd_finite fha fhb]
  have hnan := finiteSum_not_nan
  exact inRange_iff.mpr ⟨fle_iff.mpr ⟨hnan _ _, hnan _ _, finiteSum_mono (by omega)⟩,
    fle_iff.mpr ⟨hnan _ _, hnan _ _, finiteSum_mono (by omega)⟩⟩

theorem fsub_eq_fadd_of_finite (ha : fisFinite a = true) (hb : fisFinite b = true) :
    fsub a b = fadd a (flipSign b) := by
  rw [fsub_finite ha hb, fadd_finite ha ((fisFinite_flipSign b).trans hb)]

theorem fsub_inRange (hfin : [la, ha, lb, hb].all fisFinite = true)
    (ha' : inRange la ha a = true) (hb' : inRange lb hb b = true) :
    inRange (fsub la hb) (fsub ha lb) (fsub a b) = true := by
  simp only [List.all_cons, List.all_nil, Bool.and_true, Bool.and_eq_true] at hfin
  obtain ⟨fla, fha, flb, fhb⟩ := hfin
  obtain ⟨fa, -⟩ := (inRange_iff_units fla fha).mp ha'
  obtain ⟨fb, hlb, hhb⟩ := (inRange_iff_units flb fhb).mp hb'
  have fneg {x : F64} (hx : fisFinite x = true) := (fisFinite_flipSign x).trans hx
  rw [fsub_eq_fadd_of_finite fa fb, fsub_eq_fadd_of_finite fla fhb, fsub_eq_fadd_of_finite fha flb]
  refine fadd_inRange (by simp [fla, fha, fneg flb, fneg fhb]) ha' ?_
  rw [inRange_iff_units (fneg fhb) (fneg flb)]
  simp only [funits_flipSign]
  exact ⟨fneg fb, by omega, by omega⟩

/-- A product by a factor that is not below 0. -/
theorem fmul_inRange (hfin : [a, lb, hb].all fisFinite = true) (hpos : 0 ≤ funits a)
    (hb' : inRange lb hb b = true) : inRange (fmul a lb) (fmul a hb) (fmul a b) = true := by
  simp only [List.all_cons, List.all_nil, Bool.and_true, Bool.and_eq_true] at hfin
  obtain ⟨fa, flb, fhb⟩ := hfin
  obtain ⟨fb, hlb, hhb⟩ := (inRange_iff_units flb fhb).mp hb'
  have mono {x y : F64} (hx : fisFinite x = true) (hy : fisFinite y = true)
      (hxy : funits x ≤ funits y) : fle (fmul a x) (fmul a y) = true := by
    refine fle_iff.mpr ⟨fmul_not_nan fa hx, fmul_not_nan fa hy, ?_⟩
    rw [fmul_finite fa hx, fmul_finite fa hy]
    refine order_round_mono unitsPerOne_pos unitsPerOne_pos ?_
    rw [signed_product, signed_product]
    exact mul_le_mul_of_nonneg_right (mul_le_mul_of_nonneg_left hxy hpos) (Int.natCast_nonneg _)
  exact inRange_iff.mpr ⟨mono flb fb hlb, mono fb fhb hhb⟩

theorem fmul_comm_of_finite (ha : fisFinite a = true) (hb : fisFinite b = true) :
    fmul a b = fmul b a := by
  rw [fmul_finite ha hb, fmul_finite hb ha, Nat.mul_comm, bne_comm]

/-- The exact quotient by a value above 0, with its sign. -/
theorem signed_quotient (hb : fsign b = false) :
    (if (fsign a != fsign b) then -((magUnits (fmag a) * unitsPerOne : Nat) : Int)
      else ((magUnits (fmag a) * unitsPerOne : Nat) : Int)) = funits a * unitsPerOne := by
  unfold funits
  generalize unitsPerOne = U
  cases fsign a <;> simp [hb]

/-- A quotient by a value above 0. -/
theorem fdiv_inRange (hfin : [la, ha, b].all fisFinite = true) (hpos : 0 < funits b)
    (ha' : inRange la ha a = true) : inRange (fdiv la b) (fdiv ha b) (fdiv a b) = true := by
  simp only [List.all_cons, List.all_nil, Bool.and_true, Bool.and_eq_true] at hfin
  obtain ⟨fla, fha, fb⟩ := hfin
  obtain ⟨fa, hla, hha⟩ := (inRange_iff_units fla fha).mp ha'
  have hsign : fsign b = false := by
    by_contra hs
    rw [Bool.not_eq_false] at hs
    rw [funits, hs, if_pos rfl] at hpos
    omega
  have hmag : fmag b ≠ 0 := fun h0 => by
    rw [funits, hsign, h0, magUnits_zero] at hpos
    exact lt_irrefl _ hpos
  have hden : 0 < magUnits (fmag b) := Nat.pos_of_ne_zero (mt magUnits_eq_zero.mp hmag)
  have mono {x y : F64} (hx : fisFinite x = true) (hy : fisFinite y = true)
      (hxy : funits x ≤ funits y) : fle (fdiv x b) (fdiv y b) = true := by
    rw [fdiv_finite hx fb hmag, fdiv_finite hy fb hmag]
    refine fle_iff.mpr ⟨fisNaN_round _ _ _, fisNaN_round _ _ _, order_round_mono hden hden ?_⟩
    rw [signed_quotient hsign, signed_quotient hsign]
    exact mul_le_mul_of_nonneg_right
      (mul_le_mul_of_nonneg_right hxy (Int.natCast_nonneg _)) (Int.natCast_nonneg _)
  exact inRange_iff.mpr ⟨mono fla fa hla, mono fa fha hha⟩

end Ranges

end Sys2Proof.Machine
end

section
/-! The phase accumulators, the envelopes and the mixer (40_phase_accumulator_oscillator.md,
41_pulse_envelope.md, 45_mixer_saturator.md): each unit operation writes its result and nothing
else, and the ranges of the results. -/

namespace Sys2Proof.Machine

/-! ### Phase accumulators -/

theorem accumulatorOf_of_toNat {k : BitVec 4} {i : Fin 5} (h : k.toNat = i.val) :
    accumulatorOf k = some i := by
  have hlt : k.toNat < 5 := h ▸ i.isLt
  rw [accumulatorOf, dif_pos hlt]
  exact congrArg some (Fin.ext h)

theorem accumulatorOf_reserved {k : BitVec 4} (h : 4 < k.toNat) : accumulatorOf k = none :=
  dif_neg (by omega)

theorem exec_paAdv {k : BitVec 4} {i : Fin 5} (h : k.toNat = i.val) (s : State) :
    exec (.paAdv k) s = .next (paAdv i s.opA s) := by
  rw [exec, execPaAdv, accumulatorOf_of_toNat h]

theorem exec_paVal {k : BitVec 4} {i : Fin 5} (h : k.toNat = i.val) (s : State) :
    exec (.paVal k) s = .next (result s.ph[i] s) := by
  rw [exec, execPaVal, accumulatorOf_of_toNat h]
  rfl

theorem exec_oscSin {k : BitVec 4} {i : Fin 5} (h : k.toNat = i.val) (s : State) :
    exec (.oscSin k) s = .next (result (SIN s.ph[i]) s) := by
  rw [exec, execOscSin, accumulatorOf_of_toNat h]
  rfl

theorem phaseInRange_iff {x : F64} :
    phaseInRange x = true ↔ fle fZero x = true ∧ flt x twoPi = true := by
  rw [phaseInRange, Bool.and_eq_true]

/-- Settles O28: the select field names the accumulator or is reserved (`accumulatorOf_of_toNat`,
`accumulatorOf_reserved`), and P1 and P2 are those of SIN. -/
theorem phaseUnitResults : Obligations.PhaseUnitResults := by
  intro s k
  refine ⟨rfl, fun i hk => ⟨exec_paVal hk s, exec_oscSin hk s, exec_paAdv hk s⟩, fun hk => ?_,
    fun i h => h ▸ SIN_zero, fun i h0 h1 => ?_⟩
  · have hnone := accumulatorOf_reserved hk
    exact ⟨by rw [exec, execPaVal, hnone], by rw [exec, execOscSin, hnone],
      by rw [exec, execPaAdv, hnone]⟩
  · exact inRange_iff.mp (SIN_inRange (phaseInRange_iff.mpr ⟨h0, h1⟩))

/-- The largest value below 2π. -/
def belowTwoPi : F64 := 0x401921FB54442D17

theorem inRange_of_phase {x : F64} (h : phaseInRange x = true) :
    inRange fZero belowTwoPi x = true := by
  obtain ⟨h0, h1⟩ := phaseInRange_iff.mp h
  exact inRange_of_flt_succ (by decide) (by decide) h0 h1

/-- An angle and an increment in [0, 2π) have a sum below 4π, from which one subtraction leads back.
-/
theorem wrapAdvance_phase {angle inc : F64} (ha : phaseInRange angle = true)
    (hi : phaseInRange inc = true) : phaseInRange (wrapAdvance angle inc) = true := by
  have hsum := fadd_inRange (by decide) (inRange_of_phase ha) (inRange_of_phase hi)
  obtain ⟨h0, htop⟩ := inRange_iff.mp hsum
  unfold wrapAdvance
  split
  · rename_i hge
    have hdiff := fsub_inRange (by decide +kernel) (inRange_iff.mpr ⟨hge, htop⟩)
      (inRange_self (x := twoPi) (by decide))
    obtain ⟨hlo, hhi⟩ := inRange_iff.mp hdiff
    exact phaseInRange_iff.mpr ⟨fle_trans (by decide +kernel) hlo,
      flt_of_fle_of_flt hhi (by decide +kernel)⟩
  · rename_i hge
    refine phaseInRange_iff.mpr ⟨fle_trans (by decide +kernel) h0, ?_⟩
    exact flt_of_not_fle (fle_iff.mp h0).2.1 (by decide) (Bool.not_eq_true _ ▸ hge)

/-- Settles O29, by `wrapAdvance_phase`. -/
theorem phaseStaysBelowTwoPi : Obligations.PhaseStaysBelowTwoPi := by
  intro s k i hk ha0 ha1 hi0 hi1
  have hwrap :=
    wrapAdvance_phase (phaseInRange_iff.mpr ⟨ha0, ha1⟩) (phaseInRange_iff.mpr ⟨hi0, hi1⟩)
  refine ⟨_, exec_paAdv hk s, ?_⟩
  have hread : (paAdv i s.opA s).ph[i] = wrapAdvance s.ph[i] s.opA := by
    rw [paAdv_frame]
    exact Vector.getElem_set_self _
  rw [hread]
  exact phaseInRange_iff.mp hwrap

/-! ### Envelopes -/

/-- Settles O30: the two curves are the model's, by definition. -/
theorem envelopeResults : Obligations.EnvelopeResults := fun _ => ⟨rfl, rfl⟩

theorem positiveExponent_of_inRange {lo hi e : F64} (hlo : fisFinite lo = true)
    (hhi : fisFinite hi = true) (hpos : flt fZero lo = true) (h : inRange lo hi e = true) :
    positiveExponent e = true := by
  rw [positiveExponent, Bool.and_eq_true]
  exact ⟨finite_of_inRange hlo hhi h, flt_of_flt_of_fle hpos (inRange_iff.mp h).1⟩

/-- The exponent of the batch curve, 1 + 4 × soft, is in [1, 5]. -/
theorem batchExponent_positive {soft : F64} (h : inRange fZero fOne soft = true) :
    positiveExponent (fadd fOne (fmul kEnvB soft)) = true := by
  have hmul := fmul_inRange (a := kEnvB) (by decide) (by decide +kernel) h
  have hadd := fadd_inRange (by decide +kernel) (inRange_self (x := fOne) (by decide)) hmul
  exact positiveExponent_of_inRange (by decide +kernel) (by decide +kernel) (by decide +kernel) hadd

/-- The exponent of the real-time curve, 1 - 0.9 × soft, is in [0.1, 1]. -/
theorem rtExponent_positive {soft : F64} (h : inRange fZero fOne soft = true) :
    positiveExponent (fsub fOne (fmul kEnvR soft)) = true := by
  have hmul := fmul_inRange (a := kEnvR) (by decide) (by decide +kernel) h
  have hsub := fsub_inRange (by decide +kernel) (inRange_self (x := fOne) (by decide)) hmul
  exact positiveExponent_of_inRange (by decide +kernel) (by decide +kernel) (by decide +kernel) hsub

theorem flt_eq_false_of_fle {a b : F64} (h : fle a b = true) : flt b a = false := by
  obtain ⟨-, -, hle⟩ := fle_iff.mp h
  refine Bool.eq_false_iff.mpr fun hlt => ?_
  exact absurd (flt_iff.mp hlt).2.2 (not_lt.mpr hle)

theorem fle_of_flt_eq_false {a b : F64} (ha : fisNaN a = false) (hb : fisNaN b = false)
    (h : flt b a = false) : fle a b = true := by
  refine fle_iff.mpr ⟨ha, hb, not_lt.mp fun hlt => ?_⟩
  rw [flt_iff.mpr ⟨hb, ha, hlt⟩] at h
  cases h

theorem rectify_of_nonpositive {raw : F64} (h : fle raw fZero = true) : rectify raw = fZero := by
  rw [rectify, flt_eq_false_of_fle h]
  rfl

theorem rectify_inRange {raw : F64} (h : fle raw fOne = true) :
    inRange fZero fOne (rectify raw) = true := by
  unfold rectify
  split
  · rename_i hpos
    exact inRange_iff.mpr ⟨fle_of_flt hpos, h⟩
  · decide

/-- The absolute value of a number is its magnitude. -/
theorem fabs_of_number {x : F64} (h : fisNaN x = false) : fabs x = fpack false (fmag x) := by
  rw [fabs, h]
  rfl

theorem fisNaN_fabs {x : F64} : fisNaN (fabs x) = fisNaN x := by
  cases h : fisNaN x with
  | true =>
    rw [fabs, h, if_pos rfl]
    exact fisNaN_anyNaN _
  | false =>
    rw [fabs_of_number h, fisNaN, fmag_fpack _ (fmag_lt x)]
    exact h

theorem forder_fabs {x : F64} (h : fisNaN x = false) : forder (fabs x) = |forder x| := by
  rw [fabs_of_number h, forder_fpack _ (fmag_lt x), forder]
  cases fsign x <;> simp

theorem fabs_inRange {x : F64} (h0 : fle fZero x = true) (h1 : fle x fOne = true) :
    inRange fZero fOne (fabs x) = true := by
  obtain ⟨-, hx, h0⟩ := fle_iff.mp h0
  obtain ⟨-, hone, h1⟩ := fle_iff.mp h1
  have hz : forder fZero = 0 := by decide
  have hx' := fisNaN_fabs.trans hx
  have ho := forder_fabs hx
  rw [hz] at h0
  rw [abs_of_nonneg h0] at ho
  exact inRange_iff.mpr ⟨fle_iff.mpr ⟨by decide, hx', by omega⟩,
    fle_iff.mpr ⟨hx', hone, by omega⟩⟩

/-- A value that is +0.0 or -0.0 has the absolute value +0.0. -/
theorem fabs_of_forder_zero {x : F64} (hx : fisNaN x = false) (h : forder x = 0) :
    fabs x = fZero := by
  have hmag : fmag x = 0 := by
    unfold forder at h
    split at h <;> omega
  rw [fabs_of_number hx, hmag]
  rfl

theorem envBatch_inRange {raw soft : F64} (hraw : fle raw fOne = true)
    (hsoft : inRange fZero fOne soft = true) : inRange fZero fOne (envBatch raw soft) = true :=
  POW_inRange (batchExponent_positive hsoft) (rectify_inRange hraw)

theorem envBatch_gated {raw soft : F64} (hraw : fle raw fZero = true)
    (hsoft : inRange fZero fOne soft = true) : envBatch raw soft = fZero := by
  rw [envBatch, rectify_of_nonpositive hraw]
  exact POW_zero (batchExponent_positive hsoft)

theorem envRt_inRange {raw soft : F64} (hraw : fle raw fOne = true)
    (hsoft : inRange fZero fOne soft = true) : inRange fZero fOne (envRt raw soft) = true := by
  unfold envRt
  split
  · decide
  · rename_i hneg
    have h0 : fle fZero raw = true :=
      fle_of_flt_eq_false (by decide) (fle_iff.mp hraw).1 (Bool.not_eq_true _ ▸ hneg)
    exact POW_inRange (rtExponent_positive hsoft) (fabs_inRange h0 hraw)

theorem envRt_gated {raw soft : F64} (hraw : fle raw fZero = true)
    (hsoft : inRange fZero fOne soft = true) : envRt raw soft = fZero := by
  obtain ⟨hnan, -, hle⟩ := fle_iff.mp hraw
  unfold envRt
  split
  · rfl
  · rename_i hneg
    have h0 := fle_of_flt_eq_false (a := fZero) (by decide) hnan (Bool.not_eq_true _ ▸ hneg)
    have hz : forder raw = 0 := le_antisymm hle (fle_iff.mp h0).2.2
    rw [fabs_of_forder_zero hnan hz]
    exact POW_zero (rtExponent_positive hsoft)

/-- Settles O31: the exponents are positive and the bases in [0, 1], so property P4 gives the range,
and P3 the gated branch. -/
theorem envelopeInUnitInterval : Obligations.EnvelopeInUnitInterval := by
  intro s _ hraw hsoft0 hsoft1
  have hsoft := inRange_iff.mpr ⟨hsoft0, hsoft1⟩
  obtain ⟨hb0, hb1⟩ := inRange_iff.mp (envBatch_inRange hraw hsoft)
  obtain ⟨hr0, hr1⟩ := inRange_iff.mp (envRt_inRange hraw hsoft)
  exact ⟨_, _, rfl, rfl, hb0, hb1, hr0, hr1, fun hgate =>
    ⟨envBatch_gated hgate hsoft, envRt_gated hgate hsoft⟩⟩

/-! ### The mixer -/

theorem noiseOn_iff {s : State} :
    noiseOn s = true ↔ s.status.capNoise = true ∧ s.act.ntype ≠ 0xFFFFFFFFFFFFFFFF := by
  simp [noiseOn]

theorem noiseOn_eq_false_iff {s : State} :
    noiseOn s = false ↔ s.status.capNoise = false ∨ s.act.ntype = 0xFFFFFFFFFFFFFFFF := by
  rw [← Bool.not_eq_true, noiseOn_iff, not_and_or, Bool.not_eq_true, not_not]

theorem mixDry_noise {s : State} (h : noiseOn s = true) (tone nz : F64) :
    mixDry tone nz s = fmul s.act.gainLin (fadd tone (fmul s.act.nlevel nz)) := if_pos h

theorem mixDry_silent {s : State} (h : noiseOn s = false) (tone nz : F64) :
    mixDry tone nz s = fmul s.act.gainLin tone := if_neg (Bool.eq_false_iff.mp h)

theorem mixWet_reverb {s : State} (h : s.status.capReverb = true) (dry wet : F64) :
    mixWet dry wet s = fadd dry (fmul kWet wet) := if_pos h

theorem mixWet_dry {s : State} (h : s.status.capReverb = false) (dry wet : F64) :
    mixWet dry wet s = dry := if_neg (Bool.eq_false_iff.mp h)

theorem satKnee_linear {x : F64} (h : fle (fabs x) kKneeT = true) : satKnee x = x := if_pos h

theorem satKnee_above {x : F64} (h : fle (fabs x) kKneeT = false) :
    satKnee x =
      if flt fZero x = true then kneeAbove (fabs x) else fneg (kneeAbove (fabs x)) :=
  if_neg (Bool.eq_false_iff.mp h)

theorem exec_mixDry (s : State) : exec .mixDry s = .next (result (mixDry s.opA s.opB s) s) := rfl

theorem exec_mixWet (s : State) : exec .mixWet s = .next (result (mixWet s.opA s.opB s) s) := rfl

theorem exec_satKnee (s : State) : exec .satKnee s = .next (result (satKnee s.opA) s) := rfl

/-- Settles O46, from the equations of the five units by their cases. -/
theorem mixerResults : Obligations.MixerResults := by
  intro s
  refine ⟨rfl, fun hcap htype => ?_, fun hoff => ?_, fun h => ?_, fun h => ?_, rfl, fun h => ?_,
    fun h => ⟨_, rfl, ?_⟩⟩
  · rw [exec_mixDry, mixDry_noise (noiseOn_iff.mpr ⟨hcap, htype⟩)]
    rfl
  · rw [exec_mixDry, mixDry_silent (noiseOn_eq_false_iff.mpr hoff)]
    rfl
  · rw [exec_mixWet, mixWet_reverb h]
    rfl
  · rw [exec_mixWet, mixWet_dry h]
    rfl
  · rw [exec_satKnee, satKnee_linear h]
    rfl
  · rw [exec_satKnee, satKnee_above h]
    rfl

/-- An exponent strictly within 308 gives a power of ten that is finite and above 0 (P5). -/
theorem POW_ten {e : F64} (h : decimalExponent e = true) :
    fisFinite (POW fTen e) = true ∧ flt fZero (POW fTen e) = true := by
  have hten : inRange fZero fOne fTen = false := by decide +kernel
  unfold POW
  rw [hten, Bool.and_false, if_neg (by decide), h, if_pos (by decide)]
  split
  · rename_i hgood
    exact Bool.and_eq_true _ _ ▸ hgood
  · decide

/-- Settles O47: a twentieth of 6000 dB is 300, within the exponents of P5. -/
theorem linearGainIsPositive : Obligations.LinearGainIsPositive := by
  intro s hlo hhi
  have hdiv := fdiv_inRange (b := fTwenty) (by decide) (by decide +kernel)
    (inRange_iff.mpr ⟨hlo, hhi⟩)
  obtain ⟨hlow, hhigh⟩ := inRange_iff.mp hdiv
  refine ⟨_, rfl, POW_ten ?_⟩
  rw [decimalExponent, Bool.and_eq_true]
  exact ⟨flt_of_flt_of_fle (by decide +kernel) hlow, flt_of_fle_of_flt hhigh (by decide +kernel)⟩

/-- Settles O48, by properties P6 to P8 of TANH. -/
theorem tanhSaturatorBounded : Obligations.TanhSaturatorBounded := by
  refine ⟨rfl, fun s => ⟨_, rfl, rfl, fun h => ?_, fun h => ?_, fun h => TANH_nan h⟩⟩
  · exact (congrArg TANH h).trans TANH_zero
  · exact inRange_iff.mp (TANH_inRange h)

/-! ### The knee -/

theorem fisNaN_nanResult (op : NanOp) (a b : F64) : fisNaN (nanResult op a b) = true :=
  fisNaN_quietNaN _

theorem fadd_nan_right {a b : F64} (h : fisNaN b = true) : fisNaN (fadd a b) = true := by
  rw [fadd, h, Bool.or_true, if_pos rfl]
  exact fisNaN_nanResult _ _ _

theorem fsub_nan_left {a b : F64} (h : fisNaN a = true) : fisNaN (fsub a b) = true := by
  rw [fsub, h, Bool.true_or, if_pos rfl]
  exact fisNaN_nanResult _ _ _

theorem fmul_nan_left {a b : F64} (h : fisNaN a = true) : fisNaN (fmul a b) = true := by
  rw [fmul, h, Bool.true_or, if_pos rfl]
  exact fisNaN_nanResult _ _ _

theorem fneg_nan {x : F64} (h : fisNaN x = true) : fisNaN (fneg x) = true := by
  rw [fneg, h, if_pos rfl]
  exact fisNaN_anyNaN _

theorem fneg_of_number {x : F64} (h : fisNaN x = false) : fneg x = flipSign x := by
  rw [fneg, h]
  rfl

theorem flipSign_flipSign (x : F64) : flipSign (flipSign x) = x := by
  rw [flipSign, flipSign, fsign_fpack, fmag_fpack _ (fmag_lt x), Bool.not_not, fpack_self]

theorem fneg_fneg {x : F64} (h : fisNaN x = false) : fneg (fneg x) = x := by
  rw [fneg_of_number h, fneg_of_number ((fisNaN_flipSign x).trans h), flipSign_flipSign]

/-- A sum of a finite value and a number is a number. -/
theorem fadd_number {a b : F64} (ha : fisFinite a = true) (hb : fisNaN b = false) :
    fisNaN (fadd a b) = false := by
  obtain ⟨hna, hia⟩ := not_special ha
  rw [fadd, hna, hb, sumOf, hia]
  simp only [Bool.or_self, Bool.false_eq_true, if_false]
  split
  · exact hb
  · exact finiteSum_not_nan a b

/-- A difference of a number and a finite value is a number. -/
theorem fsub_number {a b : F64} (ha : fisNaN a = false) (hb : fisFinite b = true) :
    fisNaN (fsub a b) = false := by
  obtain ⟨hnb, -⟩ := not_special hb
  have hib := (not_special ((fisFinite_flipSign b).trans hb)).2
  rw [fsub, ha, hnb, sumOf, hib]
  simp only [Bool.or_self, Bool.false_and, Bool.false_eq_true, if_false]
  split
  · exact ha
  · exact finiteSum_not_nan a _

/-- A product of a number and a finite value other than 0 is a number. -/
theorem fmul_number {a b : F64} (ha : fisNaN a = false) (hb : fisFinite b = true)
    (h0 : fmag b ≠ 0) : fisNaN (fmul a b) = false := by
  obtain ⟨hnb, hib⟩ := not_special hb
  have hb0 : (fmag b == 0) = false := beq_false_of_ne h0
  rw [fmul, ha, hnb, hib, hb0]
  simp only [Bool.or_self, Bool.or_false, Bool.false_eq_true, if_false]
  split
  · rename_i hia
    have hmag : fmag a = infMag := of_decide_eq_true hia
    rw [hmag, if_neg (by decide)]
    exact fisNaN_eq_false.mpr (by rw [fmag_fpack _ (by decide)])
  · exact fisNaN_round _ _ _

theorem kneeAbove_number {a : F64} (h : fisNaN a = false) : fisNaN (kneeAbove a) = false :=
  fadd_number (by decide) (fmul_number (fsub_number h (by decide)) (by decide) (by decide))

theorem kneeAbove_nan {a : F64} (h : fisNaN a = true) : fisNaN (kneeAbove a) = true :=
  fadd_nan_right (fmul_nan_left (fsub_nan_left h))

theorem satKnee_nan {x : F64} (h : fisNaN x = true) : fisNaN (satKnee x) = true := by
  have hle : fle (fabs x) kKneeT = false := by rw [fle, fisNaN_fabs.trans h]; rfl
  have hlt : flt fZero x = false := by rw [flt, h, Bool.not_true, Bool.and_false, Bool.false_and]
  rw [satKnee_above hle, hlt]
  exact fneg_nan (kneeAbove_nan (fisNaN_fabs.trans h))

theorem fabs_fneg {x : F64} (h : fisNaN x = false) : fabs (fneg x) = fabs x := by
  rw [fneg_of_number h, fabs_of_number h, fabs_of_number ((fisNaN_flipSign x).trans h), flipSign,
    fmag_fpack _ (fmag_lt x)]

theorem forder_fneg {x : F64} (h : fisNaN x = false) : forder (fneg x) = -forder x := by
  rw [fneg_of_number h, forder_flipSign]

/-- Beyond the threshold a number is not 0, so exactly one of it and its negation is above 0. -/
theorem flt_zero_fneg {x : F64} (h : fisNaN x = false) (hx : fle (fabs x) kKneeT = false) :
    flt fZero (fneg x) = !flt fZero x := by
  have hn : fisNaN (fneg x) = false := by rw [fneg_of_number h, fisNaN_flipSign, h]
  have hz : forder fZero = 0 := by decide
  have hT : (0 : Int) ≤ forder kKneeT := by decide
  have hne : forder x ≠ 0 := by
    intro h0
    have : fle (fabs x) kKneeT = true := by
      rw [fabs_of_forder_zero h h0]
      decide
    rw [this] at hx
    cases hx
  rw [flt, flt, h, hn, forder_fneg h, hz, Bool.not_false, Bool.and_true,
    show fisNaN fZero = false by decide, Bool.not_false, Bool.true_and, Bool.true_and, ← decide_not]
  exact decide_eq_decide.mpr (by omega)

/-- The knee is odd. -/
theorem satKnee_fneg {x : F64} (h : fisNaN x = false) : satKnee (fneg x) = fneg (satKnee x) := by
  cases hx : fle (fabs x) kKneeT with
  | true => rw [satKnee_linear hx, satKnee_linear (by rw [fabs_fneg h]; exact hx)]
  | false =>
    rw [satKnee_above hx, satKnee_above (by rw [fabs_fneg h]; exact hx), fabs_fneg h,
      flt_zero_fneg h hx]
    cases flt fZero x with
    | true => rfl
    | false => exact (fneg_fneg (kneeAbove_number (fisNaN_fabs.trans h))).symm

/-- The bound of the knee, 0.91. -/
def kneeTop : F64 := 0x3FED1EB851EB851F

theorem fneg_inRange {y : F64} (h : inRange (fneg kneeTop) kneeTop y = true) :
    inRange (fneg kneeTop) kneeTop (fneg y) = true := by
  obtain ⟨hl, hh⟩ := inRange_iff.mp h
  obtain ⟨hnlo, hy, hl⟩ := fle_iff.mp hl
  obtain ⟨-, hnhi, hh⟩ := fle_iff.mp hh
  have hn : fisNaN (fneg y) = false := by rw [fneg_of_number hy, fisNaN_flipSign, hy]
  have ho := forder_fneg hy
  have htop := forder_fneg hnhi
  exact inRange_iff.mpr ⟨fle_iff.mpr ⟨hnlo, hn, by omega⟩, fle_iff.mpr ⟨hn, hnhi, by omega⟩⟩

theorem fabs_le_one {x : F64} (hlo : fle fMinusOne x = true) (hhi : fle x fOne = true) :
    fle (fabs x) fOne = true := by
  obtain ⟨-, hx, hlo⟩ := fle_iff.mp hlo
  obtain ⟨-, -, hhi⟩ := fle_iff.mp hhi
  have hm : forder fMinusOne = -forder fOne := by decide
  refine fle_iff.mpr ⟨fisNaN_fabs.trans hx, by decide, ?_⟩
  rw [forder_fabs hx, abs_le]
  omega

/-- For an operand in [-1, 1] the knee is within 0.91. -/
theorem satKnee_bound {x : F64} (hlo : fle fMinusOne x = true) (hhi : fle x fOne = true) :
    inRange (fneg kneeTop) kneeTop (satKnee x) = true := by
  have hx : fisNaN x = false := (fle_iff.mp hlo).2.1
  cases hk : fle (fabs x) kKneeT with
  | true =>
    have hT : forder kKneeT ≤ forder kneeTop := by decide
    have htop := forder_fneg (x := kneeTop) (by decide)
    obtain ⟨-, -, ho⟩ := fle_iff.mp hk
    rw [forder_fabs hx] at ho
    obtain ⟨h1, h2⟩ := abs_le.mp (ho.trans hT)
    rw [satKnee_linear hk]
    exact inRange_iff.mpr ⟨fle_iff.mpr ⟨by decide, hx, by omega⟩, fle_iff.mpr ⟨hx, by decide, h2⟩⟩
  | false =>
    have hge : fle kKneeT (fabs x) = true :=
      fle_of_flt (flt_of_not_fle (by decide) (fisNaN_fabs.trans hx) hk)
    have habs := inRange_iff.mpr ⟨hge, fabs_le_one hlo hhi⟩
    have hsub := fsub_inRange (by decide) habs (inRange_self (x := kKneeT) (by decide))
    have hmul := fmul_inRange (a := kKneeR) (by decide +kernel) (by decide +kernel) hsub
    rw [fmul_comm_of_finite (by decide)
      (finite_of_inRange (by decide +kernel) (by decide +kernel) hsub)]
      at hmul
    have hadd := fadd_inRange (by decide +kernel) (inRange_self (x := kKneeT) (by decide)) hmul
    have hknee : inRange (fneg kneeTop) kneeTop (kneeAbove (fabs x)) = true :=
      inRange_weaken (by decide +kernel) (by decide +kernel) hadd
    rw [satKnee_above hk]
    split
    · exact hknee
    · exact fneg_inRange hknee

/-- Settles O49, by `satKnee_bound`, `satKnee_nan` and `satKnee_fneg`. -/
theorem kneeBoundAndSymmetry : Obligations.KneeBoundAndSymmetry := by
  intro s
  refine ⟨_, exec_satKnee s, fun hlo hhi => ?_, satKnee_nan, fun hx =>
    ⟨_, exec_satKnee _, satKnee_fneg hx⟩⟩
  have htop : fneg kneeTop = 0xBFED1EB851EB851F := by decide +kernel
  have hrange := satKnee_bound hlo hhi
  rw [htop] at hrange
  exact inRange_iff.mp hrange

end Sys2Proof.Machine
end

section
/-! The journey interpolator and the noise unit (42_journey_interpolator.md,
43_noise_synthesizer.md). -/

namespace Sys2Proof.Machine

/-! ### The segment of a time -/

/-- The segment is the first whose upper time is not below `t`, or the last. -/
theorem jnySegment_eq {kfT : Vector F64 5} {t : F64} {i : Fin 4}
    (hup : fle t kfT[i.succ] = true ∨ i = 3)
    (hlow : ∀ m : Fin 4, m < i → fle t kfT[m.succ] = false) : jnySegment kfT t = i := by
  have below (m : Fin 4) (hm : m < i) : ¬ fle t kfT[m.succ] = true :=
    Bool.eq_false_iff.mp (hlow m hm)
  fin_cases i
  · exact if_pos (hup.resolve_right (by decide))
  · exact (if_neg (below 0 (by decide))).trans (if_pos (hup.resolve_right (by decide)))
  · exact (if_neg (below 0 (by decide))).trans ((if_neg (below 1 (by decide))).trans
      (if_pos (hup.resolve_right (by decide))))
  · exact (if_neg (below 0 (by decide))).trans ((if_neg (below 1 (by decide))).trans
      (if_neg (below 2 (by decide))))

/-- A list of keyframe values at a time, from its segment. -/
theorem journeyValue_of_segment {kfT : Vector F64 5} {t : F64} {i : Fin 4} (values : Vector F64 5)
    (hrise : keyframesRise kfT = true) (hi : jnySegment kfT t = i) :
    journeyValue kfT values t =
      interpolate (jnyAlpha kfT i t) values[i.castSucc] values[i.succ] := by
  subst hi
  exact journeyValue_rise t hrise

/-- Settles O32: JNY.BUILD by definition; JNY.EVAL by its frame and the segment (`jnySegment_eq`);
no segment has width 0 by `fsub_pos`. -/
theorem journeyResults : Obligations.JourneyResults := by
  refine ⟨fun s => rfl, fun s => ⟨_, _, execJnyEval_frame s⟩, fun s hrise i => fsub_pos (hrise i),
    fun s i alpha hrise hup hlow halpha => ?_⟩
  have hvalue (values : Vector F64 5) :=
    journeyValue_of_segment values (keyframesRise_iff.mpr hrise) (jnySegment_eq hup hlow)
  have hjny : jnyAlpha s.act.kfT i s.opA = alpha := halpha.symm
  rw [exec, execJnyEval_frame, hvalue, hvalue, hjny]
  rfl

/-! ### Exact operations -/

theorem fsub_self {x : F64} (h : fisFinite x = true) : fsub x x = fZero := by
  rw [fsub_finite h h, finiteSum, funits_flipSign, if_pos (by omega), flipSign, fsign_fpack,
    Bool.and_not_self]
  rfl

/-- A value above 0 has no sign and a magnitude. -/
theorem positive_iff {x : F64} :
    flt fZero x = true ↔ fisNaN x = false ∧ fsign x = false ∧ fmag x ≠ 0 := by
  have hz : forder fZero = 0 := by decide
  rw [flt_iff, hz, forder]
  cases fsign x
  · simp [show fisNaN fZero = false by decide, Nat.pos_iff_ne_zero]
  · simp

theorem fdiv_zero_left {w : F64} (hw : fisFinite w = true) (hpos : flt fZero w = true) :
    fdiv fZero w = fZero := by
  obtain ⟨-, hs, hm⟩ := positive_iff.mp hpos
  have h0 : magUnits (fmag fZero) = 0 := by decide
  rw [fdiv_finite (by decide) hw hm, hs, h0, Nat.zero_mul, roundMag_zero]
  rfl

theorem magUnits_one : magUnits (fmag fOne) = unitsPerOne := by decide +kernel

theorem fdiv_self {w : F64} (hw : fisFinite w = true) (hpos : flt fZero w = true) :
    fdiv w w = fOne := by
  obtain ⟨-, -, hm⟩ := positive_iff.mp hpos
  have hden : 0 < magUnits (fmag w) := Nat.pos_of_ne_zero (mt magUnits_eq_zero.mp hm)
  rw [fdiv_finite hw hw hm, bne_self_eq_false, Nat.mul_comm, ← magUnits_one,
    roundMag_exact (by decide) hden]
  rfl

theorem fmul_one_left {a : F64} (ha : fisFinite a = true) : fmul fOne a = a := by
  rw [fmul_finite (by decide) ha, magUnits_one, Nat.mul_comm,
    roundMag_exact (of_decide_eq_true ha) unitsPerOne_pos, show fsign fOne = false by decide,
    Bool.false_bne, fpack_self]

theorem fmul_zero_left {a : F64} (ha : fisFinite a = true) :
    fmul fZero a = fpack (fsign a) 0 := by
  rw [fmul_finite (by decide) ha, show fmag fZero = 0 by decide, magUnits_zero, Nat.zero_mul,
    roundMag_zero, show fsign fZero = false by decide, Bool.false_bne]

theorem finiteSum_comm (a b : F64) : finiteSum a b = finiteSum b a := by
  rw [finiteSum, finiteSum, add_comm, Bool.and_comm]

/-- A zero added to a value other than -0.0 leaves it as it is. -/
theorem finiteSum_zero {a : F64} (s : Bool) (ha : fisFinite a = true)
    (hneg : a ≠ 0x8000000000000000) : finiteSum a (fpack s 0) = a := by
  have hz : funits (fpack s 0) = 0 := by cases s <;> decide
  have hlt : fmag a < infMag := of_decide_eq_true ha
  rw [finiteSum, hz, add_zero]
  by_cases h0 : funits a = 0
  · have hmag : fmag a = 0 := by
      unfold funits at h0
      split at h0 <;> exact magUnits_eq_zero.mp (by omega)
    have hsign : fsign a = false := by
      by_contra hs
      rw [Bool.not_eq_false] at hs
      exact hneg (by rw [← fpack_self a, hs, hmag]; rfl)
    rw [if_pos h0, hsign, Bool.false_and]
    conv_rhs => rw [← fpack_self a, hsign, hmag]
  · have hunits : (funits a).natAbs = magUnits (fmag a) := by
      unfold funits
      split <;> simp
    have hsign : decide (funits a < 0) = fsign a := by
      unfold funits at h0 ⊢
      cases fsign a <;> simp at h0 ⊢
      omega
    rw [if_neg h0, hunits, hsign, ← Nat.mul_one (magUnits _), roundMag_exact hlt Nat.one_pos,
      fpack_self]

/-! ### The ends of a segment -/

/-- Equal as numbers, and bit for bit but for -0.0: what R135 asks of the value at a keyframe. -/
def Meets (x v : F64) : Prop := sameNumber x v = true ∧ (v ≠ 0x8000000000000000 → x = v)

theorem sameNumber_self {x : F64} (h : fisNaN x = false) : sameNumber x x = true := by
  have hle : fle x x = true := fle_iff.mpr ⟨h, h, le_rfl⟩
  rw [sameNumber, hle]
  rfl

theorem meets_finiteSum_zero {v : F64} (s : Bool) (hv : fisFinite v = true) :
    Meets (finiteSum v (fpack s 0)) v := by
  by_cases hneg : v = 0x8000000000000000
  · subst hneg
    exact ⟨by cases s <;> decide, fun h => absurd rfl h⟩
  · rw [finiteSum_zero s hv hneg]
    exact ⟨sameNumber_self (not_special hv).1, fun _ => rfl⟩

theorem interpolate_zero {a b : F64} (ha : fisFinite a = true) (hb : fisFinite b = true) :
    Meets (interpolate fZero a b) a := by
  have hone : fsub fOne fZero = fOne := by decide +kernel
  rw [interpolate, hone, fmul_one_left ha, fmul_zero_left hb,
    fadd_finite ha (by cases fsign b <;> decide)]
  exact meets_finiteSum_zero _ ha

theorem interpolate_one {a b : F64} (ha : fisFinite a = true) (hb : fisFinite b = true) :
    Meets (interpolate fOne a b) b := by
  rw [interpolate, fsub_self (by decide), fmul_one_left hb, fmul_zero_left ha,
    fadd_finite (by cases fsign a <;> decide) hb, finiteSum_comm]
  exact meets_finiteSum_zero _ hb

/-- The keyframe times of a journey: finite, from a time not below 0, strictly increasing. -/
structure JourneyTimes (kfT : Vector F64 5) : Prop where
  first : fle fZero kfT[(0 : Fin 5)] = true
  rise : ∀ m : Fin 4, flt kfT[m.castSucc] kfT[m.succ] = true
  finite : ∀ m : Fin 5, fisFinite kfT[m] = true

namespace JourneyTimes

variable {kfT : Vector F64 5}

theorem strictMono (h : JourneyTimes kfT) : StrictMono fun i : Fin 5 => forder kfT[i] :=
  Fin.strictMono_iff_lt_succ.mpr fun m => (flt_iff.mp (h.rise m)).2.2

/-- The width of a segment is finite and above 0. -/
theorem width (h : JourneyTimes kfT) (m : Fin 4) :
    fisFinite (fsub kfT[m.succ] kfT[m.castSucc]) = true ∧
      flt fZero (fsub kfT[m.succ] kfT[m.castSucc]) = true := by
  have hpos := fsub_pos (h.rise m)
  refine ⟨?_, hpos⟩
  have hlow : forder fZero ≤ forder kfT[m.castSucc] :=
    (fle_iff.mp h.first).2.2.trans (h.strictMono.monotone (Fin.zero_le _))
  have hunits := funits_le_iff.mpr hlow
  rw [show funits fZero = 0 by decide] at hunits
  refine finite_of_between (by decide) (h.finite m.succ) (flt_iff.mp hpos).2.2.le ?_
  rw [fsub_finite (h.finite _) (h.finite _)]
  exact finiteSum_le (h.finite _) (by rw [funits_flipSign]; omega)

theorem fle_self (h : JourneyTimes kfT) (i : Fin 5) : fle kfT[i] kfT[i] = true :=
  fle_iff.mpr ⟨(not_special (h.finite i)).1, (not_special (h.finite i)).1, le_rfl⟩

theorem segment_first (h : JourneyTimes kfT) : jnySegment kfT kfT[(0 : Fin 5)] = 0 :=
  jnySegment_eq (Or.inl (fle_of_flt (h.rise 0))) fun m hm => absurd hm (Fin.not_lt_zero m)

/-- A later keyframe time is the upper end of its segment. -/
theorem segment_upper (h : JourneyTimes kfT) (m : Fin 4) : jnySegment kfT kfT[m.succ] = m := by
  refine jnySegment_eq (Or.inl (h.fle_self _)) fun l hl => ?_
  have hlt := h.strictMono (Fin.succ_lt_succ_iff.mpr hl)
  exact Bool.eq_false_iff.mpr fun hle => absurd (fle_iff.mp hle).2.2 (not_le.mpr hlt)

theorem alpha_first (h : JourneyTimes kfT) : jnyAlpha kfT 0 kfT[(0 : Fin 5)] = fZero := by
  obtain ⟨hfin, hpos⟩ := h.width 0
  have hself : fsub kfT[(0 : Fin 5)] kfT[(0 : Fin 4).castSucc] = fZero := fsub_self (h.finite 0)
  rw [jnyAlpha, hself, fdiv_zero_left hfin hpos]
  decide

theorem alpha_upper (h : JourneyTimes kfT) (m : Fin 4) : jnyAlpha kfT m kfT[m.succ] = fOne := by
  obtain ⟨hfin, hpos⟩ := h.width m
  rw [jnyAlpha, fdiv_self hfin hpos]
  decide

/-- At every keyframe time the value is that keyframe's. -/
theorem meets (h : JourneyTimes kfT) {values : Vector F64 5}
    (hv : ∀ m : Fin 5, fisFinite values[m] = true) (i : Fin 5) :
    Meets (journeyValue kfT values kfT[i]) values[i] := by
  have hrise := keyframesRise_iff.mpr h.rise
  cases i using Fin.cases with
  | zero =>
    rw [journeyValue_of_segment values hrise h.segment_first, h.alpha_first]
    exact interpolate_zero (hv _) (hv _)
  | succ m =>
    rw [journeyValue_of_segment values hrise (h.segment_upper m), h.alpha_upper]
    exact interpolate_one (hv _) (hv _)

end JourneyTimes

/-- Settles O33, by `JourneyTimes.meets` of either list. -/
theorem journeyMeetsItsKeyframes : Obligations.JourneyMeetsItsKeyframes := by
  intro s i hfirst hrise hfin ht
  have htimes : JourneyTimes s.act.kfT := ⟨hfirst, hrise, fun m => (hfin m).1⟩
  have hp := htimes.meets (fun m => (hfin m).2.1) i
  have hc := htimes.meets (fun m => (hfin m).2.2) i
  refine ⟨_, execJnyEval_frame s, ?_⟩
  rw [ht]
  exact ⟨hp.1, hc.1, hp.2, hc.2⟩

/-! ### NZ.PREP, NZ.LFO, NZ.LPF -/

/-- Settles O34: the three operations by definition. -/
theorem noisePrepareAndFilterResults : Obligations.NoisePrepareAndFilterResults :=
  fun _ => ⟨rfl, ⟨_, rfl, rfl⟩, ⟨_, rfl, rfl⟩⟩

/-- The coefficient from a sine in [-1, 1]. -/
theorem lfoAlpha_inRange {x : F64} (h : inRange fMinusOne fOne x = true) :
    inRange 0x3F747AE147AE147B 0x3FAC28F5C28F5C29 (lfoAlpha x) = true := by
  have hhalf := fmul_inRange (a := fHalf) (by decide) (by decide +kernel) h
  have hsum := fadd_inRange (by decide +kernel) (inRange_self (x := fHalf) (by decide)) hhalf
  have hdepth := fmul_inRange (a := kLpfDepth) (by decide +kernel) (by decide +kernel) hsum
  rw [fmul_comm_of_finite (by decide)
    (finite_of_inRange (by decide +kernel) (by decide +kernel) hsum)] at hdepth
  have hbase := fadd_inRange (by decide +kernel) (inRange_self (x := kLpfBase) (by decide)) hdepth
  exact inRange_weaken (by decide +kernel) (by decide +kernel) hbase

/-- Settles O38: property P2 of the sine and `lfoAlpha_inRange`. -/
theorem lowpassCoefficientRange : Obligations.LowpassCoefficientRange := by
  intro s h0 h1
  have hsine : inRange fMinusOne fOne (oscSin 4 s) = true :=
    SIN_inRange (phaseInRange_iff.mpr ⟨h0, h1⟩)
  obtain ⟨hlo, hhi⟩ := inRange_iff.mp (lfoAlpha_inRange hsine)
  refine ⟨_, rfl, hlo, hhi, fun hzero => ?_⟩
  have hsin : oscSin 4 s = fZero := (congrArg SIN hzero).trans SIN_zero
  have hres : lfoAlpha (oscSin 4 s) = 0x3F9EB851EB851EB9 := by
    rw [hsin]
    decide +kernel
  exact hres

/-- Settles O39: the generator writes noise registers and draws only (`nzGenerate_frame`), so the
buses that it leaves are those it found. -/
theorem noiseProcChainsTheUnits : Obligations.NoiseProcChainsTheUnits := by
  intro s
  have hgen : exec (if s.act.ntype = 0 then .nzWhite else if s.act.ntype = 1 then .nzPink
      else .nzBrown) s = .next (result (nzGenerate s).1 (nzGenerate s).2) := by
    unfold nzGenerate
    split
    · rfl
    · split <;> rfl
  obtain ⟨nz, d, hframe, -⟩ := nzGenerate_frame s
  refine ⟨_, _, _, hgen, rfl, rfl, ?_⟩
  rw [exec, execNzProc, nzProc, hframe]
  rfl

/-! ### White and brown -/

theorem drawValue_inRange {s : State}
    (h : ∀ v ∈ s.rndGiven, fle fMinusOne v = true ∧ fle v fOne = true) :
    inRange fMinusOne fOne (drawValue s) = true := by
  unfold drawValue streamValue
  split
  · rename_i w hw
    exact inRange_iff.mpr (h w (List.mem_of_getElem? hw))
  · exact RND_inRange _

/-- The brown integrator's bound, 5, and -5. -/
def brownTop : F64 := 0x4014000000000000

/-- The leak is strong enough to hold the integrator within 5. -/
theorem brownNext_inRange {brown w : F64} (hb : inRange 0xC014000000000000 brownTop brown = true)
    (hw : inRange fMinusOne fOne w = true) :
    inRange 0xC014000000000000 brownTop (brownNext brown w) = true := by
  have hin := fmul_inRange (a := kBrownIn) (by decide) (by decide +kernel) hw
  have hsum := fadd_inRange (by decide +kernel) hb hin
  have hdiv := fdiv_inRange (b := kBrownLeak) (by decide +kernel) (by decide +kernel) hsum
  exact inRange_weaken (by decide +kernel) (by decide +kernel) hdiv

theorem brownGain_inRange {b : F64} (hb : inRange 0xC014000000000000 brownTop b = true) :
    inRange 0xC031800000000000 0x4031800000000000 (fmul b kBrownGain) = true := by
  have hmul := fmul_inRange (a := kBrownGain) (by decide) (by decide +kernel) hb
  rw [fmul_comm_of_finite (by decide) (finite_of_inRange (by decide) (by decide) hb)] at hmul
  exact inRange_weaken (by decide +kernel) (by decide +kernel) hmul

/-- Settles O35: the draw is `drawValue`, and the bounds are `brownNext_inRange` and
`brownGain_inRange`. -/
theorem whiteAndBrownTakeOneDraw : Obligations.WhiteAndBrownTakeOneDraw := by
  intro s hgiven
  have hw := drawValue_inRange hgiven
  obtain ⟨hlo, hhi⟩ := inRange_iff.mp hw
  refine ⟨drawValue s, rfl, hlo, hhi, fun _ => drawValue_given, drawValue_free, rfl, rfl, ?_⟩
  rintro hb0 hb1 b rfl
  have hb := brownNext_inRange (inRange_iff.mpr ⟨hb0, hb1⟩) hw
  obtain ⟨hn0, hn1⟩ := inRange_iff.mp hb
  obtain ⟨hg0, hg1⟩ := inRange_iff.mp (brownGain_inRange hb)
  exact ⟨hn0, hn1, hg0, hg1⟩

end Sys2Proof.Machine
end

section
/-! Pink noise (43_noise_synthesizer.md R155): one call refreshes the rows that are due, which are
an initial part of the rows, each by the next draw; and the cadence of the calls (section 6). -/

namespace Sys2Proof.Machine

/-! ### One call -/

/-- How many rows are due on call `n`. -/
def dueCount (n : Nat) : Nat := (List.range 7).countP fun i => decide (n % 2 ^ i = 0)

theorem rowDue_iff {n : U64} {i : Fin 7} : rowDue n i = true ↔ n.toNat % 2 ^ i.val = 0 :=
  decide_eq_true_iff

theorem rowDue_eq_false_iff {n : U64} {i : Fin 7} : rowDue n i = false ↔ n.toNat % 2 ^ i.val ≠ 0 :=
  decide_eq_false_iff_not

/-- Where a row is due, so are all rows before it. -/
theorem countP_of_due {n i : Nat} (h : n % 2 ^ i = 0) :
    ((List.range i).countP fun j => decide (n % 2 ^ j = 0)) = i := by
  have hall : ∀ j ∈ List.range i, decide (n % 2 ^ j = 0) = true := fun j hj => by
    have hpow : 2 ^ j ∣ 2 ^ i := pow_dvd_pow 2 (List.mem_range.mp hj).le
    exact decide_eq_true (Nat.mod_eq_zero_of_dvd (hpow.trans (Nat.dvd_of_mod_eq_zero h)))
  rw [List.countP_eq_length.mpr hall, List.length_range]

/-- What a call with counter `n` has done from `s` when `t` has its first `k` rows behind it: each
row that is due holds the draw of its own number, the other rows are those of `s`. -/
structure RowsDone (n : U64) (s t : State) (k : Nat) : Prop where
  given : t.rndGiven = s.rndGiven
  draws : t.draws =
    s.draws + BitVec.ofNat 64 ((List.range k).countP fun i => decide (n.toNat % 2 ^ i = 0))
  due : ∀ i : Fin 7, i.val < k → rowDue n i = true →
    t.nz.row[i] = drawValue { s with draws := s.draws + BitVec.ofNat 64 i.val }
  kept : ∀ i : Fin 7, k ≤ i.val ∨ rowDue n i = false → t.nz.row[i] = s.nz.row[i]

namespace RowsDone

variable {n : U64} {s t : State}

theorem start (n : U64) (s : State) : RowsDone n s s 0 where
  given := rfl
  draws := (BitVec.add_zero s.draws).symm
  due _ h := absurd h (Nat.not_lt_zero _)
  kept _ _ := rfl

theorem row_due {i : Fin 7} (h : RowsDone n s t i.val) (hdue : rowDue n i = true) :
    RowsDone n s (pinkRow n t i) (i.val + 1) := by
  obtain ⟨hgiven, hdraws, hrow⟩ := pinkRow_values n t i
  rw [if_pos hdue] at hdraws hrow
  have hcount := countP_of_due (rowDue_iff.mp hdue)
  refine ⟨hgiven.trans h.given, ?_, fun l hl hldue => ?_, fun l hl => ?_⟩
  · rw [hdraws, h.draws, List.range_succ, List.countP_append, hcount, BitVec.add_assoc,
      List.countP_singleton, if_pos (decide_eq_true (rowDue_iff.mp hdue)), BitVec.ofNat_add]
    rfl
  · rw [hrow]
    rcases Nat.lt_succ_iff_lt_or_eq.mp hl with hlt | heq
    · have hset : (t.nz.row.set i.val (drawValue t) i.isLt)[l] = t.nz.row[l] :=
        Vector.getElem_set_ne _ _ (by omega)
      rw [hset, h.due l hlt hldue]
    · obtain rfl : l = i := Fin.ext heq
      have hset : (t.nz.row.set l.val (drawValue t) l.isLt)[l] = drawValue t :=
        Vector.getElem_set_self _
      rw [hset]
      refine drawValue_congr h.given ?_
      rw [h.draws, hcount]
  · have hne : i.val ≠ l.val := by
      rintro heq
      rcases hl with hl | hl
      · omega
      · rw [← Fin.ext heq, hdue] at hl
        cases hl
    have hset : (t.nz.row.set i.val (drawValue t) i.isLt)[l] = t.nz.row[l] :=
      Vector.getElem_set_ne _ _ hne
    rw [hrow, hset]
    exact h.kept l (hl.imp (by omega) id)

theorem row_kept {i : Fin 7} (h : RowsDone n s t i.val) (hdue : rowDue n i = false) :
    RowsDone n s (pinkRow n t i) (i.val + 1) := by
  have hsame : pinkRow n t i = t := if_neg (Bool.eq_false_iff.mp hdue)
  rw [hsame]
  refine ⟨h.given, ?_, fun l hl hldue => ?_, fun l hl => h.kept l (hl.imp (by omega) id)⟩
  · rw [h.draws, List.range_succ, List.countP_append, List.countP_singleton,
      if_neg (by simpa using rowDue_eq_false_iff.mp hdue), Nat.add_zero]
  · refine h.due l (Nat.lt_of_le_of_ne (Nat.le_of_lt_succ hl) fun heq => ?_) hldue
    rw [Fin.ext heq, hdue] at hldue
    cases hldue

theorem row (i : Fin 7) (h : RowsDone n s t i.val) : RowsDone n s (pinkRow n t i) (i.val + 1) := by
  cases hdue : rowDue n i with
  | true => exact h.row_due hdue
  | false => exact h.row_kept hdue

/-- The seven rows in their order. -/
theorem rows (n : U64) (s : State) : RowsDone n s (pinkRows n s) 7 :=
  ((((((start n s).row 0).row 1).row 2).row 3).row 4).row 5 |>.row 6

end RowsDone

/-- All that NZ.PINK does, in the rows that its call leaves. -/
theorem exec_nzPink (s : State) : exec .nzPink s = .next { s with
    nz.row := (pinkRows s.nz.cnt s).nz.row
    nz.cnt := pinkCount s.nz.cnt
    draws := s.draws + BitVec.ofNat 64 (dueCount s.nz.cnt.toNat)
    resA := fmul (rowSum (pinkRows s.nz.cnt s).nz.row) kPinkGain } := by
  obtain ⟨row, d, hframe⟩ := pinkRows_frame s.nz.cnt s
  have hdraws := (RowsDone.rows s.nz.cnt s).draws
  rw [exec, execNzPink, nzPink, dueCount, ← hdraws, hframe]
  rfl

/-- Where the stream is given far enough, a draw by its number is the given value. -/
theorem drawValue_of_given {s : State} {i : Nat} (h : s.draws.toNat + i < s.rndGiven.length)
    (hlen : s.rndGiven.length < 2 ^ 64) :
    s.rndGiven[s.draws.toNat + i]? =
      some (drawValue { s with draws := s.draws + BitVec.ofNat 64 i }) := by
  have hdraws : (s.draws + BitVec.ofNat 64 i).toNat = s.draws.toNat + i := by
    rw [BitVec.toNat_add, BitVec.toNat_ofNat]
    omega
  rw [List.getElem?_eq_getElem h]
  refine congrArg some (drawValue_given ?_).symm
  rw [hdraws]
  exact List.getElem?_eq_getElem h

/-- Settles O36, by `RowsDone.rows`. -/
theorem pinkRefreshesTheDueRows : Obligations.PinkRefreshesTheDueRows := by
  intro s
  have hrows := RowsDone.rows s.nz.cnt s
  refine ⟨(pinkRows s.nz.cnt s).nz.row, fun i => ⟨fun hkept => ?_, fun hdue => ?_⟩, exec_nzPink s⟩
  · exact hrows.kept i (Or.inr (rowDue_eq_false_iff.mpr hkept))
  · have hrow := hrows.due i i.isLt (rowDue_iff.mpr hdue)
    refine ⟨hrow, fun hgiven hlen => ?_⟩
    rw [hrow]
    exact drawValue_of_given (by omega) hlen

/-! ### The cadence -/

/-- One operation more is the operation in the state that the others leave. -/
theorem runUnit_succ {i : Instr} {m : Nat} {s a : State} (h : runUnit i m s = .next a) :
    runUnit i (m + 1) s = exec i a := by
  induction m generalizing s with
  | zero =>
    cases h
    rw [runUnit]
    split <;> (rename_i hs; exact hs.symm)
  | succ m ih =>
    rw [runUnit] at h ⊢
    cases hs : exec i s with
    | next b =>
      rw [hs] at h
      exact ih h
    | fault f =>
      rw [hs] at h
      cases h
    | refused r =>
      rw [hs] at h
      cases h

/-- The draws of the first `m` calls from counter 0. -/
def pinkDraws (m : Nat) : Nat := ∑ call ∈ Finset.range m, dueCount call

theorem pinkCount_ofNat {m : Nat} (h : m < 1024) :
    pinkCount (BitVec.ofNat 64 m) = BitVec.ofNat 64 (m + 1) := by
  rw [pinkCount, BitVec.toNat_ofNat, Nat.mod_eq_of_lt (by omega), Nat.mod_eq_of_lt (by omega)]

/-- The calls from counter 0: counter and draws after `m` of them. -/
theorem runUnit_nzPink {s : State} (hs : s.nz.cnt = 0) {m : Nat} (hm : m ≤ 1024) :
    ∃ a, runUnit .nzPink m s = .next a ∧ a.nz.cnt = BitVec.ofNat 64 m ∧
      a.draws = s.draws + BitVec.ofNat 64 (pinkDraws m) := by
  induction m with
  | zero => exact ⟨s, rfl, hs, (BitVec.add_zero s.draws).symm⟩
  | succ m ih =>
    obtain ⟨a, hrun, hcnt, hdraws⟩ := ih (by omega)
    refine ⟨_, (runUnit_succ hrun).trans (exec_nzPink a), ?_, ?_⟩
    · rw [hcnt]
      exact pinkCount_ofNat hm
    · have hcall : (BitVec.ofNat 64 m).toNat = m := by
        rw [BitVec.toNat_ofNat]
        omega
      change a.draws + BitVec.ofNat 64 (dueCount a.nz.cnt.toNat) = _
      rw [hcnt, hcall, hdraws, pinkDraws, pinkDraws, Finset.sum_range_succ, BitVec.ofNat_add,
        BitVec.add_assoc]

theorem rowDue_ofNat_iff {i : Fin 7} {m : Nat} (h : m < 1024) :
    rowDue (BitVec.ofNat 64 m) i = true ↔ 2 ^ i.val ∣ m := by
  rw [rowDue_iff, BitVec.toNat_ofNat, Nat.mod_eq_of_lt (by omega : m < 2 ^ 64),
    Nat.dvd_iff_mod_eq_zero]

/-- Of the numbers below 1024, 2^(10-i) are multiples of 2^i. -/
theorem count_multiples {i : Nat} (h : i < 7) : Nat.count (2 ^ i ∣ ·) 1024 = 2 ^ (10 - i) := by
  have hcount := Nat.count_modEq_card 1024 (r := 2 ^ i) (by positivity) 0
  simp only [Nat.modEq_zero_iff_dvd] at hcount
  rw [hcount]
  interval_cases i <;> decide

theorem dueCount_eq_sum (m : Nat) :
    dueCount m = ∑ i ∈ Finset.range 7, if 2 ^ i ∣ m then 1 else 0 := by
  have hcount : dueCount m = Nat.count (2 ^ · ∣ m) 7 :=
    List.countP_congr fun i _ => by simp [Nat.dvd_iff_mod_eq_zero]
  rw [hcount, Nat.count_eq_card_filter_range, Finset.card_filter]

/-- Row by row: 1024 + 512 + ... + 16 draws in the 1024 calls. -/
theorem pinkDraws_1024 : pinkDraws 1024 = 2032 := by
  have hrow : ∀ i ∈ Finset.range 7,
      (∑ call ∈ Finset.range 1024, if 2 ^ i ∣ call then 1 else 0) = 2 ^ (10 - i) := fun i hi => by
    rw [← count_multiples (Finset.mem_range.mp hi), Nat.count_eq_card_filter_range,
      Finset.card_filter]
  rw [pinkDraws, Finset.sum_congr rfl fun call _ => dueCount_eq_sum call, Finset.sum_comm,
    Finset.sum_congr rfl hrow]
  rfl

/-- Settles O37: a call at a time by `runUnit_nzPink` and `RowsDone.rows`; the counts are
`pinkDraws_1024` and `count_multiples`. -/
theorem pinkCadence : Obligations.PinkCadence := by
  refine ⟨fun s hs => ?_, fun s m hs hm => ?_, fun i m hm => rowDue_ofNat_iff hm, fun i => ?_⟩
  · obtain ⟨t, hrun, hcnt, hdraws⟩ := runUnit_nzPink hs (le_refl 1024)
    rw [pinkDraws_1024] at hdraws
    exact ⟨t, hrun, hcnt, hdraws⟩
  · obtain ⟨a, hrun, hcnt, -⟩ := runUnit_nzPink hs hm.le
    have hrows := RowsDone.rows a.nz.cnt a
    have hcall : a.nz.cnt.toNat = m := by
      rw [hcnt, BitVec.toNat_ofNat]
      omega
    refine ⟨a, _, hrun, exec_nzPink a, (runUnit_succ hrun).trans (exec_nzPink a), hcnt,
      fun i => ⟨fun h => hrows.kept i (Or.inr h), fun h => hrows.due i i.isLt h⟩, ?_⟩
    simp only [hcall, dueCount, Nat.dvd_iff_mod_eq_zero]
  · rw [← count_multiples i.isLt]
    exact List.countP_congr fun m hm => by
      simpa using rowDue_ofNat_iff (List.mem_range.mp hm)

end Sys2Proof.Machine
end

section
/-! The reverb network (44_reverb_network.md): its unit operations run alone, and what every unit
operation keeps of the session, the delay lines among it (R177). -/

namespace Sys2Proof.Machine

/-! ### The select fields -/

theorem channelOf_eq {c : BitVec 1} {d : Fin 2} (h : c.toNat = d.val) : channelOf c = d := Fin.ext h

theorem combOf_of_toNat {j : BitVec 3} {m : Fin 4} (h : j.toNat = m.val) : combOf j = some m := by
  have hlt : j.toNat < 4 := h ▸ m.isLt
  rw [combOf, dif_pos hlt]
  exact congrArg some (Fin.ext h)

theorem combOf_reserved {j : BitVec 3} (h : 4 ≤ j.toNat) : combOf j = none := dif_neg (by omega)

/-! ### One network put back -/

@[simp] theorem setNet_rv_self (s : State) (c : Fin 2) (n : Network) : (s.setNet c n).rv[c] = n :=
  Vector.getElem_set_self _

theorem setNet_rv_ne (s : State) {c d : Fin 2} (n : Network) (h : c ≠ d) :
    (s.setNet c n).rv[d] = s.rv[d] :=
  Vector.getElem_set_ne c.isLt d.isLt fun e => h (Fin.ext e)

@[simp] theorem setNet_setNet (s : State) (c : Fin 2) (n m : Network) :
    (s.setNet c n).setNet c m = s.setNet c m := by
  rw [State.setNet, setNet_rv, Vector.set_set]
  rfl

theorem setNet_result (v : F64) (s : State) (c : Fin 2) (n : Network) :
    (result v s).setNet c n = result v (s.setNet c n) := rfl

theorem result_result (v w : F64) (s : State) : result v (result w s) = result v s := rfl

/-! ### The operations run alone -/

theorem exec_rvPrep {c : BitVec 1} {d : Fin 2} (hc : c.toNat = d.val) (s : State) :
    exec (.rvPrep c) s = .next (s.setNet d
      ⟨prepLengths s.act.fs, #v[0, 0, 0, 0, 0], #v[[], [], [], [], []]⟩) := by
  rw [exec, execRvPrep, channelOf_eq hc, rvPrep, netPrep_eq]

theorem exec_rvComb {c : BitVec 1} {j : BitVec 3} {d : Fin 2} {m : Fin 4} (hc : c.toNat = d.val)
    (hj : j.toNat = m.val) (s : State) :
    exec (.rvComb c j) s = netOutcome d s (netComb m s.opA s.rv[d]) := by
  rw [exec, execRvComb, combOf_of_toNat hj]
  obtain rfl := channelOf_eq hc
  rfl

theorem exec_rvAp {c : BitVec 1} {d : Fin 2} (hc : c.toNat = d.val) (s : State) :
    exec (.rvAp c) s = netOutcome d s (netAp s.opA s.rv[d]) := by
  obtain rfl := channelOf_eq hc
  rfl

theorem exec_rvProc {c : BitVec 1} {d : Fin 2} (hc : c.toNat = d.val) (s : State) :
    exec (.rvProc c) s = netOutcome d s (netProc s.opA s.rv[d]) := by
  obtain rfl := channelOf_eq hc
  rfl

/-- The comb that a line number below 4 names. -/
theorem exists_comb {m : Fin 5} (h : m ≠ 4) : ∃ l : Fin 4, m = l.castSucc :=
  ⟨m.castPred h, (Fin.castSucc_castPred m h).symm⟩

/-- The lengths of RV.LENGTH as numbers (R172). -/
theorem rvLength_toNat (t fs : F64) :
    (rvLength t fs).toNat = max 1 (f64FloorToU64 (fmul t fs)).toNat := by
  unfold rvLength
  split
  · rename_i h
    rw [h]
    rfl
  · rename_i h
    have hpos : (f64FloorToU64 (fmul t fs)).toNat ≠ 0 := fun h0 => h (BitVec.eq_of_toNat_eq h0)
    omega

theorem prepLengths_getElem (fs : F64) (j : Fin 5) :
    (prepLengths fs)[j] = rvLength delayTimes[j] fs := by
  fin_cases j <;> rfl

/-- Settles O40, by `exec_rvPrep` and `rvLength_toNat`. -/
theorem reverbPrepare : Obligations.ReverbPrepare := by
  intro s c d hc
  refine ⟨prepLengths s.act.fs, fun j => ?_, exec_rvPrep hc s⟩
  rw [prepLengths_getElem, rvLength_toNat]

/-- Settles O41: a comb is one access to its line (`access_spec`, `access_error`). -/
theorem combReadsWritesAdvances : Obligations.CombReadsWritesAdvances := by
  intro s c j d hc
  refine ⟨fun m r hj hm hcur hr => ?_, fun m hj hm hcur => ?_, fun hj => ?_⟩
  · obtain ⟨l, rfl⟩ := exists_comb hm
    subst hr
    rw [exec_rvComb hc hj, netComb, access_spec hcur]
    rfl
  · obtain ⟨l, rfl⟩ := exists_comb hm
    rw [exec_rvComb hc hj, netComb, access_error (Nat.not_lt.mpr hcur)]
    rfl
  · rw [exec, execRvComb, combOf_reserved hj]

/-- Settles O42: the all-pass is one access to line 4. -/
theorem allpassReadsWritesAdvances : Obligations.AllpassReadsWritesAdvances := by
  intro s c d hc
  refine ⟨fun x y hcur hx hy => ?_, fun hcur => ?_⟩
  · subst hx hy
    rw [exec_rvAp hc, netAp, access_spec hcur]
    rfl
  · rw [exec_rvAp hc, netAp, access_error (Nat.not_lt.mpr hcur)]
    rfl

/-- Settles O43: the chain of R175 (`netProc_cases`), each filter run alone on the network that the
one before it put back. -/
theorem reverbProcChainsTheFilters : Obligations.ReverbProcChainsTheFilters := by
  intro s c d hc hready
  obtain ⟨v, n, hproc⟩ := netProc_ready hready s.opA
  obtain ⟨r0, r1, r2, r3, n0, n1, n2, n3, h0, h1, h2, h3, h4⟩ := netProc_cases hproc
  refine ⟨result r0 (s.setNet d n0), result r1 (s.setNet d n1), result r2 (s.setNet d n2),
    result r3 (s.setNet d n3),
    result v { s.setNet d n with opA := fmul (fadd (fadd (fadd r0 r1) r2) r3) kCombSum },
    ?_, ?_, ?_, ?_, ?_, ?_⟩
  · rw [exec_rvComb (j := 0) (m := 0) hc rfl, h0]
    rfl
  · rw [exec_rvComb (j := 1) (m := 1) hc rfl, result_rv, setNet_rv_self, result_opA, setNet_opA, h1]
    simp only [netOutcome, setNet_result, result_result, setNet_setNet]
  · rw [exec_rvComb (j := 2) (m := 2) hc rfl, result_rv, setNet_rv_self, result_opA, setNet_opA, h2]
    simp only [netOutcome, setNet_result, result_result, setNet_setNet]
  · rw [exec_rvComb (j := 3) (m := 3) hc rfl, result_rv, setNet_rv_self, result_opA, setNet_opA, h3]
    simp only [netOutcome, setNet_result, result_result, setNet_setNet]
  · rw [exec_rvAp hc]
    simp only [result_rv, setNet_rv_self, result_resA, h4]
    exact congrArg (fun t : State => Host.Outcome.next (result v { t with
      opA := fmul (fadd (fadd (fadd r0 r1) r2) r3) kCombSum })) (setNet_setNet s d n3 n)
  · rw [exec_rvProc hc, hproc]
    rfl

/-! ### What every unit operation keeps -/

/-- What a unit operation leaves of the session: a network as an operation of a network leaves it,
or newly prepared; STATUS as it was, or RuntimeError raised; the mode and its two types; the pink
counter below 2^32. -/
structure UnitKept (s t : State) : Prop where
  rv : ∀ c : Fin 2, NetKept s.rv[c] t.rv[c] ∨ t.rv[c] = netPrep s.act.fs s.rv[c]
  status : t.status = s.status ∨ t.status = (raiseError .nonfiniteOutput s).status
  mode : t.act.mode = s.act.mode
  ent : t.act.ent = s.act.ent
  ntype : t.act.ntype = s.act.ntype
  pinkCount : s.nz.cnt.toNat < 2 ^ 32 → t.nz.cnt.toNat < 2 ^ 32

/-- An operation that leaves the networks, STATUS, the mode and the pink counter as they were. -/
theorem UnitKept.of_eq {s t : State} (hrv : t.rv = s.rv) (hstatus : t.status = s.status)
    (hmode : t.act.mode = s.act.mode) (hent : t.act.ent = s.act.ent)
    (hntype : t.act.ntype = s.act.ntype)
    (hcnt : s.nz.cnt.toNat < 2 ^ 32 → t.nz.cnt.toNat < 2 ^ 32) : UnitKept s t where
  rv c := .inl (by rw [hrv]; exact NetKept.refl _)
  status := .inl hstatus
  mode := hmode
  ent := hent
  ntype := hntype
  pinkCount := hcnt

/-- A network operation's outcome keeps what the operation keeps of the network. -/
theorem UnitKept.of_netOutcome {c : Fin 2} {s t : State} {r : Except Fault (F64 × Network)}
    (hkept : ∀ v n, r = .ok (v, n) → NetKept s.rv[c] n) (ht : netOutcome c s r = .next t) :
    UnitKept s t := by
  cases r with
  | error f => cases ht
  | ok p =>
    cases ht
    exact ⟨fun d => .inl (RvKept.set (hkept _ _ rfl) d), .inl rfl, rfl, rfl, rfl, id⟩

theorem UnitKept.of_rvPrep (c : Fin 2) (s : State) : UnitKept s (rvPrep c s) where
  rv d := by
    by_cases h : c = d
    · subst h
      exact .inr (setNet_rv_self s c _)
    · refine .inl ?_
      rw [rvPrep, setNet_rv_ne s _ h]
      exact NetKept.refl _
  status := .inl rfl
  mode := rfl
  ent := rfl
  ntype := rfl
  pinkCount := id

theorem UnitKept.of_sampleRun {last : Bool} {s t : State} {e : SampleEnd}
    (h : sampleRun last s = .ok (e, t)) : UnitKept s t := by
  obtain ⟨nz, ph, d, rv, hkept, hcnt, ⟨-, l, r, -, -, rfl⟩ | ⟨-, rfl⟩⟩ := sampleRun_frame h
  · exact ⟨fun c => .inl (hkept c), .inl rfl, rfl, rfl, rfl, hcnt⟩
  · exact ⟨fun c => .inl (hkept c), .inr rfl, rfl, rfl, rfl, hcnt⟩

/-- Every unit operation, run alone, keeps all this. -/
theorem unit_kept {i : Instr} {s t : State} (hunit : i.isHost = false)
    (ht : exec i s = .next t) : UnitKept s t := by
  cases i with
  | nop | wrreg _ _ | rdreg _ | rdmem _ | prepare | render _ | release => cases hunit
  | paAdv k | paVal k | oscSin k =>
    simp only [exec, execPaAdv, execPaVal, execOscSin] at ht
    cases hk : accumulatorOf k with
    | none => simp [hk] at ht
    | some i =>
      rw [hk] at ht
      cases ht
      exact .of_eq rfl rfl rfl rfl rfl id
  | rvPrep c =>
    cases ht
    exact .of_rvPrep _ s
  | rvComb c j =>
    cases hj : combOf j with
    | none => simp [exec, execRvComb, hj] at ht
    | some m =>
      simp only [exec, execRvComb, hj] at ht
      exact .of_netOutcome (fun _ _ => netComb_kept) ht
  | rvAp c => exact .of_netOutcome (fun _ _ => netAp_kept) ht
  | rvProc c => exact .of_netOutcome (fun _ _ => netProc_kept) ht
  | sample =>
    rw [exec, execSample] at ht
    split at ht
    · cases ht
    · rename_i e u hrun
      cases ht
      exact .of_sampleRun hrun
  | nzPrep =>
    cases ht
    exact .of_eq rfl rfl rfl rfl rfl fun _ => (by decide : (0 : U64).toNat < 2 ^ 32)
  | nzPink =>
    rw [exec_nzPink] at ht
    cases ht
    exact .of_eq rfl rfl rfl rfl rfl fun _ => pinkCount_lt _
  | nzProc =>
    obtain ⟨nz, ph, d, hframe, -, hcnt⟩ := nzProc_frame s
    rw [exec, execNzProc, hframe] at ht
    cases ht
    exact .of_eq rfl rfl rfl rfl rfl hcnt
  | paInc | envBatch | envRt | jnyBuild | jnyEval | nzWhite | nzBrown | nzLfo | nzLpf | gainLin
  | mixDry | mixWet | satTanh | satKnee =>
    cases ht
    exact .of_eq rfl rfl rfl rfl rfl id

theorem UnitKept.reverbReady {s t : State} (h : UnitKept s t) (hs : s.reverbReady) :
    t.reverbReady := by
  intro c
  rcases h.rv c with hkept | hprep
  · exact hkept.ready (hs c)
  · rw [hprep]
    exact netPrep_ready _ _

theorem netOutcome_no_fault {c : Fin 2} {s : State} {r : Except Fault (F64 × Network)}
    (h : ∃ v n, r = .ok (v, n)) (f : Fault) : netOutcome c s r ≠ .fault f := by
  obtain ⟨v, n, rfl⟩ := h
  exact fun h => by cases h

/-- On allocated lines with their cursors in range no unit operation faults. -/
theorem unit_no_fault {i : Instr} {s : State} (hunit : i.isHost = false) (hs : s.reverbReady)
    (f : Fault) : exec i s ≠ .fault f := by
  cases i with
  | nop | wrreg _ _ | rdreg _ | rdmem _ | prepare | render _ | release => cases hunit
  | paAdv k | paVal k | oscSin k =>
    simp only [exec, execPaAdv, execPaVal, execOscSin]
    cases accumulatorOf k <;> exact nofun
  | rvComb c j =>
    rw [exec, execRvComb]
    cases combOf j with
    | none => exact nofun
    | some m => exact netOutcome_no_fault (netComb_ready (hs _) m _) f
  | rvAp c => exact netOutcome_no_fault (netAp_ready (hs _) _) f
  | rvProc c => exact netOutcome_no_fault (netProc_ready (hs _) _) f
  | sample =>
    obtain ⟨e, t, hrun⟩ := sampleRun_answers s.opLast fun _ => hs
    rw [exec, execSample, hrun]
    exact nofun
  | paInc | envBatch | envRt | jnyBuild | jnyEval | nzPrep | nzWhite | nzPink | nzBrown | nzLfo
  | nzLpf | nzProc | rvPrep | gainLin | mixDry | mixWet | satTanh | satKnee => exact nofun

/-- Settles O44: RV.PREP allocates every line (`rvLength_pos`), and the others keep the lines
(`unit_kept`) and do not fault on them (`unit_no_fault`). -/
theorem cursorsStayInRange : Obligations.CursorsStayInRange := by
  refine ⟨fun s c d hc => ⟨_, exec_rvPrep hc s, fun j => ?_⟩, fun i s hunit hs =>
    ⟨unit_no_fault hunit hs, fun t ht => (unit_kept hunit ht).reverbReady hs⟩⟩
  have hlen : 0 < (prepLengths s.act.fs)[j].toNat := by
    rw [prepLengths_getElem]
    exact rvLength_pos _ _
  have hidx : (#v[0, 0, 0, 0, 0] : Vector U64 5)[j] = 0 := by fin_cases j <;> rfl
  rw [setNet_rv_self, hidx]
  exact ⟨hlen, hlen⟩

end Sys2Proof.Machine
end

section
/-! PREPARE (46_engine_commands.md R214): its checks as the causes of 60_exceptions.md R243 in the
order of their details, the first failure that it reports, and the session that it starts. -/

namespace Sys2Proof.Machine

/-! ### The checks as causes -/

theorem not_finitePositive_iff {x : F64} :
    (!finitePositive x) = true ↔ ¬ (fisFinite x = true ∧ flt fZero x = true) := by
  rw [Bool.not_eq_true', ← Bool.not_eq_true, finitePositive, Bool.and_eq_true]

theorem countsFail_iff {s : State} : (!countsOk s.pend) = true ↔ causeOf s .badJourney := by
  rw [Bool.not_eq_true', ← Bool.not_eq_true]
  simp [countsOk, causeOf]

theorem lineFits_iff {cap : Option Nat} {t fs : F64} :
    lineFits cap t fs = true ↔ flt (fmul t fs) fTwoPow63 = true ∧
      ∀ c, cap = some c → (rvLength t fs).toNat ≤ c := by
  cases cap <;> simp [lineFits]

theorem linesFit_iff {cap : Option Nat} {fs : F64} :
    linesFit cap fs = true ↔ ∀ j : Fin 5, lineFits cap delayTimes[j] fs = true := by
  have hmem : ∀ j : Fin 5, j ∈ [(0 : Fin 5), 1, 2, 3, 4] := by decide
  rw [linesFit, List.all_eq_true]
  exact ⟨fun h j => h j (hmem j), fun h j _ => h j⟩

theorem linesFail_iff {s : State} :
    (!linesFit s.delayCap s.pend.sampleRate) = true ↔ causeOf s .delayTooLong := by
  rw [Bool.not_eq_true', ← Bool.not_eq_true, linesFit_iff, not_forall]
  refine exists_congr fun j => ?_
  rw [lineFits_iff, not_and_or, Bool.not_eq_true]
  simp only [not_forall, not_le, rvLength_toNat, exists_prop]

open Classical in
/-- The checks of PREPARE in their order, each as its cause; those of details 3 to 7 in BATCH mode
only. -/
theorem prepareCheck_eq (s : State) : prepareCheck s.pend s.delayCap =
    if causeOf s .badMode then some .badMode
    else if causeOf s .badRate then some .badRate
    else if s.pend.mode = 0 then
      if causeOf s .badJourney then some .badJourney
      else if causeOf s .badDuration then some .badDuration
      else if causeOf s .badEnt then some .badEnt
      else if causeOf s .badNoise then some .badNoise
      else if causeOf s .delayTooLong then some .delayTooLong
      else none
    else none := by
  have hduration (x y : Option SessionError) :
      (if (!finitePositive s.pend.duration) = true then x
        else if (!flt (fmul s.pend.duration s.pend.sampleRate) fTwoPow63) = true then x else y) =
      if causeOf s .badDuration then x else y := by
    rw [← ite_or]
    refine if_congr ?_ rfl rfl
    rw [not_finitePositive_iff, Bool.not_eq_true']
    rfl
  unfold prepareCheck batchCheck
  refine if_congr Iff.rfl rfl (if_congr not_finitePositive_iff rfl (if_congr Iff.rfl ?_ rfl))
  refine if_congr countsFail_iff rfl ((hduration _ _).trans (if_congr Iff.rfl rfl ?_))
  exact if_congr Iff.rfl rfl (if_congr Iff.rfl rfl (if_congr linesFail_iff rfl rfl))

/-- PREPARE finds the failing check of the lowest detail. -/
theorem prepareCheck_first {s : State} {e : SessionError} (he : checkFails s e)
    (hlow : ∀ e', (errorDetail e').toNat < (errorDetail e).toNat → ¬ checkFails s e') :
    prepareCheck s.pend s.delayCap = some e := by
  obtain ⟨hcause, hmode⟩ := he
  rw [prepareCheck_eq]
  have rate (h : (errorDetail .badRate).toNat < (errorDetail e).toNat) : ¬ causeOf s .badRate :=
    fun hc => hlow _ h ⟨hc, fun h3 => absurd h3 (by decide)⟩
  have mode (h : (errorDetail .badMode).toNat < (errorDetail e).toNat) : ¬ causeOf s .badMode :=
    fun hc => hlow _ h ⟨hc, fun h3 => absurd h3 (by decide)⟩
  have later (h3 : 3 ≤ (errorDetail e).toNat) (e' : SessionError)
      (h : (errorDetail e').toNat < (errorDetail e).toNat) : ¬ causeOf s e' :=
    fun hc => hlow _ h ⟨hc, fun _ => hmode h3⟩
  cases e with
  | badMode => rw [if_pos hcause]
  | badRate => rw [if_neg (mode (by decide)), if_pos hcause]
  | badJourney =>
    rw [if_neg (mode (by decide)), if_neg (rate (by decide)), if_pos (hmode (by decide)),
      if_pos hcause]
  | badDuration =>
    have n := later (by decide)
    rw [if_neg (mode (by decide)), if_neg (rate (by decide)), if_pos (hmode (by decide)),
      if_neg (n .badJourney (by decide)), if_pos hcause]
  | badEnt =>
    have n := later (by decide)
    rw [if_neg (mode (by decide)), if_neg (rate (by decide)), if_pos (hmode (by decide)),
      if_neg (n .badJourney (by decide)), if_neg (n .badDuration (by decide)), if_pos hcause]
  | badNoise =>
    have n := later (by decide)
    rw [if_neg (mode (by decide)), if_neg (rate (by decide)), if_pos (hmode (by decide)),
      if_neg (n .badJourney (by decide)), if_neg (n .badDuration (by decide)),
      if_neg (n .badEnt (by decide)), if_pos hcause]
  | delayTooLong =>
    have n := later (by decide)
    rw [if_neg (mode (by decide)), if_neg (rate (by decide)), if_pos (hmode (by decide)),
      if_neg (n .badJourney (by decide)), if_neg (n .badDuration (by decide)),
      if_neg (n .badEnt (by decide)), if_neg (n .badNoise (by decide)), if_pos hcause]
  | nonfiniteOutput => exact absurd hcause id

/-- PREPARE accepts the parameters exactly when no check fails. -/
theorem prepareCheck_eq_none_iff {s : State} :
    prepareCheck s.pend s.delayCap = none ↔ parametersOk s := by
  constructor
  · intro hnone e he
    obtain ⟨first, hfirst, hlow⟩ := WellFounded.has_min
      (measure fun e : SessionError => (errorDetail e).toNat).wf {e | checkFails s e} ⟨e, he⟩
    rw [prepareCheck_first hfirst fun e' hlt hfails => hlow e' hfails hlt] at hnone
    cases hnone
  · intro hok
    have ok (e : SessionError) (h : 3 ≤ (errorDetail e).toNat → s.pend.mode = 0) : ¬ causeOf s e :=
      fun hc => hok e ⟨hc, h⟩
    rw [prepareCheck_eq, if_neg (ok .badMode fun h => absurd h (by decide)),
      if_neg (ok .badRate fun h => absurd h (by decide))]
    split
    · rename_i hmode
      rw [if_neg (ok .badJourney fun _ => hmode), if_neg (ok .badDuration fun _ => hmode),
        if_neg (ok .badEnt fun _ => hmode), if_neg (ok .badNoise fun _ => hmode),
        if_neg (ok .delayTooLong fun _ => hmode)]
    · rfl

/-- Settles O16: PREPARE raises the failing check of the lowest detail (`prepareCheck_first`), and
raising writes three fields of STATUS. -/
theorem prepareReportsTheFirstFailure : Obligations.PrepareReportsTheFirstFailure := by
  refine ⟨rfl, fun s e hidle he hlow => ⟨_, rfl, ?_⟩⟩
  rw [exec_prepare_failed hidle (prepareCheck_first he hlow)]
  rfl

/-- A check that PREPARE makes ends in a configuration or a resource error. -/
theorem errorClass_of_prepareCheck {s : State} {e : SessionError}
    (h : prepareCheck s.pend s.delayCap = some e) :
    errorClass e = .configuration ∨ errorClass e = .resource := by
  cases e with
  | nonfiniteOutput =>
    rw [prepareCheck_eq] at h
    split_ifs at h <;> cases h
  | delayTooLong => exact .inr rfl
  | badMode | badRate | badJourney | badDuration | badEnt | badNoise => exact .inl rfl

/-! ### The session -/

theorem exec_prepare_passed {s : State} (hidle : s.status.state = .idle)
    (hok : prepareCheck s.pend s.delayCap = none) :
    exec .prepare s = .next (respond .ok (statusWord (prepareSession s).status)
      (prepareSession s)) := by
  rw [exec, execPrepare, if_neg (not_not.mpr hidle), hok]

/-- The network of a new session: every line sized, cleared, its cursor at 0. -/
def freshNetwork (fs : F64) : Network :=
  ⟨prepLengths fs, #v[0, 0, 0, 0, 0], #v[[], [], [], [], []]⟩

/-- STATUS of a new BATCH session. -/
def batchStatus (jny : Bool) : Status where
  state := .rendering
  err := .none
  detail := 0
  jnyOn := jny
  capNoise := true
  capReverb := true
  capJourney := true
  envSel := false
  satSel := false

/-- STATUS of a new STREAM session. -/
def streamStatus : Status where
  state := .rendering
  err := .none
  detail := 0
  jnyOn := false
  capNoise := false
  capReverb := false
  capJourney := false
  envSel := true
  satSel := true

/-- The whole of a new BATCH session. -/
theorem prepareSession_batch {s : State} (hmode : s.pend.mode = 0) :
    prepareSession s = { s with
      act :=
        { mode := 0
          fs := s.pend.sampleRate
          soft := s.pend.softness
          gainDb := s.pend.gainDb
          gainLin := linearGain s.pend.gainDb
          ent := s.pend.entType
          ntype := s.pend.noiseType
          nlevel := s.pend.noiseLevel
          pulse := s.pend.pulse
          carrier := s.pend.carrier
          kfT := if s.pend.pulseCnt = 5 then keyframeTimes s.pend.duration else #v[0, 0, 0, 0, 0] }
      status := batchStatus (decide (s.pend.pulseCnt = 5))
      pos := 0
      total := f64FloorToU64 (fmul s.pend.duration s.pend.sampleRate)
      draws := 0
      ph := #v[0, 0, 0, 0, 0]
      nz := { Noise.zero with lfoRate := lfoRateFor s.pend.pulse[0] }
      rv := #v[freshNetwork s.pend.sampleRate, freshNetwork s.pend.sampleRate] } := by
  have hkeyframes : (if decide (s.pend.pulseCnt = 5) = true then keyframeTimes s.pend.duration
      else #v[fZero, fZero, fZero, fZero, fZero]) =
      if s.pend.pulseCnt = 5 then keyframeTimes s.pend.duration else #v[0, 0, 0, 0, 0] :=
    if_congr decide_eq_true_iff rfl rfl
  rw [prepareSession, latch_batch hmode, prepareUnits_batch rfl rfl, netPrep_eq, netPrep_eq,
    ← hkeyframes, hmode]
  rfl

/-- The whole of a new STREAM session. -/
theorem prepareSession_stream {s : State} (hmode : s.pend.mode = 1) :
    prepareSession s = { s with
      act :=
        { mode := 1
          fs := s.pend.sampleRate
          soft := s.pend.softness
          gainDb := s.pend.gainDb
          gainLin := linearGain s.pend.gainDb
          ent := 0
          ntype := 0xFFFFFFFFFFFFFFFF
          nlevel := s.pend.noiseLevel
          pulse := s.pend.pulse
          carrier := s.pend.carrier
          kfT := #v[0, 0, 0, 0, 0] }
      status := streamStatus
      pos := 0
      total := 0
      draws := 0
      ph := #v[0, 0, 0, 0, 0] } := by
  have hne : s.pend.mode ≠ 0 := by rw [hmode]; decide
  rw [prepareSession, latch_stream hne, prepareUnits_stream rfl rfl, hmode]
  rfl

/-- Settles O17, by `prepareSession_batch`. -/
theorem prepareBatchSession : Obligations.PrepareBatchSession := by
  intro s hidle hok hmode
  have hword : statusWord (batchStatus (decide (s.pend.pulseCnt = 5))) =
      if s.pend.pulseCnt = 5 then 0x0F0002 else 0x0E0002 := by
    by_cases hjny : s.pend.pulseCnt = 5
    · rw [if_pos hjny, decide_eq_true hjny]
      rfl
    · rw [if_neg hjny, decide_eq_false hjny]
      rfl
  rw [exec_prepare_passed hidle (prepareCheck_eq_none_iff.mpr hok), prepareSession_batch hmode]
  simp only [hword]
  rfl

/-- Settles O18, by `prepareSession_stream`. -/
theorem prepareStreamSession : Obligations.PrepareStreamSession := by
  intro s hidle hok hmode
  have hword : statusWord streamStatus = 0x300002 := by decide
  rw [exec_prepare_passed hidle (prepareCheck_eq_none_iff.mpr hok), prepareSession_stream hmode]
  simp only [hword]
  rfl

end Sys2Proof.Machine
end

section
/-! What SAMPLE and the loop of RENDER do not read: the pending registers (10_state.md R25) and the
bus of the last flag. Other values there come through unchanged, and nothing else depends on them.
-/

namespace Sys2Proof.Machine

/-- The state with other pending registers and another bus of the last flag. -/
def State.withUnread (p : Pending) (l : Bool) (s : State) : State :=
  { s with pend := p, opLast := l }

/-- What a unit operation answers, with the same done to its next state. -/
abbrev withUnreadResult {α : Type} (p : Pending) (l : Bool) : α × State → α × State :=
  Prod.map id (State.withUnread p l)

section Unread

variable (p : Pending) (l : Bool)

theorem pinkRows_withUnread (n : U64) (s : State) :
    pinkRows n (s.withUnread p l) = (pinkRows n s).withUnread p l := by
  refine List.foldl_hom (State.withUnread p l) fun t i => ?_
  simp only [pinkRow, apply_ite (State.withUnread p l)]
  rfl

theorem nzPink_withUnread (s : State) :
    nzPink (s.withUnread p l) = withUnreadResult p l (nzPink s) := by
  have hcnt : (s.withUnread p l).nz.cnt = s.nz.cnt := rfl
  simp only [nzPink, hcnt, pinkRows_withUnread]
  rfl

theorem nzGenerate_withUnread (s : State) :
    nzGenerate (s.withUnread p l) = withUnreadResult p l (nzGenerate s) := by
  have hact : (s.withUnread p l).act = s.act := rfl
  simp only [nzGenerate, hact, nzPink_withUnread, apply_ite (withUnreadResult p l)]
  rfl

theorem nzProc_withUnread (s : State) :
    nzProc (s.withUnread p l) = withUnreadResult p l (nzProc s) := by
  simp only [nzProc, nzGenerate_withUnread]
  rfl

theorem sampleNoise_withUnread (s : State) :
    sampleNoise (s.withUnread p l) = withUnreadResult p l (sampleNoise s) := by
  have hon : noiseOn (s.withUnread p l) = noiseOn s := rfl
  simp only [sampleNoise, hon, nzProc_withUnread, apply_ite (withUnreadResult p l)]
  rfl

theorem paAdv_withUnread (k : Fin 5) (inc : F64) (s : State) :
    paAdv k inc (s.withUnread p l) = (paAdv k inc s).withUnread p l := rfl

theorem sampleAdvance_withUnread (s : State) :
    sampleAdvance (s.withUnread p l) = (sampleAdvance s).withUnread p l := by
  have hact : (s.withUnread p l).act = s.act := rfl
  have hfreq : sampleFreq (s.withUnread p l) = sampleFreq s := rfl
  simp only [sampleAdvance, advanceAm, advanceBinaural, hact, hfreq, paAdv_withUnread,
    apply_ite (State.withUnread p l)]

theorem dryOf_withUnread (s : State) : dryOf (s.withUnread p l) = dryOf s := by
  simp only [dryOf, sampleAdvance_withUnread, sampleNoise_withUnread]
  rfl

theorem afterDry_withUnread (s : State) :
    afterDry (s.withUnread p l) = (afterDry s).withUnread p l := by
  simp only [afterDry, sampleAdvance_withUnread, sampleNoise_withUnread]
  rfl

theorem rvProc_withUnread (c : Fin 2) (x : F64) (s : State) :
    rvProc c x (s.withUnread p l) = (rvProc c x s).map (withUnreadResult p l) := by
  have hrv : (s.withUnread p l).rv = s.rv := rfl
  simp only [rvProc, hrv]
  cases netProc x s.rv[c] <;> rfl

theorem sampleWet_withUnread (dry : Pair) (s : State) :
    sampleWet dry (s.withUnread p l) = (sampleWet dry s).map (withUnreadResult p l) := by
  have hstatus : (s.withUnread p l).status = s.status := rfl
  simp only [sampleWet, hstatus, rvProc_withUnread]
  cases s.status.capReverb with
  | false => rfl
  | true =>
    cases rvProc 0 dry.left s with
    | error f => rfl
    | ok r =>
      obtain ⟨wl, t⟩ := r
      simp only [if_true, Except.map, Prod.map_apply, rvProc_withUnread]
      cases rvProc 1 dry.right t <;> rfl

theorem sampleRun_withUnread (last : Bool) (s : State) :
    sampleRun last (s.withUnread p l) = (sampleRun last s).map (withUnreadResult p l) := by
  simp only [sampleRun, dryOf_withUnread, afterDry_withUnread, sampleWet_withUnread]
  cases sampleWet (dryOf s) (afterDry s) with
  | error f => rfl
  | ok r =>
    refine congrArg Except.ok ?_
    simp only [sampleFinish, apply_ite (withUnreadResult p l)]
    rfl

theorem renderLoop_withUnread (k cnt : Nat) (s : State) :
    renderLoop k cnt (s.withUnread p l) =
      (renderLoop k cnt s).map (Prod.map id (withUnreadResult p l)) := by
  induction k generalizing cnt s with
  | zero => rfl
  | succ k ih =>
    have hmore : moreSamples (s.withUnread p l) = moreSamples s := rfl
    have hlast : lastFlag k (s.withUnread p l) = lastFlag k s := rfl
    simp only [renderLoop, hmore, hlast, sampleRun_withUnread]
    cases moreSamples s with
    | false => rfl
    | true =>
      cases sampleRun (lastFlag k s) s with
      | error f => rfl
      | ok r =>
        obtain ⟨e, t⟩ := r
        cases e with
        | raised => rfl
        | emitted => exact ih (cnt + 1) t

end Unread

/-! ### RENDER by its loop -/

/-- The state in which RENDER ends. -/
def renderEnd (e : SampleEnd) (s : State) : State :=
  match e with
  | .raised => s
  | .emitted => finishRender s

/-- RENDER in a session is its loop from `renderStart`, and its end. -/
theorem exec_render_of_loop {s s' : State} {n : WData} {e : SampleEnd} {cnt : Nat}
    (h : s.status.state = .rendering)
    (hloop : renderLoop n.toNat 0 (renderStart s) = .ok (e, cnt, s')) :
    exec (.render n) s = .next (respond .ok (BitVec.ofNat 64 cnt) (renderEnd e s')) := by
  rw [renderStart] at hloop
  rw [exec, execRender, if_neg (not_not.mpr h), hloop]
  cases e <;> rfl

/-- All that RENDER can answer in a session. -/
theorem render_cases {s t : State} {n : WData} (h : s.status.state = .rendering)
    (ht : exec (.render n) s = .next t) :
    ∃ e cnt s', renderLoop n.toNat 0 (renderStart s) = .ok (e, cnt, s') ∧
      t = respond .ok (BitVec.ofNat 64 cnt) (renderEnd e s') := by
  cases hloop : renderLoop n.toNat 0 (renderStart s) with
  | error f =>
    rw [exec_render_fault h hloop] at ht
    cases ht
  | ok r =>
    obtain ⟨e, cnt, s'⟩ := r
    rw [exec_render_of_loop h hloop] at ht
    cases ht
    exact ⟨e, cnt, s', rfl, rfl⟩

/-- The snapshot writes active registers only. -/
theorem renderStart_frame (s : State) :
    renderStart s = { s with act := (renderStart s).act } := by
  unfold renderStart
  split <;> rfl

theorem renderStart_act (s : State) :
    (renderStart s).act = if s.act.mode = 1 then
      { s.act with
        pulse := s.act.pulse.set 0 s.pend.pulse[0]
        carrier := s.act.carrier.set 0 s.pend.carrier[0]
        soft := s.pend.softness
        gainDb := s.pend.gainDb
        gainLin := POW fTen (fdiv s.pend.gainDb fTwenty) } else s.act := by
  unfold renderStart
  split <;> rfl

/-- The snapshot is of the four registers of R220. -/
theorem renderStart_withUnread {s : State} {p : Pending} (l : Bool)
    (hp : s.act.mode = 1 → p.pulse[0] = s.pend.pulse[0] ∧ p.carrier[0] = s.pend.carrier[0] ∧
      p.softness = s.pend.softness ∧ p.gainDb = s.pend.gainDb) :
    renderStart (s.withUnread p l) = (renderStart s).withUnread p l := by
  have hmode : (s.withUnread p l).act = s.act := rfl
  unfold renderStart
  rw [hmode]
  split
  · rename_i hstream
    obtain ⟨hpulse, hcarrier, hsoft, hgain⟩ := hp hstream
    rw [snapshot_frame, snapshot_frame]
    simp only [State.withUnread, hpulse, hcarrier, hsoft, hgain]
  · rfl

theorem renderEnd_withUnread (p : Pending) (l : Bool) (e : SampleEnd) (s : State) :
    renderEnd e (s.withUnread p l) = (renderEnd e s).withUnread p l := by
  cases e with
  | raised => rfl
  | emitted =>
    simp only [renderEnd, finishRender, apply_ite (State.withUnread p l)]
    rfl

/-! ### The loop of RENDER as a run of samples -/

/-- A run of the loop of RENDER with `k` samples asked for: each sample of it is SAMPLE with the
flag that the loop gives it, the pairs are those emitted, and it ends with the samples asked for, at
the end of the batch, or with the sample that raises. -/
inductive RenderRun : Nat → State → List OutPair → SampleEnd → State → Prop
  | done (s : State) : RenderRun 0 s [] .emitted s
  | stop {k : Nat} {s : State} (hend : moreSamples s = false) : RenderRun (k + 1) s [] .emitted s
  | raise {k : Nat} {s m : State} (hmore : moreSamples s = true)
      (hrun : sampleRun (lastFlag k s) s = .ok (.raised, raiseError .nonfiniteOutput m))
      (hunits : Rendered s m []) :
      RenderRun (k + 1) s [] .raised (raiseError .nonfiniteOutput m)
  | emit {k : Nat} {s s₁ s' : State} {l r : F64} {ps : List OutPair} {e : SampleEnd}
      (hmore : moreSamples s = true)
      (hrun : sampleRun (lastFlag k s) s = .ok (.emitted, s₁))
      (hpair : Rendered s s₁ [⟨l, r, lastFlag k s⟩]) (hrest : RenderRun k s₁ ps e s') :
      RenderRun (k + 1) s (⟨l, r, lastFlag k s⟩ :: ps) e s'

theorem renderLoop_run {k cnt cnt' : Nat} {s s' : State} {e : SampleEnd}
    (h : renderLoop k cnt s = .ok (e, cnt', s')) :
    ∃ ps, cnt' = cnt + ps.length ∧ RenderRun k s ps e s' := by
  induction k generalizing cnt s with
  | zero =>
    cases h
    exact ⟨[], rfl, .done _⟩
  | succ k ih =>
    unfold renderLoop at h
    split at h
    · rename_i hmore
      split at h
      · cases h
      · rename_i s₁ hrun
        cases h
        rcases sampleRun_cases hrun with ⟨he, -⟩ | ⟨-, m, hunits, rfl⟩
        · cases he
        · exact ⟨[], rfl, .raise hmore hrun hunits⟩
      · rename_i s₁ hrun
        rcases sampleRun_cases hrun with ⟨-, l, r, hpair⟩ | ⟨he, -⟩
        · obtain ⟨ps, hcnt, hrest⟩ := ih h
          exact ⟨_ :: ps, by rw [hcnt, List.length_cons]; omega, .emit hmore hrun hpair hrest⟩
        · cases he
    · rename_i hend
      cases h
      exact ⟨[], rfl, .stop (Bool.not_eq_true _ ▸ hend)⟩

theorem exec_sample_of_run {s t : State} {e : SampleEnd} (h : sampleRun s.opLast s = .ok (e, t)) :
    exec .sample s = .next t := by
  rw [exec, execSample, h]

/-- SAMPLE with its flag on the bus. -/
theorem exec_sample_withUnread {s t : State} {e : SampleEnd} {last : Bool} {p : Pending}
    (h : sampleRun last s = .ok (e, t)) :
    exec .sample (s.withUnread p last) = .next (t.withUnread p last) := by
  have hrun := sampleRun_withUnread p last last s
  rw [h] at hrun
  exact exec_sample_of_run (s := s.withUnread p last) hrun

theorem sampleRuns_cons {s t : State} {p : Pending} {l last : Bool} {rest : List Bool}
    (h : exec .sample (s.withUnread p last) = .next t) :
    sampleRuns (last :: rest) (s.withUnread p l) = sampleRuns rest t := by
  have hflag : { s.withUnread p l with opLast := last } = s.withUnread p last := rfl
  rw [sampleRuns, hflag, h]

namespace RenderRun

variable {k : Nat} {s s' : State} {ps : List OutPair} {e : SampleEnd}

/-- The state of the units at the end of a run, before an error is raised. -/
theorem rendered (h : RenderRun k s ps e s') : ∃ m, Rendered s m ps ∧
    ((e = .emitted ∧ s' = m) ∨ (e = .raised ∧ s' = raiseError .nonfiniteOutput m)) := by
  induction h with
  | done s => exact ⟨s, .refl s, .inl ⟨rfl, rfl⟩⟩
  | stop _ => exact ⟨_, .refl _, .inl ⟨rfl, rfl⟩⟩
  | raise _ _ hunits => exact ⟨_, hunits, .inr ⟨rfl, rfl⟩⟩
  | emit _ _ hpair _ ih =>
    obtain ⟨m, hm, hend⟩ := ih
    exact ⟨m, hpair.trans hm, hend⟩

theorem length_le (h : RenderRun k s ps e s') : ps.length ≤ k := by
  induction h with
  | done | stop | raise => exact Nat.zero_le _
  | emit _ _ _ _ ih => exact Nat.succ_le_succ ih

/-- A sample that raises is one of those asked for. -/
theorem length_lt_of_raised (h : RenderRun k s ps .raised s') : ps.length < k := by
  generalize he : SampleEnd.raised = e at h
  induction h with
  | done | stop => cases he
  | raise => exact Nat.succ_pos _
  | emit _ _ _ _ ih => exact Nat.succ_lt_succ (ih he)

/-- A sample moves POS by one and keeps the mode and TOTAL. -/
theorem pair_frame {s₁ : State} {p : OutPair} (h : Rendered s s₁ [p]) :
    s₁.act = s.act ∧ s₁.total = s.total ∧ s₁.pos = s.pos + 1 := by
  obtain ⟨nz, ph, d, rv, rfl⟩ := h.frame
  exact ⟨rfl, rfl, rfl⟩

theorem pos_lt_of_more (hmode : s.act.mode ≠ 1) (hmore : moreSamples s = true) :
    s.pos.toNat < s.total.toNat := by
  have hor : s.act.mode = 1 ∨ s.pos.toNat < s.total.toNat := by
    simpa [moreSamples, BitVec.lt_def] using hmore
  exact hor.resolve_left hmode

theorem pos_ge_of_end (hend : moreSamples s = false) : s.total.toNat ≤ s.pos.toNat := by
  have hand : ¬ s.act.mode = 1 ∧ s.total.toNat ≤ s.pos.toNat := by
    simpa [moreSamples, BitVec.lt_def] using hend
  exact hand.2

/-- Below a TOTAL, POS + 1 does not wrap. -/
theorem pos_succ (h : s.pos.toNat < s.total.toNat) : (s.pos + 1).toNat = s.pos.toNat + 1 := by
  have hlt := s.total.isLt
  rw [BitVec.toNat_add]
  exact Nat.mod_eq_of_lt (by simpa using (by omega : s.pos.toNat + 1 < 2 ^ 64))

/-- A stream gets every pair that was asked for, unless a sample raises. -/
theorem length_of_stream (hmode : s.act.mode = 1) (h : RenderRun k s ps .emitted s') :
    ps.length = k := by
  generalize he : SampleEnd.emitted = e at h
  induction h with
  | done => rfl
  | stop hend => simp [moreSamples, hmode] at hend
  | raise => cases he
  | emit _ _ hpair _ ih =>
    rw [List.length_cons, ih ((pair_frame hpair).1 ▸ hmode) he]

/-- A batch never gets more pairs than are left, and unless a sample raises it gets those left, or
as many as asked for. -/
theorem length_of_batch (hmode : s.act.mode ≠ 1) (h : RenderRun k s ps e s') :
    ps.length ≤ s.total.toNat - s.pos.toNat ∧
      (e = .emitted → ps.length = min k (s.total.toNat - s.pos.toNat)) := by
  induction h with
  | done => simp
  | stop hend =>
    have := pos_ge_of_end hend
    exact ⟨Nat.zero_le _, fun _ => by simp; omega⟩
  | raise => exact ⟨Nat.zero_le _, nofun⟩
  | emit hmore _ hpair _ ih =>
    obtain ⟨hact, htotal, hpos⟩ := pair_frame hpair
    have hlt := pos_lt_of_more hmode hmore
    have hsucc := pos_succ hlt
    obtain ⟨hle, heq⟩ := ih (hact ▸ hmode)
    rw [htotal, hpos, hsucc] at hle heq
    rw [List.length_cons]
    exact ⟨by omega, fun he => by have := heq he; omega⟩

/-- The flag of a sample that the loop runs. -/
theorem lastFlag_iff (hmore : moreSamples s = true) :
    lastFlag k s = true ↔ k = 0 ∨ (s.act.mode = 0 ∧ s.pos.toNat + 1 = s.total.toNat) := by
  simp only [lastFlag, Bool.or_eq_true, Bool.and_eq_true, decide_eq_true_eq]
  refine or_congr Iff.rfl (and_congr_right fun hmode => ?_)
  have hlt := pos_lt_of_more (by rw [hmode]; decide) hmore
  rw [← BitVec.toNat_inj, pos_succ hlt]

/-- The flag of a pair is set exactly at the end of the block or of the batch. -/
theorem last_iff (h : RenderRun k s ps e s') (i : Nat) (hi : i < ps.length) :
    ps[i].last = true ↔
      i + 1 = k ∨ (s.act.mode = 0 ∧ s.pos.toNat + i + 1 = s.total.toNat) := by
  induction h generalizing i with
  | done | stop | raise => exact absurd hi (Nat.not_lt_zero i)
  | @emit k s s₁ s' l r ps e hmore _ hpair _ ih =>
    cases i with
    | zero =>
      refine (lastFlag_iff hmore).trans (or_congr ?_ Iff.rfl)
      omega
    | succ i =>
      obtain ⟨hact, htotal, hpos⟩ := pair_frame hpair
      refine (ih i (Nat.lt_of_succ_lt_succ hi)).trans ?_
      rw [hact, htotal, hpos]
      refine or_congr (by omega) (and_congr_right fun hmode => ?_)
      have hlt := pos_lt_of_more (by rw [hmode]; decide) hmore
      rw [pos_succ hlt]
      omega

/-- The run is SAMPLE for each pair's flag in turn, and once more where a sample raises. -/
theorem sampleRuns_eq (h : RenderRun k s ps e s') (p : Pending) (l : Bool) :
    ∃ flags l', sampleRuns flags (s.withUnread p l) = .next (s'.withUnread p l') ∧
      flags.take ps.length = ps.map (·.last) ∧
      flags.length = ps.length + if e = .raised then 1 else 0 := by
  induction h generalizing l with
  | done | stop => exact ⟨[], l, rfl, rfl, rfl⟩
  | raise _ hrun _ =>
    exact ⟨[_], _, sampleRuns_cons (exec_sample_withUnread hrun), rfl, rfl⟩
  | emit _ hrun _ _ ih =>
    obtain ⟨flags, l', hruns, htake, hlen⟩ := ih (lastFlag _ _)
    refine ⟨_ :: flags, l', (sampleRuns_cons (exec_sample_withUnread hrun)).trans hruns, ?_, ?_⟩
    · rw [List.length_cons, List.take_succ_cons, htake, List.map_cons]
    · rw [List.length_cons, hlen, List.length_cons]
      omega

end RenderRun

end Sys2Proof.Machine
end

section
/-! RENDER as a run of its loop (46_engine_commands.md R216), and what the commands do to the
session (R210, R219, 60_exceptions.md R241, R246, R248). -/

namespace Sys2Proof.Machine

/-! ### RENDER -/

/-- What a RENDER that asks for `k` pairs does from `s`: a run of the loop that emits `ps`, ends as
`e` says and leaves the units as in `m`; then STATUS and the response. -/
structure RenderDone (k : Nat) (s t : State) (ps : List OutPair) (e : SampleEnd) (m : State) :
    Prop where
  run : ∃ s', RenderRun k (renderStart s) ps e s' ∧ s' = { m with status := s'.status }
  units : Rendered (renderStart s) m ps
  answer : t = respond .ok (BitVec.ofNat 64 ps.length) { m with status := t.status }
  status : (e = .raised ∧
      t.status = { s.status with state := .failed, err := .runtime, detail := 8 }) ∨
    (e = .emitted ∧ t.status = { s.status with
      state := if s.act.mode = 0 ∧ t.pos = t.total then .complete else .rendering })

theorem renderStart_mode (s : State) : (renderStart s).act.mode = s.act.mode := by
  rw [renderStart_act]
  split <;> rfl

theorem finishRender_status {m : State} (h : m.status.state = .rendering) :
    finishRender m = { m with status := { m.status with
      state := if m.act.mode = 0 ∧ m.pos = m.total then .complete else .rendering } } := by
  unfold finishRender
  split
  · rfl
  · rw [← h]

theorem render_done {s t : State} {n : WData} (hstate : s.status.state = .rendering)
    (ht : exec (.render n) s = .next t) : ∃ ps e m, RenderDone n.toNat s t ps e m := by
  obtain ⟨e, cnt, s', hloop, rfl⟩ := render_cases hstate ht
  obtain ⟨ps, hcnt, hrun⟩ := renderLoop_run hloop
  rw [Nat.zero_add] at hcnt
  subst hcnt
  obtain ⟨m, hunits, hend⟩ := hrun.rendered
  have hmode := renderStart_mode s
  have hstart := renderStart_frame s
  obtain ⟨nz, ph, d, rv, hm⟩ := hunits.frame
  have hstatus : m.status = s.status := by rw [hm, hstart]
  have hmmode : m.act.mode = s.act.mode := by rw [hm, ← hmode]
  refine ⟨ps, e, m, ⟨s', hrun, ?_⟩, hunits, ?_, ?_⟩
  all_goals rcases hend with ⟨rfl, rfl⟩ | ⟨rfl, rfl⟩
  · rfl
  · rfl
  · rw [renderEnd, finishRender_status (hstatus ▸ hstate)]
    rfl
  · rfl
  · refine .inr ⟨rfl, ?_⟩
    rw [renderEnd, finishRender_status (hstatus ▸ hstate), hmmode, hstatus]
    rfl
  · refine .inl ⟨rfl, ?_⟩
    rw [renderEnd, respond_status, raiseError_status, hstatus]
    rfl

namespace RenderDone

variable {k : Nat} {s t m : State} {ps : List OutPair} {e : SampleEnd}

/-- All that a RENDER writes. -/
theorem frame (h : RenderDone k s t ps e m) : ∃ nz ph d rv, RvKept s.rv rv ∧
    (s.nz.cnt.toNat < 2 ^ 32 → nz.cnt.toNat < 2 ^ 32) ∧ t = { s with
      act := (renderStart s).act, status := t.status, nz := nz, ph := ph, draws := d, rv := rv
      out := s.out ++ ps, pos := s.pos + BitVec.ofNat 64 ps.length
      resp := some ⟨.ok, BitVec.ofNat 64 ps.length⟩ } := by
  have hanswer := h.answer
  have hlines := h.units.lines
  have hcount := h.units.count
  obtain ⟨nz, ph, d, rv, rfl⟩ := h.units.frame
  rw [renderStart_frame s] at hanswer hlines hcount
  exact ⟨nz, ph, d, rv, hlines, hcount, hanswer⟩

theorem finite (h : RenderDone k s t ps e m) :
    ∀ p ∈ ps, fisFinite p.left = true ∧ fisFinite p.right = true := h.units.finite

theorem length_le (h : RenderDone k s t ps e m) : ps.length ≤ k := by
  obtain ⟨s', hrun, -⟩ := h.run
  exact hrun.length_le

theorem last_iff (h : RenderDone k s t ps e m) (i : Nat) (hi : i < ps.length) :
    ps[i].last = true ↔
      i + 1 = k ∨ (s.act.mode = 0 ∧ s.pos.toNat + i + 1 = s.total.toNat) := by
  obtain ⟨s', hrun, -⟩ := h.run
  have hlast := hrun.last_iff i hi
  rwa [renderStart_mode, renderStart_frame s] at hlast

theorem length_of_batch (h : RenderDone k s t ps e m) (hmode : s.act.mode = 0) :
    ps.length ≤ s.total.toNat - s.pos.toNat ∧
      (e = .emitted → ps.length = min k (s.total.toNat - s.pos.toNat)) := by
  obtain ⟨s', hrun, -⟩ := h.run
  have hne : (renderStart s).act.mode ≠ 1 := by rw [renderStart_mode, hmode]; decide
  have hlen := hrun.length_of_batch hne
  rwa [renderStart_frame s] at hlen

/-- The pairs of a RENDER are those of SAMPLE with their flags. -/
theorem sampleRuns_eq (h : RenderDone k s t ps e m) : ∃ flags u,
    sampleRuns flags { s with act := t.act } = .next u ∧
    t = { u with opLast := s.opLast, status := t.status, resp := t.resp } ∧
    flags.take ps.length = ps.map (·.last) ∧
    flags.length = ps.length + if t.status.state = .failed then 1 else 0 := by
  obtain ⟨s', hrun, hs'⟩ := h.run
  obtain ⟨flags, l', hruns, htake, hlen⟩ := hrun.sampleRuns_eq s.pend s.opLast
  have hfailed : t.status.state = .failed ↔ e = .raised := by
    rcases h.status with ⟨rfl, hst⟩ | ⟨rfl, hst⟩
    · simp [hst]
    · rw [hst]
      split <;> simp
  have hstart : { s with act := t.act } = (renderStart s).withUnread s.pend s.opLast := by
    obtain ⟨nz, ph, d, rv, -, -, ht⟩ := h.frame
    rw [ht, renderStart_frame s]
    rfl
  refine ⟨flags, _, hstart ▸ hruns, ?_, htake, hlen.trans (by simp only [hfailed])⟩
  have hanswer := h.answer
  obtain ⟨nz, ph, d, rv, hm⟩ := h.units.frame
  rw [renderStart_frame s] at hm
  have hresp : t.resp = some ⟨.ok, BitVec.ofNat 64 ps.length⟩ := congrArg State.resp hanswer
  rw [hs', hm, hresp]
  rw [hm] at hanswer
  exact hanswer

end RenderDone

/-- Settles O19: RENDER answers where its lines are allocated, and what it does is `RenderDone`. -/
theorem renderEmitsTheBlock : Obligations.RenderEmitsTheBlock := by
  intro n s hstate hready
  obtain ⟨t, ht⟩ := (render_executes_of_ready hstate hready n).answers
  obtain ⟨ps, e, m, hdone⟩ := render_done hstate ht
  have hruns := hdone.sampleRuns_eq
  obtain ⟨nz, ph, d, rv, hkept, -, hframe⟩ := hdone.frame
  have hact : t.act = (renderStart s).act := by rw [hframe]
  refine ⟨t, ps, ht, by rw [hframe], hdone.length_le, by rw [hframe], by rw [hframe], hdone.finite,
    hdone.last_iff, hact.trans (renderStart_act s), by rw [hframe], by rw [hframe], by rw [hframe],
    by rw [hframe], by rw [hframe], by rw [hframe], by rw [hframe], by rw [hframe], by rw [hframe],
    by rw [hframe], by rw [hframe], fun c => ?lens, hruns, ?ends⟩
  case lens =>
    rw [hframe]
    exact (hkept c).len
  case ends =>
    obtain ⟨s', hrun, -⟩ := hdone.run
    rcases hdone.status with ⟨rfl, hst⟩ | ⟨rfl, hst⟩
    · exact .inl ⟨hst, hrun.length_lt_of_raised⟩
    · exact .inr ⟨hst, fun hmode => hrun.length_of_stream ((renderStart_mode s).trans hmode),
        fun hmode => (hdone.length_of_batch hmode).2 rfl⟩

/-- RENDER 0 takes the snapshot, and completes a batch that is at its end. -/
theorem exec_render_zero {s : State} (h : s.status.state = .rendering) :
    exec (.render 0) s = .next { s with
      act := (renderStart s).act
      status := { s.status with
        state := if s.act.mode = 0 ∧ s.pos = s.total then .complete else .rendering }
      resp := some ⟨.ok, 0⟩ } := by
  have hstart := renderStart_frame s
  have hstatus : (renderStart s).status = s.status := by rw [hstart]
  rw [exec_render_of_loop h (s' := renderStart s) (e := .emitted) (cnt := 0) rfl, renderEnd,
    finishRender_status (hstatus ▸ h), renderStart_mode]
  rw [hstart]
  rfl

/-- Settles O21: the snapshot is of the registers that are kept (`renderStart_withUnread`), and from
there the loop reads no pending register (`renderLoop_withUnread`). -/
theorem renderReadsOnlyTheSnapshot : Obligations.RenderReadsOnlyTheSnapshot := by
  intro n s t p ht hp
  change exec (.render n) (s.withUnread p s.opLast) = _
  by_cases hstate : s.status.state = .rendering
  · have hlast : t.opLast = s.opLast := by
      obtain ⟨ps, e, m, hdone⟩ := render_done hstate ht
      obtain ⟨nz, ph, d, rv, -, -, hframe⟩ := hdone.frame
      rw [hframe]
    obtain ⟨e, cnt, s', hloop, rfl⟩ := render_cases hstate ht
    have hloop' : renderLoop n.toNat 0 (renderStart (s.withUnread p s.opLast)) =
        .ok (e, cnt, s'.withUnread p s.opLast) := by
      rw [renderStart_withUnread _ hp, renderLoop_withUnread, hloop]
      rfl
    rw [exec_render_of_loop (s := s.withUnread p s.opLast) hstate hloop', renderEnd_withUnread,
      ← hlast]
    rfl
  · rw [exec_render_refused hstate] at ht
    cases ht
    exact exec_render_refused (s := s.withUnread p s.opLast) hstate n

/-! ### A batch -/

/-- What RENDER commands do in a batch: pairs appended and counted in POS, up to TOTAL, and Complete
at TOTAL only. -/
structure BatchProgress (s t : State) (n : Nat) : Prop where
  pairs : ∃ ps, t.out = s.out ++ ps ∧ ps.length = n
  pos : t.pos.toNat = s.pos.toNat + n
  total : t.total = s.total
  mode : t.act.mode = 0
  within : t.pos.toNat ≤ t.total.toNat
  complete : t.status.state = .complete → s.status.state = .complete ∨ t.pos.toNat = t.total.toNat

theorem BatchProgress.refl {s : State} (hmode : s.act.mode = 0)
    (hpos : s.pos.toNat ≤ s.total.toNat) : BatchProgress s s 0 :=
  ⟨⟨[], by simp, rfl⟩, rfl, rfl, hmode, hpos, .inl⟩

theorem BatchProgress.trans {a b c : State} {m n : Nat} (h1 : BatchProgress a b m)
    (h2 : BatchProgress b c n) : BatchProgress a c (m + n) where
  pairs := by
    obtain ⟨p, hp, hm⟩ := h1.pairs
    obtain ⟨q, hq, hn⟩ := h2.pairs
    exact ⟨p ++ q, by rw [hq, hp, List.append_assoc], by rw [List.length_append, hm, hn]⟩
  pos := by rw [h2.pos, h1.pos, Nat.add_assoc]
  total := h2.total.trans h1.total
  mode := h2.mode
  within := h2.within
  complete hc := by
    rcases h2.complete hc with hb | hend
    · refine (h1.complete hb).imp_right fun hend => ?_
      have := h2.pos
      have := h2.within
      rw [h2.total] at this ⊢
      omega
    · exact .inr hend

/-- One RENDER of a batch; its RDATA is the number of pairs. -/
theorem render_progress {s t : State} {n : WData} (hmode : s.act.mode = 0)
    (hpos : s.pos.toNat ≤ s.total.toNat) (ht : exec (.render n) s = .next t) :
    ∃ d, t.resp = some d ∧ BatchProgress s t d.rdata.toNat := by
  by_cases hstate : s.status.state = .rendering
  · obtain ⟨ps, e, m, hdone⟩ := render_done hstate ht
    obtain ⟨hle, -⟩ := hdone.length_of_batch hmode
    obtain ⟨nz, ph, d, rv, -, -, hframe⟩ := hdone.frame
    have htotal : t.total = s.total := by rw [hframe]
    have hlen : (BitVec.ofNat 64 ps.length).toNat = ps.length := by
      have := s.total.isLt
      rw [BitVec.toNat_ofNat]
      omega
    have htpos : t.pos.toNat = s.pos.toNat + ps.length := by
      have := s.total.isLt
      have hp : t.pos = s.pos + BitVec.ofNat 64 ps.length := by rw [hframe]
      rw [hp, BitVec.toNat_add, hlen]
      omega
    refine ⟨⟨.ok, BitVec.ofNat 64 ps.length⟩, by rw [hframe], ?_⟩
    simp only [hlen]
    refine ⟨⟨ps, by rw [hframe], rfl⟩, htpos, htotal, ?_, by rw [htotal]; omega, fun hc => .inr ?_⟩
    · rw [hframe]
      exact (renderStart_mode s).trans hmode
    · rcases hdone.status with ⟨-, hst⟩ | ⟨-, hst⟩
      · rw [hst] at hc
        cases hc
      · rw [hst] at hc
        split at hc
        · rename_i hend
          rw [hend.2]
        · cases hc
  · rw [exec_render_refused hstate] at ht
    cases ht
    exact ⟨⟨.errState, 0⟩, rfl, ⟨[], by simp, rfl⟩, rfl, rfl, hmode, hpos, .inl⟩

theorem renderRun_progress {ns : List WData} {ds : List U64} {s t : State} (hmode : s.act.mode = 0)
    (hpos : s.pos.toNat ≤ s.total.toNat) (h : renderRun ns s = some (ds, t)) :
    BatchProgress s t (ds.map BitVec.toNat).sum := by
  induction ns generalizing s ds with
  | nil =>
    cases h
    exact .refl hmode hpos
  | cons n ns ih =>
    rw [renderRun] at h
    split at h
    case h_2 | h_3 => cases h
    rename_i u hu
    split at h
    case h_2 => cases h
    rename_i r es v hresp hrest
    cases h
    obtain ⟨d, hd, hfirst⟩ := render_progress hmode hpos hu
    obtain rfl : d = r := Option.some.inj (hd.symm.trans hresp)
    exact hfirst.trans (ih hfirst.mode hfirst.within hrest)

/-! ### What the host commands answer -/

/-- A host command answers OK, or it is refused with no other change. -/
theorem host_answer {i : Instr} {s t : State} (hhost : i.isHost = true)
    (ht : exec i s = .next t) : (∃ d u, t = respond .ok d u) ∨ ∃ c, t = refuse c s := by
  cases i with
  | nop =>
    cases ht
    exact .inl ⟨_, _, rfl⟩
  | release =>
    cases ht
    exact .inl ⟨_, _, rfl⟩
  | wrreg a v =>
    cases ha : regAt a with
    | none =>
      rw [exec_wrreg_undefined ha] at ht
      cases ht
      exact .inr ⟨_, rfl⟩
    | some r =>
      obtain rfl := regAddr_of_regAt ha
      cases hp : writePending s.pend v r with
      | none =>
        rw [exec_wrreg_readOnly hp] at ht
        cases ht
        exact .inr ⟨_, rfl⟩
      | some p =>
        rw [exec_wrreg_writable hp] at ht
        cases ht
        exact .inl ⟨_, _, rfl⟩
  | rdreg a =>
    cases ha : regAt a with
    | none =>
      rw [exec_rdreg_undefined ha] at ht
      cases ht
      exact .inr ⟨_, rfl⟩
    | some r =>
      obtain rfl := regAddr_of_regAt ha
      rw [exec_rdreg_regAddr] at ht
      cases ht
      exact .inl ⟨_, _, rfl⟩
  | rdmem d =>
    cases hd : dmFields d with
    | none =>
      rw [exec_rdmem_none hd] at ht
      cases ht
      exact .inr ⟨_, rfl⟩
    | some word =>
      obtain ⟨c, j, o⟩ := word
      rw [exec_rdmem_some hd] at ht
      split at ht
      · cases ht
        exact .inl ⟨_, _, rfl⟩
      · cases ht
        exact .inr ⟨_, rfl⟩
  | prepare =>
    by_cases hidle : s.status.state = .idle
    · cases hcheck : prepareCheck s.pend s.delayCap with
      | some e =>
        rw [exec_prepare_failed hidle hcheck] at ht
        cases ht
        exact .inl ⟨_, _, rfl⟩
      | none =>
        rw [exec_prepare_passed hidle hcheck] at ht
        cases ht
        exact .inl ⟨_, _, rfl⟩
    · rw [exec_prepare_refused hidle] at ht
      cases ht
      exact .inr ⟨_, rfl⟩
  | render n =>
    by_cases hstate : s.status.state = .rendering
    · obtain ⟨e, cnt, s', -, rfl⟩ := render_cases hstate ht
      exact .inl ⟨_, _, rfl⟩
    · rw [exec_render_refused hstate] at ht
      cases ht
      exact .inr ⟨_, rfl⟩
  | _ => cases hhost

/-- Settles O25, by `host_answer`. -/
theorem refusalsChangeNothing : Obligations.RefusalsChangeNothing := by
  intro i s t c d hhost ht hresp hc
  rcases host_answer hhost ht with ⟨d', u, rfl⟩ | ⟨c', rfl⟩
  · cases hresp
    exact absurd rfl hc
  · cases hresp
    rfl

/-- The commands of a session that is over: PREPARE and RENDER are refused, RELEASE clears it, the
others write pending registers and the response at most. -/
theorem ended_cases {i : Instr} {s : State} (hhost : i.isHost = true)
    (hend : s.status.state = .complete ∨ s.status.state = .failed) :
    ((i = .prepare ∨ ∃ n, i = .render n) ∧ exec i s = .next (refuse .errState s)) ∨
    (i = .release ∧ exec i s = .next (respond .ok 0 (clearSession s))) ∨
    (i ≠ .release ∧ (¬ (i = .prepare ∨ ∃ n, i = .render n)) ∧
      ∃ c d p, exec i s = .next (respond c d { s with pend := p })) := by
  have hidle : s.status.state ≠ .idle := by rcases hend with h | h <;> simp [h]
  have hrendering : s.status.state ≠ .rendering := by rcases hend with h | h <;> simp [h]
  by_cases hp : i = .prepare
  · subst hp
    exact .inl ⟨.inl rfl, exec_prepare_refused hidle⟩
  by_cases hr : ∃ n, i = .render n
  · obtain ⟨n, rfl⟩ := hr
    exact .inl ⟨.inr ⟨n, rfl⟩, exec_render_refused hrendering n⟩
  by_cases hrel : i = .release
  · subst hrel
    exact .inr (.inl ⟨rfl, rfl⟩)
  obtain ⟨c, d, p, h, -⟩ := exec_ungated_frame hhost hp (not_exists.mp hr) hrel s
  exact .inr (.inr ⟨hrel, not_or.mpr ⟨hp, hr⟩, c, d, p, h⟩)

/-- Settles O24, by `ended_cases`. -/
theorem failedUntilRelease : Obligations.FailedUntilRelease := by
  intro i s hhost hfailed
  rcases ended_cases hhost (.inr hfailed) with ⟨hi, he⟩ | ⟨rfl, he⟩ | ⟨hrel, hi, c, d, p, he⟩
  · refine ⟨_, he, fun _ => rfl, fun _ => rfl, fun hrel => ?_⟩
    subst hrel
    rcases hi with hi | ⟨n, hi⟩ <;> cases hi
  · refine ⟨_, he, fun hi => ?_, fun hne => absurd rfl hne, fun _ => ⟨rfl, rfl, rfl⟩⟩
    rcases hi with hi | ⟨n, hi⟩ <;> cases hi
  · exact ⟨_, he, fun h => absurd h hi, fun _ => rfl, fun h => absurd h hrel⟩

/-- Settles O27: the RENDER commands add up by `renderRun_progress`; after Complete nothing emits,
by `ended_cases`. -/
theorem batchEmitsExactlyTotal : Obligations.BatchEmitsExactlyTotal := by
  refine ⟨fun ns ds s t hstate hmode hpos hrun hcomplete => ?_, fun i s t hhost hstate ht => ?_⟩
  · have hzero : s.pos.toNat = 0 := by rw [hpos]; rfl
    have hprog := renderRun_progress hmode (by omega) hrun
    have hsum : (ds.map BitVec.toNat).sum = s.total.toNat := by
      have hend := (hprog.complete hcomplete).resolve_left (by rw [hstate]; decide)
      rw [hprog.pos, hprog.total] at hend
      omega
    obtain ⟨ps, hout, hlen⟩ := hprog.pairs
    exact ⟨hsum, ps, hout, hlen.trans hsum⟩
  · rcases ended_cases hhost (.inl hstate) with ⟨-, he⟩ | ⟨-, he⟩ | ⟨-, -, c, d, p, he⟩
    all_goals
      rw [he] at ht
      cases ht
      rfl

/-! ### The transitions of STATE -/

/-- PREPARE in Idle: it starts a session, or it fails with a configuration or resource error. -/
theorem prepare_cases {s t : State} (hidle : s.status.state = .idle)
    (ht : exec .prepare s = .next t) :
    (∃ e, prepareCheck s.pend s.delayCap = some e ∧
      t = respond .ok (statusWord (raiseError e s).status) (raiseError e s)) ∨
    (prepareCheck s.pend s.delayCap = none ∧
      t = respond .ok (statusWord (prepareSession s).status) (prepareSession s)) := by
  cases hcheck : prepareCheck s.pend s.delayCap with
  | some e =>
    rw [exec_prepare_failed hidle hcheck] at ht
    cases ht
    exact .inl ⟨e, rfl, rfl⟩
  | none =>
    rw [exec_prepare_passed hidle hcheck] at ht
    cases ht
    exact .inr ⟨rfl, rfl⟩

/-- Settles O23: PREPARE by `prepare_cases`, RENDER by `RenderDone.status`; the other commands but
RELEASE keep STATUS. -/
theorem stateTransitions : Obligations.StateTransitions := by
  intro i s t hhost hnot ht
  have keep (h : t.status = s.status) : t.status.state ≠ .preparing ∧
      t.status.state = s.status.state := by rw [h]; exact ⟨hnot, rfl⟩
  by_cases hp : i = .prepare
  · subst hp
    by_cases hidle : s.status.state = .idle
    · rcases prepare_cases hidle ht with ⟨e, hcheck, rfl⟩ | ⟨-, rfl⟩
      · exact ⟨nofun, .inr (.inl ⟨rfl, hidle, .inr ⟨rfl, errorClass_of_prepareCheck hcheck⟩⟩)⟩
      · exact ⟨nofun, .inr (.inl ⟨rfl, hidle, .inl rfl⟩)⟩
    · rw [exec_prepare_refused hidle] at ht
      cases ht
      exact (keep rfl).imp_right .inl
  by_cases hr : ∃ n, i = .render n
  · obtain ⟨n, rfl⟩ := hr
    by_cases hstate : s.status.state = .rendering
    · obtain ⟨ps, e, m, hdone⟩ := render_done hstate ht
      obtain ⟨nz, ph, d, rv, -, -, hframe⟩ := hdone.frame
      have hmode : t.act.mode = s.act.mode := by rw [hframe]; exact renderStart_mode s
      rcases hdone.status with ⟨-, hst⟩ | ⟨-, hst⟩
      · rw [hst]
        exact ⟨nofun, .inr (.inr (.inl ⟨⟨n, rfl⟩, hstate, .inr ⟨rfl, rfl⟩⟩))⟩
      · rw [hst]
        split
        · rename_i hend
          exact ⟨nofun,
            .inr (.inr (.inl ⟨⟨n, rfl⟩, hstate, .inl ⟨rfl, hmode.trans hend.1, hend.2⟩⟩))⟩
        · exact ⟨nofun, .inl hstate.symm⟩
    · rw [exec_render_refused hstate] at ht
      cases ht
      exact (keep rfl).imp_right .inl
  by_cases hrel : i = .release
  · subst hrel
    cases ht
    exact ⟨nofun, .inr (.inr (.inr ⟨rfl, rfl⟩))⟩
  obtain ⟨c, d, p, h, -⟩ := exec_ungated_frame hhost hp (not_exists.mp hr) hrel s
  rw [h] at ht
  cases ht
  exact (keep rfl).imp_right .inl

/-! ### The step -/

/-- The companion of `fetch_select`, for a reserved word in the slot. -/
theorem fetch_reserved {s : State} {w : CmdWord} {r : Reject} (hs : s.sel = some w)
    (hd : decodeSelect w = .error r) : fetch s = .reserved := by
  simp only [fetch, hs, hd]

/-- Settles O7: what the step takes is said by `fetch_command`, `fetch_select` and `fetch_reserved`.
-/
theorem stepRunsTheDecodedInstruction : Obligations.StepRunsTheDecodedInstruction := by
  refine ⟨fun s w d rest i hs hp hd => ?_, fun s w hs => ⟨fun i hd => ?_, fun r hd => ?_⟩⟩
  · rw [step, fetch_command hs hp hd, popPort_eq hp]
  · rw [step, fetch_select hs hd]
    rfl
  · rw [step, fetch_reserved hs hd]

end Sys2Proof.Machine
end

section
/-! What every step keeps (10_state.md, 60_exceptions.md R243, R248): the invariant of the machine,
the invariant of a batch, and a response to every command. -/

namespace Sys2Proof.Machine

/-! ### What a host command or a step can do -/

/-- A host command writes pending registers and the response at most (so a refusal too), or it is a
PREPARE that fails or starts a session, a RENDER in a session, or RELEASE. -/
inductive HostStep (s : State) : State → Prop where
  | pending (c : Resp) (d : U64) (p : Pending) : HostStep s (respond c d { s with pend := p })
  | failed (e : SessionError) (d : U64) : HostStep s (respond .ok d (raiseError e s))
  | prepared (d : U64) (hcheck : prepareCheck s.pend s.delayCap = none) :
      HostStep s (respond .ok d (prepareSession s))
  | rendered {n : WData} {t : State} (hstate : s.status.state = .rendering)
      (ht : exec (.render n) s = .next t) : HostStep s t
  | released : HostStep s (respond .ok 0 (clearSession s))

theorem hostStep_of_exec {i : Instr} {s t : State} (hhost : i.isHost = true)
    (ht : exec i s = .next t) : HostStep s t := by
  by_cases hp : i = .prepare
  · subst hp
    by_cases hidle : s.status.state = .idle
    · rcases prepare_cases hidle ht with ⟨e, -, rfl⟩ | ⟨hcheck, rfl⟩
      · exact .failed e _
      · exact .prepared _ hcheck
    · rw [exec_prepare_refused hidle] at ht
      cases ht
      exact .pending _ _ s.pend
  by_cases hr : ∃ n, i = .render n
  · obtain ⟨n, rfl⟩ := hr
    by_cases hstate : s.status.state = .rendering
    · exact .rendered hstate ht
    · rw [exec_render_refused hstate] at ht
      cases ht
      exact .pending _ _ s.pend
  by_cases hrel : i = .release
  · subst hrel
    cases ht
    exact .released
  obtain ⟨c, d, p, h, -⟩ := exec_ungated_frame hhost hp (not_exists.mp hr) hrel s
  rw [h] at ht
  cases ht
  exact .pending c d p

theorem isHost_of_hostRow {d : WData} {w : CmdWord} {i : Instr} (h : HostRow d w i) :
    i.isHost = true := by
  cases h <;> rfl

/-- A step holds the state, is the reset input, refuses a word, or runs a host command or, out of
the slot, a unit operation. -/
theorem step_cases {s t : State} (ht : step s = .next t) :
    t = s ∨ t = resetInput (popPort s) ∨ t = refuse .errIllegal (popPort s) ∨
    (∃ i, i.isHost = true ∧ exec i (popPort s) = .next t) ∨
    (s.sel ≠ none ∧ ∃ i, i.isHost = false ∧ exec i (popSelect s) = .next t) := by
  cases hs : s.sel with
  | some w =>
    cases hd : decodeSelect w with
    | error r =>
      rw [step, fetch_reserved hs hd] at ht
      cases ht
    | ok i =>
      rw [step, fetch_select hs hd] at ht
      exact .inr (.inr (.inr (.inr ⟨nofun, i, (decodeSelect_eq_ok_iff.mp hd).1, ht⟩)))
  | none =>
    cases hp : s.port with
    | nil =>
      rw [step, fetch_quiet hs hp] at ht
      cases ht
      exact .inl rfl
    | cons event rest =>
      cases event with
      | reset =>
        rw [step, fetch_reset hs hp] at ht
        cases ht
        exact .inr (.inl rfl)
      | command w d =>
        cases hd : decodeHost w d with
        | error r =>
          rw [step, fetch_illegal hs hp hd] at ht
          cases ht
          exact .inr (.inr (.inl rfl))
        | ok i =>
          rw [step, fetch_command hs hp hd] at ht
          have hhost := isHost_of_hostRow (decodeHost_eq_ok_iff.mp hd)
          exact .inr (.inr (.inr (.inl ⟨i, hhost, ht⟩)))

/-! ### The invariant -/

/-- `Inv` speaks of the networks, STATUS, the active registers and the noise registers only. -/
theorem Inv.congr {s t : State} (h : Inv s) (hrv : t.rv = s.rv) (hstatus : t.status = s.status)
    (hact : t.act = s.act) (hnz : t.nz = s.nz) : Inv t where
  memory := by rw [hrv]; exact h.memory
  cursors := by rw [hrv]; exact h.cursors
  reverb := by rw [State.reverbReady, hrv, hstatus]; exact h.reverb
  notPreparing := by rw [hstatus]; exact h.notPreparing
  errors := by rw [hstatus]; exact h.errors
  pinkCount := by rw [hnz]; exact h.pinkCount
  flags := by rw [flagsFollowMode, hstatus, hact]; exact h.flags

/-- Networks as an operation of a network leaves them, or newly prepared, keep their part of `Inv`.
-/
theorem Inv.of_kept {s t : State} {fs : F64} (h : Inv s)
    (hrv : ∀ c : Fin 2, NetKept s.rv[c] t.rv[c] ∨ t.rv[c] = netPrep fs s.rv[c])
    (hcap : t.status.capReverb = s.status.capReverb) (hstate : t.status.state ≠ .preparing)
    (herrors : errorFieldsOk t.status = true)
    (hcnt : s.nz.cnt.toNat < 2 ^ 32 → t.nz.cnt.toNat < 2 ^ 32)
    (hflags : inSession t.status = true → flagsFollowMode t = true) : Inv t where
  memory c := by
    rcases hrv c with hkept | hprep
    · exact hkept.wf (h.memory c)
    · rw [hprep]
      exact netPrep_wf fs _
  cursors c j := by
    rcases hrv c with hkept | hprep
    · exact hkept.cursorOk j (h.cursors c j)
    · rw [hprep]
      exact .inl (netPrep_ready fs _ j)
  reverb hon c := by
    rcases hrv c with hkept | hprep
    · exact hkept.ready (h.reverb (hcap.symm.trans hon) c)
    · rw [hprep]
      exact netPrep_ready fs _
  notPreparing := hstate
  errors := herrors
  pinkCount := hcnt h.pinkCount
  flags := hflags

/-- A raised error has its class with its detail. -/
theorem errorFieldsOk_raiseError (e : SessionError) (s : State) :
    errorFieldsOk (raiseError e s).status = true := by
  cases e <;> rfl

theorem Inv.of_raiseError {s : State} (h : Inv s) (e : SessionError) : Inv (raiseError e s) :=
  h.of_kept (fs := 0) (fun _ => .inl (.refl _)) rfl nofun (errorFieldsOk_raiseError e s) id nofun

/-- No error and no line: the state after reset and after RELEASE. -/
theorem Inv.of_clearSession (s : State) : Inv (clearSession s) where
  memory := by rw [clearSession_rv]; decide
  cursors := by rw [clearSession_rv]; decide
  reverb := nofun
  notPreparing := nofun
  errors := rfl
  pinkCount := by rw [clearSession_nz]; decide
  flags := nofun

theorem Inv.of_resetInput (s : State) : Inv (resetInput s) :=
  (Inv.of_clearSession s).congr rfl rfl rfl rfl

theorem freshNetwork_eq (fs : F64) (n : Network) : freshNetwork fs = netPrep fs n :=
  (netPrep_eq fs n).symm

/-- A new session, whatever the checks that let it through. -/
theorem Inv.of_prepareSession {s : State} (h : Inv s)
    (hmode : s.pend.mode = 0 ∨ s.pend.mode = 1) : Inv (prepareSession s) := by
  rcases hmode with hbatch | hstream
  · have hfresh (c : Fin 2) : (prepareSession s).rv[c] = netPrep s.pend.sampleRate s.rv[c] := by
      rw [prepareSession_batch hbatch, ← freshNetwork_eq]
      fin_cases c <;> rfl
    rw [prepareSession_batch hbatch] at hfresh ⊢
    exact
      { memory := fun c => by rw [hfresh c]; exact netPrep_wf _ _
        cursors := fun c j => by rw [hfresh c]; exact .inl (netPrep_ready _ _ j)
        reverb := fun _ c => by rw [hfresh c]; exact netPrep_ready _ _
        notPreparing := nofun
        errors := rfl
        pinkCount := (by decide : (0 : U64).toNat < 2 ^ 32)
        flags := fun _ => rfl }
  · rw [prepareSession_stream hstream]
    exact ⟨h.memory, h.cursors, nofun, nofun, rfl, h.pinkCount, fun _ => rfl⟩

/-- The snapshot keeps what the flags follow. -/
theorem flagsFollowMode_renderStart (s : State) :
    flagsFollowMode (renderStart s) = flagsFollowMode s := by
  rw [renderStart]
  split <;> rfl

theorem Inv.of_render {s t : State} {n : WData} (h : Inv s) (hstate : s.status.state = .rendering)
    (ht : exec (.render n) s = .next t) : Inv t := by
  have hsession : inSession s.status = true := by rw [inSession, hstate]; rfl
  have herrors := h.errors
  rw [errorFieldsOk, hstate] at herrors
  have hflags := h.flags hsession
  rw [← flagsFollowMode_renderStart, renderStart_frame s] at hflags
  obtain ⟨ps, e, m, hdone⟩ := render_done hstate ht
  obtain ⟨nz, ph, d, rv, hkept, hcnt, hframe⟩ := hdone.frame
  have hst : t.status = (raiseError .nonfiniteOutput s).status ∨
      ∃ st, (st = .complete ∨ st = .rendering) ∧ t.status = { s.status with state := st } := by
    rcases hdone.status with ⟨-, hst⟩ | ⟨-, hst⟩
    · exact .inl hst
    · refine .inr ⟨_, ?_, hst⟩
      split
      · exact .inl rfl
      · exact .inr rfl
  generalize t.status = status at hframe hst
  subst hframe
  rcases hst with rfl | ⟨st, hend, rfl⟩
  · exact h.of_kept (fs := 0) (fun c => .inl (hkept c)) rfl nofun rfl hcnt nofun
  · refine h.of_kept (fs := 0) (fun c => .inl (hkept c)) rfl ?_ ?_ hcnt fun _ => hflags
    · rcases hend with rfl | rfl <;> exact nofun
    · rcases hend with rfl | rfl <;> exact herrors

/-- PREPARE accepts two modes. -/
theorem mode_of_prepareCheck {s : State} (h : prepareCheck s.pend s.delayCap = none) :
    s.pend.mode = 0 ∨ s.pend.mode = 1 := by
  by_contra hmode
  exact prepareCheck_eq_none_iff.mp h .badMode ⟨not_or.mp hmode, fun h3 => absurd h3 (by decide)⟩

theorem Inv.of_hostStep {s t : State} (h : Inv s) (ht : HostStep s t) : Inv t := by
  cases ht with
  | pending c d p => exact h.congr rfl rfl rfl rfl
  | failed e d => exact (h.of_raiseError e).congr rfl rfl rfl rfl
  | prepared d hcheck =>
    exact (h.of_prepareSession (mode_of_prepareCheck hcheck)).congr rfl rfl rfl rfl
  | rendered hstate ht => exact h.of_render hstate ht
  | released => exact (Inv.of_clearSession s).congr rfl rfl rfl rfl

theorem Inv.of_unit {s t : State} (h : Inv s) (hkept : UnitKept s t) : Inv t := by
  have hflags (hst : t.status = s.status) : flagsFollowMode t = flagsFollowMode s := by
    rw [flagsFollowMode, flagsFollowMode, hst, hkept.mode, hkept.ent, hkept.ntype]
  rcases hkept.status with hst | hst
  · exact h.of_kept hkept.rv (by rw [hst]) (by rw [hst]; exact h.notPreparing)
      (by rw [hst]; exact h.errors) hkept.pinkCount
      (fun hin => (hflags hst).trans (h.flags (hst ▸ hin)))
  · exact h.of_kept hkept.rv (by rw [hst]; rfl) (by rw [hst]; exact nofun)
      (by rw [hst]; exact errorFieldsOk_raiseError _ s) hkept.pinkCount
      (fun hin => by rw [hst] at hin; cases hin)

/-- Settles O57, along `step_cases`. -/
theorem everyStepKeepsTheInvariant : Obligations.EveryStepKeepsTheInvariant := by
  intro s t h ht
  have hpop : Inv (popPort s) := h.congr rfl rfl rfl rfl
  have hslot : Inv (popSelect s) := h.congr rfl rfl rfl rfl
  rcases step_cases ht with rfl | rfl | rfl | ⟨i, hhost, hi⟩ | ⟨-, i, hunit, hi⟩
  · exact h
  · exact .of_resetInput _
  · exact hpop.congr rfl rfl rfl rfl
  · exact hpop.of_hostStep (hostStep_of_exec hhost hi)
  · exact hslot.of_unit (unit_kept hunit hi)

/-! ### The invariant of a batch -/

/-- `BatchInv` speaks of STATUS, the active registers, POS and TOTAL only. -/
theorem BatchInv.congr {s t : State} (h : BatchInv s) (hstatus : t.status = s.status)
    (hact : t.act = s.act) (hpos : t.pos = s.pos) (htotal : t.total = s.total) : BatchInv t where
  size := by rw [hstatus, hact, htotal]; exact h.size
  position := by rw [hstatus, hact, hpos, htotal]; exact h.position
  complete := by rw [hstatus, hact, hpos, htotal]; exact h.complete
  journey := by rw [hstatus, hact, htotal]; exact h.journey

/-- Outside a session `BatchInv` says nothing. -/
theorem BatchInv.of_not_inSession {s : State} (h : inSession s.status = false) : BatchInv s where
  size hin := absurd hin (by rw [h]; exact nofun)
  position hst := absurd h (by rw [inSession, hst]; exact nofun)
  complete hst := absurd h (by rw [inSession, hst]; exact nofun)
  journey hin := absurd hin (by rw [h]; exact nofun)

/-- A value below 2^63 that is not negative has its floor below 2^63. -/
theorem floor_lt_of_flt {x : F64} (hs : fsign x = false) (h : flt x fTwoPow63 = true) :
    (f64FloorToU64 x).toNat < 2 ^ 63 := by
  obtain ⟨hnan, -, horder⟩ := flt_iff.mp h
  have hmag : forder x = fmag x := by rw [forder, hs, if_neg (by decide)]
  have hdomain : floorDomain x = true := by
    have hzero : forder fZero = 0 := by decide
    rw [floorDomain, h, Bool.and_true, fle_iff]
    exact ⟨by decide, hnan, by rw [hzero, hmag]; omega⟩
  have htwo : forder fTwoPow63 = fmag fTwoPow63 := by decide
  have hunits : magUnits (fmag x) < 2 ^ 63 * unitsPerOne := by
    have hbound : magUnits (fmag fTwoPow63) = 2 ^ 63 * unitsPerOne := by decide +kernel
    rw [← hbound]
    refine magUnits_lt ?_
    rw [hmag, htwo] at horder
    exact Int.ofNat_lt.mp horder
  have hdiv : magUnits (fmag x) / unitsPerOne < 2 ^ 63 :=
    (Nat.div_lt_iff_lt_mul unitsPerOne_pos).mpr hunits
  rw [f64FloorToU64, if_pos hdomain, BitVec.toNat_ofNat]
  exact lt_of_le_of_lt (Nat.mod_le _ _) hdiv

/-- TOTAL of an accepted BATCH snapshot is below 2^63 (46_engine_commands.md R214). -/
theorem total_lt_of_prepareCheck {s : State} (hmode : s.pend.mode = 0)
    (hcheck : prepareCheck s.pend s.delayCap = none) :
    (f64FloorToU64 (fmul s.pend.duration s.pend.sampleRate)).toNat < 2 ^ 63 := by
  have hok := prepareCheck_eq_none_iff.mp hcheck
  have hrate : finitePositive s.pend.sampleRate = true := by
    by_contra hbad
    rw [Bool.not_eq_true, ← Bool.not_eq_true', not_finitePositive_iff] at hbad
    exact hok .badRate ⟨hbad, fun h3 => absurd h3 (by decide)⟩
  have hduration : ¬ causeOf s .badDuration := fun hbad => hok .badDuration ⟨hbad, fun _ => hmode⟩
  obtain ⟨hpositive, hlt⟩ := not_or.mp hduration
  rw [← not_finitePositive_iff, Bool.not_eq_true', Bool.not_eq_false] at hpositive
  obtain ⟨hdfinite, hdsign⟩ := finitePositive_iff hpositive
  obtain ⟨hrfinite, hrsign⟩ := finitePositive_iff hrate
  refine floor_lt_of_flt ?_ (by simpa using hlt)
  rw [fmul_positive hdfinite hrfinite hdsign hrsign, fsign_fpack]

theorem BatchInv.of_prepareSession {s : State} (hcheck : prepareCheck s.pend s.delayCap = none) :
    BatchInv (prepareSession s) := by
  rcases mode_of_prepareCheck hcheck with hbatch | hstream
  · rw [prepareSession_batch hbatch]
    refine ⟨fun _ _ => total_lt_of_prepareCheck hbatch hcheck, fun _ _ => Nat.zero_le _, nofun,
      fun _ hjny htotal => ?_⟩
    have hcount : s.pend.pulseCnt = 5 := of_decide_eq_true hjny
    rw [if_pos hcount]
    exact accepted_rise hbatch hcheck htotal
  · rw [prepareSession_stream hstream]
    exact ⟨fun _ => nofun, fun _ => nofun, nofun, fun _ => nofun⟩

theorem BatchInv.of_render {s t : State} {n : WData} (h : BatchInv s)
    (hstate : s.status.state = .rendering) (ht : exec (.render n) s = .next t) : BatchInv t := by
  have hsession : inSession s.status = true := by rw [inSession, hstate]; rfl
  obtain ⟨ps, e, m, hdone⟩ := render_done hstate ht
  obtain ⟨nz, ph, d, rv, -, -, hframe⟩ := hdone.frame
  have hmode : t.act.mode = s.act.mode := by rw [hframe]; exact renderStart_mode s
  have htotal : t.total = s.total := by rw [hframe]
  have hjny : t.status.jnyOn = s.status.jnyOn := by
    rcases hdone.status with ⟨-, hst⟩ | ⟨-, hst⟩ <;> rw [hst]
  have hkeyframes : t.act.kfT = s.act.kfT := by
    rw [hframe]
    change (renderStart s).act.kfT = _
    rw [renderStart_act]
    split <;> rfl
  refine ⟨fun _ hbatch => ?_, fun _ hbatch => ?_, fun hcomplete => ?_, fun _ hon hne => ?_⟩
  · rw [htotal]
    exact h.size hsession (hmode.symm.trans hbatch)
  · rw [hmode] at hbatch
    obtain ⟨d, -, hprog⟩ := render_progress hbatch (h.position hstate hbatch) ht
    exact hprog.within
  · rcases hdone.status with ⟨-, hst⟩ | ⟨-, hst⟩
    · rw [hst] at hcomplete
      cases hcomplete
    · rw [hst] at hcomplete
      split at hcomplete
      · rename_i hend
        exact ⟨hmode.trans hend.1, hend.2⟩
      · cases hcomplete
  · rw [hkeyframes]
    exact h.journey hsession (hjny.symm.trans hon) (htotal ▸ hne)

theorem BatchInv.of_hostStep {s t : State} (h : BatchInv s) (ht : HostStep s t) : BatchInv t := by
  cases ht with
  | pending c d p => exact h.congr rfl rfl rfl rfl
  | failed e d => exact .of_not_inSession rfl
  | prepared d hcheck => exact (BatchInv.of_prepareSession hcheck).congr rfl rfl rfl rfl
  | rendered hstate ht => exact h.of_render hstate ht
  | released => exact .of_not_inSession rfl

/-- Settles O58, along `step_cases`. -/
theorem hostStepsKeepTheBatch : Obligations.HostStepsKeepTheBatch := by
  intro s t h hs ht
  have hpop : BatchInv (popPort s) := h.congr rfl rfl rfl rfl
  rcases step_cases ht with rfl | rfl | rfl | ⟨i, hhost, hi⟩ | ⟨hslot, -⟩
  · exact h
  · exact .of_not_inSession rfl
  · exact hpop.congr rfl rfl rfl rfl
  · exact hpop.of_hostStep (hostStep_of_exec hhost hi)
  · exact absurd hs hslot

/-- Settles O56: reset is the reset input on itself, and no session. -/
theorem resetMeetsTheInvariants : Obligations.ResetMeetsTheInvariants :=
  ⟨resetInput_reset ▸ Inv.of_resetInput State.reset, .of_not_inSession rfl⟩

/-! ### Responses -/

/-- With its lines where there is reverb, every host command responds in every state. -/
theorem host_responds {i : Instr} {s : State} (hhost : i.isHost = true)
    (hready : s.status.capReverb = true → s.reverbReady) :
    ∃ c d u, exec i s = .next (respond c d u) := by
  have executed (h : Executes i s) : ∃ c d u, exec i s = .next (respond c d u) := by
    obtain ⟨c, d, u, h, -⟩ := h
    exact ⟨c, d, u, h⟩
  by_cases hr : ∃ n, i = .render n
  · obtain ⟨n, rfl⟩ := hr
    by_cases hstate : s.status.state = .rendering
    · exact executed (render_executes_of_ready hstate hready n)
    · exact ⟨_, _, _, exec_render_refused hstate n⟩
  · by_cases hp : i = .prepare ∧ s.status.state ≠ .idle
    · obtain ⟨rfl, hidle⟩ := hp
      exact ⟨_, _, _, exec_prepare_refused hidle⟩
    · refine executed (executes_of_not_render hhost (fun hi => ?_) (not_exists.mp hr))
      by_contra hidle
      exact hp ⟨hi, hidle⟩

/-- Settles O59, by `host_responds`; a word that is no command is refused. -/
theorem everyCommandGetsAResponse : Obligations.EveryCommandGetsAResponse := by
  intro s w d rest h hs hp
  cases hd : decodeHost w d with
  | error r => exact ⟨_, ⟨.errIllegal, 0⟩, by rw [step, fetch_illegal hs hp hd], rfl⟩
  | ok i =>
    obtain ⟨c, v, u, he⟩ := host_responds (isHost_of_hostRow (decodeHost_eq_ok_iff.mp hd))
      (s := popPort s) h.reverb
    exact ⟨_, ⟨c, v⟩, by rw [step, fetch_command hs hp hd]; exact he, rfl⟩

end Sys2Proof.Machine
end

section
/-! SAMPLE as its schedule of unit operations (46_engine_commands.md R217): what each step computes
and leaves, and the whole results put together from them. -/

namespace Sys2Proof.Machine

/-! ### Step 1, the frequencies -/

theorem exec_jnyEval (s : State) : exec .jnyEval s =
    .next (result2 (jnyEval s.act s.opA).1 (jnyEval s.act s.opA).2 s) := rfl

/-- The frequencies of step 1, named by the registers or by JNY.EVAL run alone. -/
theorem sampleFreq_eq {s : State} {fp fc : F64}
    (hregs : s.status.jnyOn = false → fp = s.act.pulse[0] ∧ fc = s.act.carrier[0])
    (hjny : s.status.jnyOn = true → ∃ u,
      exec .jnyEval { s with opA := fdiv (u64ToF64 s.pos) s.act.fs } = .next u ∧
      fp = u.resA ∧ fc = u.resB) :
    sampleFreq s = (fp, fc) := by
  unfold sampleFreq
  cases hon : s.status.jnyOn with
  | true =>
    obtain ⟨u, hu, rfl, rfl⟩ := hjny hon
    rw [exec_jnyEval] at hu
    cases hu
    simp only [if_true, sampleTime, result2_resA, result2_resB]
  | false =>
    obtain ⟨rfl, rfl⟩ := hregs hon
    rfl

/-! ### Step 2, the tones and the accumulators -/

/-- The accumulators of AmplitudeModulated operation after a sample. -/
def amPhases (fp fc : F64) (s : State) : Vector F64 5 :=
  (s.ph.set 0 (wrapAdvance s.ph[0] (paInc fc s.act.fs))).set 1
    (wrapAdvance s.ph[1] (paInc fp s.act.fs))

/-- The accumulators of BinauralOffset operation after a sample. -/
def binauralPhases (fp fc : F64) (s : State) : Vector F64 5 :=
  (s.ph.set 2 (wrapAdvance s.ph[2] (paInc (fsub fc (fdiv fp fTwo)) s.act.fs))).set 3
    (wrapAdvance s.ph[3] (paInc (fadd fc (fdiv fp fTwo)) s.act.fs))

/-- Two accumulators advanced, the second as it was before the first advanced. -/
theorem paAdv_paAdv {i k : Fin 5} (h : i ≠ k) (x y : F64) (s : State) :
    paAdv k y (paAdv i x s) = { s with
      ph := (s.ph.set i.val (wrapAdvance s.ph[i] x) i.isLt).set k.val
        (wrapAdvance s.ph[k] y) k.isLt } := by
  have hother : (s.ph.set i.val (wrapAdvance s.ph[i] x) i.isLt)[k] = s.ph[k] :=
    Vector.getElem_set_ne i.isLt k.isLt fun e => h (Fin.ext e)
  rw [paAdv_frame i, paAdv_frame k]
  simp only [hother]

theorem sampleAdvance_am {s : State} {fp fc : F64} (hent : s.act.ent = 0)
    (hfreq : sampleFreq s = (fp, fc)) : sampleAdvance s = { s with ph := amPhases fp fc s } := by
  rw [sampleAdvance, if_pos hent, hfreq, advanceAm]
  exact paAdv_paAdv (i := 0) (k := 1) (by decide) _ _ s

theorem sampleAdvance_binaural {s : State} {fp fc : F64} (hent : s.act.ent ≠ 0)
    (hfreq : sampleFreq s = (fp, fc)) :
    sampleAdvance s = { s with ph := binauralPhases fp fc s } := by
  rw [sampleAdvance, if_neg hent, hfreq, advanceBinaural]
  exact paAdv_paAdv (i := 2) (k := 3) (by decide) _ _ s

theorem sampleTone_am {s : State} (hent : s.act.ent = 0) : sampleTone s = toneAm s := if_pos hent

theorem sampleTone_binaural {s : State} (hent : s.act.ent ≠ 0) : sampleTone s = toneBinaural s :=
  if_neg hent

/-! ### Step 3, the noise and the gain -/

theorem noiseOn_sampleAdvance (s : State) : noiseOn (sampleAdvance s) = noiseOn s := by
  obtain ⟨ph, h⟩ := sampleAdvance_frame s
  rw [h]
  rfl

/-- With noise off step 3 runs no unit. -/
theorem afterDry_silent {s : State} (h : noiseOn s = false) : afterDry s = sampleAdvance s := by
  rw [afterDry, sampleNoise, noiseOn_sampleAdvance, h]
  rfl

/-- With noise on step 3 is NZ.PROC. -/
theorem sampleNoise_of_on {s : State} (h : noiseOn s = true) :
    sampleNoise (sampleAdvance s) = nzProc (sampleAdvance s) := by
  rw [sampleNoise, noiseOn_sampleAdvance, h]
  rfl

/-- The mixer reads STATUS and the active registers, which steps 2 and 3 keep. -/
theorem dryOf_eq (s : State) :
    dryOf s = sampleDry (sampleTone s) (sampleNoise (sampleAdvance s)).1 s := by
  obtain ⟨nz, ph, d, h, -⟩ := afterDry_frame s
  rw [dryOf, ← afterDry, h]
  rfl

theorem dryOf_silent {s : State} (h : noiseOn s = false) :
    dryOf s =
      ⟨fmul s.act.gainLin (sampleTone s).left, fmul s.act.gainLin (sampleTone s).right⟩ := by
  rw [dryOf_eq, sampleDry, mixDry_silent h, mixDry_silent h]

theorem dryOf_noise {s : State} (h : noiseOn s = true) :
    dryOf s =
      ⟨fmul s.act.gainLin (fadd (sampleTone s).left
          (fmul s.act.nlevel (sampleNoise (sampleAdvance s)).1)),
        fmul s.act.gainLin (fadd (sampleTone s).right
          (fmul s.act.nlevel (sampleNoise (sampleAdvance s)).1))⟩ := by
  rw [dryOf_eq, sampleDry, mixDry_noise h, mixDry_noise h]

/-- NZ.PROC advances the LFO accumulator by the LFO rate. -/
theorem nzProc_ph (s : State) : (nzProc s).2.ph =
    s.ph.set 4 (wrapAdvance s.ph[4] (paInc s.nz.lfoRate s.act.fs)) := by
  obtain ⟨nz, d, hframe, -, hrate, -⟩ := nzGenerate_frame s
  rw [nzProc, hframe, nzLpf, nzLfo, paAdv_frame, hrate]
  rfl

/-! ### Step 4, the reverb -/

theorem rvProc_of_netProc {c : Fin 2} {x v : F64} {s : State} {n : Network}
    (h : netProc x s.rv[c] = .ok (v, n)) : rvProc c x s = .ok (v, s.setNet c n) := by
  rw [rvProc, h]

theorem setNet_both (s : State) (n0 n1 : Network) :
    (s.setNet 0 n0).setNet 1 n1 = { s with rv := #v[n0, n1] } := by
  have hrv : (s.rv.set 0 n0).set 1 n1 = #v[n0, n1] := by
    ext i hi
    interval_cases i <;> simp
  exact congrArg (fun rv => { s with rv := rv }) hrv

/-- Each channel through its own network. -/
theorem sampleWet_of_netProc {s : State} {dry : Pair} {wl wr : F64} {n0 n1 : Network}
    (hcap : s.status.capReverb = true)
    (h0 : netProc dry.left s.rv[(0 : Fin 2)] = .ok (wl, n0))
    (h1 : netProc dry.right s.rv[(1 : Fin 2)] = .ok (wr, n1)) :
    sampleWet dry s = .ok (⟨wl, wr⟩, { s with rv := #v[n0, n1] }) := by
  have hright : rvProc 1 dry.right (s.setNet 0 n0) = .ok (wr, { s with rv := #v[n0, n1] }) := by
    rw [← setNet_both]
    refine rvProc_of_netProc ?_
    rw [setNet_rv_ne s n0 (by decide)]
    exact h1
  rw [sampleWet, if_pos hcap, rvProc_of_netProc h0]
  simp only [hright]

theorem sampleWet_none {s : State} (hcap : s.status.capReverb = false) (dry : Pair) :
    sampleWet dry s = .ok (⟨fZero, fZero⟩, s) := by
  rw [sampleWet, hcap]
  rfl

/-- All that step 4 can answer where there is reverb. -/
theorem sampleWet_cases {s d : State} {dry wet : Pair} (hcap : s.status.capReverb = true)
    (h : sampleWet dry s = .ok (wet, d)) : ∃ n0 n1,
      netProc dry.left s.rv[(0 : Fin 2)] = .ok (wet.left, n0) ∧
      netProc dry.right s.rv[(1 : Fin 2)] = .ok (wet.right, n1) ∧
      d = { s with rv := #v[n0, n1] } := by
  cases h0 : netProc dry.left s.rv[(0 : Fin 2)] with
  | error f =>
    have hleft : rvProc 0 dry.left s = .error f := by rw [rvProc, h0]
    rw [sampleWet, if_pos hcap, hleft] at h
    cases h
  | ok p =>
    obtain ⟨wl, n0⟩ := p
    cases h1 : netProc dry.right s.rv[(1 : Fin 2)] with
    | error f =>
      have hright : rvProc 1 dry.right (s.setNet 0 n0) = .error f := by
        rw [rvProc, setNet_rv_ne s n0 (by decide), h1]
      rw [sampleWet, if_pos hcap, rvProc_of_netProc h0] at h
      simp only [hright] at h
      cases h
    | ok p =>
      obtain ⟨wr, n1⟩ := p
      rw [sampleWet_of_netProc hcap h0 h1] at h
      cases h
      exact ⟨n0, n1, rfl, rfl, rfl⟩

/-! ### Steps 5 to 7, the end -/

/-- What steps 2 to 4 write: the units, nothing else. -/
theorem sampleWet_units {s d : State} {wet : Pair}
    (h : sampleWet (dryOf s) (afterDry s) = .ok (wet, d)) : ∃ nz ph n rv,
      d = { s with nz := nz, ph := ph, draws := n, rv := rv } := by
  obtain ⟨nz, ph, n, hdry, -⟩ := afterDry_frame s
  obtain ⟨rv, hd, -⟩ := sampleWet_frame h
  exact ⟨nz, ph, n, rv, by rw [hd, hdry]⟩

/-- SAMPLE ends with its pair: emitted and counted where it is finite, raised where not. -/
theorem sampleRun_of_wet {last : Bool} {s d : State} {wet y : Pair}
    (h : sampleWet (dryOf s) (afterDry s) = .ok (wet, d))
    (hy : sampleShape (dryOf s) wet d = y) :
    sampleRun last s =
      if fisFinite y.left = true ∧ fisFinite y.right = true then
        .ok (.emitted, { d with out := s.out ++ [⟨y.left, y.right, last⟩], pos := s.pos + 1 })
      else .ok (.raised, raiseError .nonfiniteOutput d) := by
  obtain ⟨nz, ph, n, rv, hd⟩ := sampleWet_units h
  have hout : d.out = s.out := by rw [hd]
  have hpos : d.pos = s.pos := by rw [hd]
  rw [sampleRun, h]
  simp only [hy, sampleFinish, emit, hout, hpos, Bool.and_eq_true]
  split <;> rfl

theorem exec_sample_of_wet {s d : State} {wet y : Pair}
    (h : sampleWet (dryOf s) (afterDry s) = .ok (wet, d))
    (hy : sampleShape (dryOf s) wet d = y) :
    exec .sample s =
      if fisFinite y.left = true ∧ fisFinite y.right = true then
        .next { d with out := s.out ++ [⟨y.left, y.right, s.opLast⟩], pos := s.pos + 1 }
      else .next (raiseError .nonfiniteOutput d) := by
  have hrun := sampleRun_of_wet (last := s.opLast) h hy
  split_ifs at hrun ⊢ with hfinite
  · exact exec_sample_of_run hrun
  · exact exec_sample_of_run hrun

/-- A SAMPLE that completes has gone through step 4. -/
theorem exec_sample_cases {s t : State} (ht : exec .sample s = .next t) : ∃ wet d,
    sampleWet (dryOf s) (afterDry s) = .ok (wet, d) := by
  rw [exec, execSample, sampleRun] at ht
  cases h : sampleWet (dryOf s) (afterDry s) with
  | error f =>
    rw [h] at ht
    cases ht
  | ok r => exact ⟨r.1, r.2, rfl⟩

/-! ### The unit operations that the schedule calls -/

theorem unitCall_envelope (raw : F64) (s : State) :
    unitCall (if s.status.envSel then .envRt else .envBatch) raw s.act.soft s =
      some (envelope raw s, s) := by
  unfold envelope
  split <;> rfl

theorem unitCall_nzProc (s : State) :
    unitCall .nzProc s.opA s.opB s = some ((nzProc s).1, (nzProc s).2) := by
  obtain ⟨nz, ph, d, hframe, -⟩ := nzProc_frame s
  have hself : ({ s with opA := s.opA, opB := s.opB } : State) = s := rfl
  rw [unitCall, hself, exec, execNzProc, hframe]
  rfl

theorem unitCall_rvProc {c : BitVec 1} {d : Fin 2} (hc : c.toNat = d.val) {x y v : F64} {s : State}
    {n : Network} (h : netProc x s.rv[d] = .ok (v, n)) :
    unitCall (.rvProc c) x y s = some (v, s.setNet d n) := by
  rw [unitCall, exec_rvProc hc]
  simp only [h]
  rfl

theorem unitCall_shape (x y : F64) (s : State) :
    unitCall (if s.status.satSel then .satKnee else .satTanh) x y s = some (shape x s, s) := by
  unfold shape
  split <;> rfl

/-- Step 4 as the two calls of RV.PROC. -/
theorem sampleWet_calls {s : State} {dry : Pair} (y : F64)
    (hready : s.status.capReverb = true → s.reverbReady) :
    ∃ wl wr c d, sampleWet dry s = .ok (⟨wl, wr⟩, d) ∧
      (s.status.capReverb = true → unitCall (.rvProc 0) dry.left y s = some (wl, c) ∧
        unitCall (.rvProc 1) dry.right y c = some (wr, d)) ∧
      (s.status.capReverb = false → d = s) := by
  cases hcap : s.status.capReverb with
  | false => exact ⟨fZero, fZero, s, s, sampleWet_none hcap dry, nofun, fun _ => rfl⟩
  | true =>
    have hlines := hready hcap
    obtain ⟨wl, n0, h0⟩ := netProc_ready (hlines 0) dry.left
    obtain ⟨wr, n1, h1⟩ := netProc_ready (hlines 1) dry.right
    have h1' : netProc dry.right (s.setNet 0 n0).rv[(1 : Fin 2)] = .ok (wr, n1) := by
      rw [setNet_rv_ne s n0 (by decide), h1]
    refine ⟨wl, wr, s.setNet 0 n0, (s.setNet 0 n0).setNet 1 n1, ?_, fun _ =>
      ⟨unitCall_rvProc (c := 0) rfl h0, unitCall_rvProc (c := 1) rfl h1'⟩, nofun⟩
    rw [setNet_both]
    exact sampleWet_of_netProc hcap h0 h1

/-! ### The whole results -/

/-- Settles O60: each call is what its step computes, and the schedule ends by `exec_sample_of_wet`.
-/
theorem sampleFollowsItsSchedule : Obligations.SampleFollowsItsSchedule := by
  intro s fp fc hready hregs hjny
  have hfreq := sampleFreq_eq hregs hjny
  obtain ⟨pa, ha⟩ := sampleAdvance_frame s
  obtain ⟨nz, ph, n, hb, -⟩ := afterDry_frame s
  have hbready : (afterDry s).status.capReverb = true → (afterDry s).reverbReady := by
    rw [hb]
    exact hready
  obtain ⟨wl, wr, c, d, hwet, hon, hoff⟩ := sampleWet_calls (dry := dryOf s) s.opB hbready
  obtain ⟨_, _, _, _, hd⟩ := sampleWet_units hwet
  have hbcap : (afterDry s).status.capReverb = s.status.capReverb := by rw [hb]
  have hdstatus : d.status = s.status := by rw [hd]
  rw [hbcap] at hon hoff
  refine ⟨(sampleTone s).left, (sampleTone s).right, (sampleNoise (sampleAdvance s)).1,
    (dryOf s).left, (dryOf s).right, wl, wr,
    mixWet (dryOf s).left wl d, mixWet (dryOf s).right wr d,
    shape (mixWet (dryOf s).left wl d) d, shape (mixWet (dryOf s).right wr d) d,
    sampleAdvance s, afterDry s, c, d, ?am, ?binaural, ?noise, ?silent, ?reverb, ?dry,
    ?left, ?right, exec_sample_of_wet hwet rfl⟩
  case am =>
    intro hent
    rw [sampleTone_am hent]
    exact ⟨_, unitCall_envelope _ s, rfl, rfl, sampleAdvance_am hent hfreq⟩
  case binaural =>
    intro hent
    rw [sampleTone_binaural hent]
    exact ⟨rfl, rfl, sampleAdvance_binaural hent hfreq⟩
  case noise =>
    intro hnoise
    have honoise := noiseOn_iff.mpr hnoise
    have hcall := unitCall_nzProc (sampleAdvance s)
    rw [← sampleNoise_of_on honoise] at hcall
    have hbuses : (sampleAdvance s).opA = s.opA ∧ (sampleAdvance s).opB = s.opB := by
      rw [ha]
      exact ⟨rfl, rfl⟩
    rw [hbuses.1, hbuses.2] at hcall
    rw [dryOf_noise honoise]
    exact ⟨hcall, rfl, rfl⟩
  case silent =>
    intro hsilent
    have hofnoise := noiseOn_eq_false_iff.mpr hsilent
    rw [dryOf_silent hofnoise]
    exact ⟨afterDry_silent hofnoise, rfl, rfl⟩
  case reverb =>
    intro hcap
    have hdcap : d.status.capReverb = true := hdstatus ▸ hcap
    exact ⟨(hon hcap).1, (hon hcap).2, mixWet_reverb hdcap _ _, mixWet_reverb hdcap _ _⟩
  case dry =>
    intro hcap
    have hdcap : d.status.capReverb = false := hdstatus ▸ hcap
    exact ⟨hoff hcap, mixWet_dry hdcap _ _, mixWet_dry hdcap _ _⟩
  case left =>
    rw [← hdstatus]
    exact unitCall_shape _ _ d
  case right =>
    rw [← hdstatus]
    exact unitCall_shape _ _ d

end Sys2Proof.Machine
end

section
/-! SAMPLE in particular sessions (46_engine_commands.md section 4): its accumulators, the streaming
sample and the binaural batch sample. -/

namespace Sys2Proof.Machine

/-! ### The accumulators -/

/-- The units after a SAMPLE are those after steps 1 to 3: the reverb and the end leave them. -/
theorem exec_sample_units {s t : State} (ht : exec .sample s = .next t) :
    t.ph = (afterDry s).ph ∧ t.nz = (afterDry s).nz ∧ t.draws = (afterDry s).draws := by
  obtain ⟨wet, d, hwet⟩ := exec_sample_cases ht
  obtain ⟨rv, hd, -⟩ := sampleWet_frame hwet
  rw [exec_sample_of_wet hwet rfl] at ht
  split at ht
  all_goals
    cases ht
    rw [hd]
    exact ⟨rfl, rfl, rfl⟩

theorem afterDry_noise {s : State} (h : noiseOn s = true) :
    afterDry s = (nzProc (sampleAdvance s)).2 := by
  rw [afterDry, sampleNoise_of_on h]

/-- The noise moves the LFO accumulator only. -/
theorem afterDry_ph (s : State) (k : Fin 5) (hk : k ≠ 4) :
    (afterDry s).ph[k] = (sampleAdvance s).ph[k] := by
  obtain ⟨nz, ph, d, h, hph, -⟩ := sampleNoise_frame (sampleAdvance s)
  rw [afterDry, h]
  exact hph k hk

/-- The tones leave the LFO accumulator. -/
theorem sampleAdvance_ph_lfo (s : State) : (sampleAdvance s).ph[4] = s.ph[4] := by
  by_cases hent : s.act.ent = 0
  · rw [sampleAdvance_am hent rfl]
    simp [amPhases]
  · rw [sampleAdvance_binaural hent rfl]
    simp [binauralPhases]

/-- Settles O53: the tones by `sampleAdvance_am` and `sampleAdvance_binaural`, the LFO by
`nzProc_ph`. -/
theorem sampleAdvancesItsPhases : Obligations.SampleAdvancesItsPhases := by
  intro s t fp fc ht hregs hjny
  have hfreq := sampleFreq_eq hregs hjny
  obtain ⟨hph, hnz, hdraws⟩ := exec_sample_units ht
  have htone (k : Fin 5) (hk : k ≠ 4) : t.ph[k] = (sampleAdvance s).ph[k] := by
    rw [hph]
    exact afterDry_ph s k hk
  have h0 : t.ph[0] = (sampleAdvance s).ph[0] := htone 0 (by decide)
  have h1 : t.ph[1] = (sampleAdvance s).ph[1] := htone 1 (by decide)
  have h2 : t.ph[2] = (sampleAdvance s).ph[2] := htone 2 (by decide)
  have h3 : t.ph[3] = (sampleAdvance s).ph[3] := htone 3 (by decide)
  refine ⟨fun hent => ?_, fun hent => ?_, fun hoff => ?_, fun hcap hntype => ?_⟩
  · rw [h0, h1, h2, h3, sampleAdvance_am hent hfreq]
    simp [amPhases, paInc]
  · rw [h0, h1, h2, h3, sampleAdvance_binaural hent hfreq]
    simp [binauralPhases, paInc]
  · have hsilent := noiseOn_eq_false_iff.mpr hoff
    have hlfo := sampleAdvance_ph_lfo s
    obtain ⟨ph, hframe⟩ := sampleAdvance_frame s
    rw [hph, hnz, hdraws, afterDry_silent hsilent]
    refine ⟨hlfo, ?_, ?_⟩ <;> rw [hframe]
  · have hlfo := sampleAdvance_ph_lfo s
    obtain ⟨ph, hframe⟩ := sampleAdvance_frame s
    have hnzkept : (sampleAdvance s).nz = s.nz := by rw [hframe]
    have hactkept : (sampleAdvance s).act = s.act := by rw [hframe]
    rw [hph, afterDry_noise (noiseOn_iff.mpr ⟨hcap, hntype⟩), nzProc_ph]
    simp [hlfo, hnzkept, hactkept, paInc]

/-! ### Two kinds of session -/

theorem oscSin_zero (s : State) : oscSin 0 s = SIN s.ph[0] := rfl
theorem oscSin_one (s : State) : oscSin 1 s = SIN s.ph[1] := rfl
theorem oscSin_two (s : State) : oscSin 2 s = SIN s.ph[2] := rfl
theorem oscSin_three (s : State) : oscSin 3 s = SIN s.ph[3] := rfl

theorem shape_knee {s : State} (h : s.status.satSel = true) (x : F64) : shape x s = satKnee x := by
  rw [shape, if_pos h]

theorem shape_tanh {s : State} (h : s.status.satSel = false) (x : F64) : shape x s = TANH x := by
  rw [shape, h, if_neg (by decide), satTanh]

theorem sampleShape_dry {s : State} (h : s.status.capReverb = false) (dry wet : Pair) :
    sampleShape dry wet s = ⟨shape dry.left s, shape dry.right s⟩ := by
  rw [sampleShape, mixWet_dry h, mixWet_dry h]

theorem sampleShape_wet {s : State} (h : s.status.capReverb = true) (dry wet : Pair) :
    sampleShape dry wet s = ⟨shape (fadd dry.left (fmul kWet wet.left)) s,
      shape (fadd dry.right (fmul kWet wet.right)) s⟩ := by
  rw [sampleShape, mixWet_reverb h, mixWet_reverb h]

/-- Settles O51: the dry pair is the pair, and the knee shapes it. -/
theorem streamSample : Obligations.StreamSample := by
  intro s env x y hjny hnoise hcap henv hsat hent henvdef hx hknee
  obtain rfl : satKnee x = y := by
    rw [exec_satKnee] at hknee
    exact congrArg State.resA (Host.Outcome.next.inj hknee)
  have hfreq : sampleFreq s = (s.act.pulse[0], s.act.carrier[0]) := by
    rw [sampleFreq, hjny]
    rfl
  have hofnoise : noiseOn s = false := noiseOn_eq_false_iff.mpr (.inl hnoise)
  have hafter : afterDry s = { s with ph := amPhases (s.act.pulse[0]) (s.act.carrier[0]) s } := by
    rw [afterDry_silent hofnoise, sampleAdvance_am hent hfreq]
  have henvelope : envelope (oscSin 1 s) s = env := by
    rw [envelope, if_pos henv, envRt, oscSin_one, henvdef]
  have hdry : dryOf s = ⟨x, x⟩ := by
    rw [dryOf_silent hofnoise, sampleTone_am hent, toneAm, henvelope, oscSin_zero, hx]
  have hcap' : (afterDry s).status.capReverb = false := by rw [hafter, hcap]
  have hsat' : (afterDry s).status.satSel = true := by rw [hafter, hsat]
  have hwet := sampleWet_none hcap' (dryOf s)
  have hshape : sampleShape (dryOf s) ⟨fZero, fZero⟩ (afterDry s) = ⟨satKnee x, satKnee x⟩ := by
    rw [hdry, sampleShape_dry hcap', shape_knee hsat']
  refine ⟨amPhases (s.act.pulse[0]) (s.act.carrier[0]) s, ?_, ?_, ?_, ?_, ?_, ?_⟩
  · rw [exec_paAdv (k := 0) (i := 0) rfl, paAdv_frame]
    simp [amPhases, paInc]
  · rw [exec_paAdv (k := 1) (i := 1) rfl, paAdv_frame]
    simp [amPhases, paInc]
  · simp [amPhases]
  · simp [amPhases]
  · simp [amPhases]
  · have hexec := exec_sample_of_wet hwet hshape
    rw [hafter] at hexec
    rw [hexec]
    by_cases hfinite : fisFinite (satKnee x) = true
    · rw [if_pos ⟨hfinite, hfinite⟩, if_pos hfinite]
    · rw [if_neg fun h => hfinite h.1, if_neg hfinite]
      rfl

/-- Settles O52: step 4 by `sampleWet_of_netProc`, and the tanh saturator. -/
theorem binauralBatchSample : Obligations.BinauralBatchSample := by
  intro s h dl dr wl wr n0 n1 hjny hntype hcap hsat hent hh hdl hdr h0 h1
  have hfreq : sampleFreq s = (s.act.pulse[0], s.act.carrier[0]) := by
    rw [sampleFreq, hjny]
    rfl
  have hofnoise : noiseOn s = false := noiseOn_eq_false_iff.mpr (.inr hntype)
  have hafter : afterDry s =
      { s with ph := binauralPhases (s.act.pulse[0]) (s.act.carrier[0]) s } := by
    rw [afterDry_silent hofnoise, sampleAdvance_binaural hent hfreq]
  have hdry : dryOf s = ⟨dl, dr⟩ := by
    rw [dryOf_silent hofnoise, sampleTone_binaural hent, toneBinaural, oscSin_two,
      oscSin_three, hdl, hdr]
  obtain ⟨d, hd⟩ : ∃ d : State, d = { s with
      ph := binauralPhases (s.act.pulse[0]) (s.act.carrier[0]) s, rv := #v[n0, n1] } := ⟨_, rfl⟩
  have hwet : sampleWet (dryOf s) (afterDry s) = .ok (⟨wl, wr⟩, d) := by
    rw [hdry, hafter, hd]
    exact sampleWet_of_netProc hcap h0 h1
  have hdcap : d.status.capReverb = true := by rw [hd, hcap]
  have hdsat : d.status.satSel = false := by rw [hd, hsat]
  have hshape : sampleShape (dryOf s) ⟨wl, wr⟩ d =
      ⟨TANH (fadd dl (fmul kWet wl)), TANH (fadd dr (fmul kWet wr))⟩ := by
    rw [hdry, sampleShape_wet hdcap, shape_tanh hdsat, shape_tanh hdsat]
  have hexec := exec_sample_of_wet hwet hshape
  rw [hd] at hexec
  refine ⟨binauralPhases (s.act.pulse[0]) (s.act.carrier[0]) s, _, _, rfl, rfl, ?_, ?_, ?_, ?_, ?_,
    hexec⟩
  · simp [binauralPhases]
  · simp [binauralPhases]
  · simp [binauralPhases]
  · simp [binauralPhases, paInc, hh]
  · simp [binauralPhases, paInc, hh]

end Sys2Proof.Machine
end

section
/-! What a SAMPLE leaves of the delay lines, and its silent and its mono case (46_engine_commands.md
section 4, corner cases). -/

namespace Sys2Proof.Machine

/-! ### RV.PROC, line by line -/

/-- The lines below `m` had one access each: their cursors advanced by one, and only the word at a
cursor may have changed; the lines from `m` on are as they were. -/
structure LinesAccessed (m : Nat) (n n' : Network) : Prop where
  len : n'.len = n.len
  cursor : ∀ j : Fin 5, j.val < m → n'.idx[j] = nextCursor n.idx[j] n.len[j]
  words : ∀ (j : Fin 5) (o : Nat), o ≠ (n.idx[j]).toNat →
    lineRead n'.line[j] o = lineRead n.line[j] o
  rest : ∀ j : Fin 5, m ≤ j.val → n'.idx[j] = n.idx[j] ∧ n'.line[j] = n.line[j]

theorem LinesAccessed.refl (n : Network) : LinesAccessed 0 n n :=
  ⟨rfl, nofun, fun _ _ _ => rfl, fun _ _ => ⟨rfl, rfl⟩⟩

/-- The next line's access; it reads what the line held at first. -/
theorem LinesAccessed.step {n n' n'' : Network} {j : Fin 5} {w : F64 → F64} {r : F64}
    (h : LinesAccessed j.val n n') (ha : n'.access j w = .ok (r, n'')) :
    LinesAccessed (j.val + 1) n n'' ∧ r = lineRead n.line[j] (n.idx[j]).toNat := by
  obtain ⟨hidx, hline⟩ := h.rest j le_rfl
  by_cases hcur : (n'.idx[j]).toNat < (n'.len[j]).toNat
  case neg =>
    rw [access_error hcur] at ha
    cases ha
  rw [access_spec hcur] at ha
  cases ha
  rw [hidx, hline, h.len]
  refine ⟨⟨rfl, fun k hk => ?_, fun k o ho => ?_, fun k hk => ?_⟩, rfl⟩
  · by_cases hkj : j.val = k.val
    · obtain rfl := Fin.ext hkj
      exact Vector.getElem_set_self _
    · exact (Vector.getElem_set_ne j.isLt k.isLt hkj).trans (h.cursor k (by omega))
  · by_cases hkj : j.val = k.val
    · obtain rfl := Fin.ext hkj
      have hset := Vector.getElem_set_self (xs := n'.line) (x := lineWrite n.line[j]
        (n.idx[j]).toNat (w (lineRead n.line[j] (n.idx[j]).toNat))) j.isLt
      exact (congrArg (lineRead · o) hset).trans (lineRead_write_off _ ho)
    · have hset := Vector.getElem_set_ne (xs := n'.line) (x := lineWrite n.line[j]
        (n.idx[j]).toNat (w (lineRead n.line[j] (n.idx[j]).toNat))) j.isLt k.isLt hkj
      exact (congrArg (lineRead · o) hset).trans (h.words k o ho)
  · obtain ⟨hidx', hline'⟩ := h.rest k (by omega)
    exact ⟨(Vector.getElem_set_ne j.isLt k.isLt (by omega)).trans hidx',
      (Vector.getElem_set_ne j.isLt k.isLt (by omega)).trans hline'⟩

/-- RV.PROC accesses each line once; each filter reads the word that stood at its line's cursor. -/
theorem netProc_lines {n n' : Network} {x v : F64} (h : netProc x n = .ok (v, n')) :
    LinesAccessed 5 n n' ∧ ∃ r : Fin 5 → F64,
      (∀ j, r j = lineRead n.line[j] (n.idx[j]).toNat) ∧
      v = apOut (fmul (fadd (fadd (fadd (r 0) (r 1)) (r 2)) (r 3)) kCombSum) (r 4) := by
  obtain ⟨r0, r1, r2, r3, n0, n1, n2, n3, h0, h1, h2, h3, h4⟩ := netProc_cases h
  obtain ⟨r4, h4, hv⟩ := netAp_eq_ok_iff.mp h4
  obtain ⟨hl0, hr0⟩ := (LinesAccessed.refl n).step (j := 0) h0
  obtain ⟨hl1, hr1⟩ := hl0.step (j := 1) h1
  obtain ⟨hl2, hr2⟩ := hl1.step (j := 2) h2
  obtain ⟨hl3, hr3⟩ := hl2.step (j := 3) h3
  obtain ⟨hl4, hr4⟩ := hl3.step (j := 4) h4
  refine ⟨hl4, fun j => lineRead n.line[j] (n.idx[j]).toNat, fun _ => rfl, ?_⟩
  subst hr0 hr1 hr2 hr3 hr4
  exact hv

/-- The cursor of a ready line after RV.PROC. -/
theorem netProc_cursor {n n' : Network} {x v : F64} (h : netProc x n = .ok (v, n'))
    (hready : n.ready) (j : Fin 5) :
    (n'.idx[j]).toNat = ((n.idx[j]).toNat + 1) % (n.len[j]).toNat := by
  rw [(netProc_lines h).1.cursor j j.isLt]
  exact nextCursor_toNat (Nat.lt_of_le_of_lt (Nat.zero_le _) (hready j))

/-- Every delay word but those at the cursors is as it was. -/
def WordsKept (rv rv' : Vector Network 2) : Prop :=
  ∀ (c : Fin 2) (j : Fin 5) (o : Nat), o ≠ (rv[c].idx[j]).toNat →
    lineRead rv'[c].line[j] o = lineRead rv[c].line[j] o

/-- What step 4 does to the networks. -/
theorem sampleWet_rv {s d : State} {dry wet : Pair}
    (hready : s.status.capReverb = true → s.reverbReady)
    (h : sampleWet dry s = .ok (wet, d)) : WordsKept s.rv d.rv ∧
      (s.status.capReverb = true → ∀ (c : Fin 2) (j : Fin 5),
        (d.rv[c].idx[j]).toNat = ((s.rv[c].idx[j]).toNat + 1) % (s.rv[c].len[j]).toNat) ∧
      (s.status.capReverb = false → d.rv = s.rv) := by
  cases hcap : s.status.capReverb with
  | false =>
    rw [sampleWet_none hcap] at h
    cases h
    exact ⟨fun _ _ _ _ => rfl, nofun, fun _ => rfl⟩
  | true =>
    obtain ⟨n0, n1, h0, h1, rfl⟩ := sampleWet_cases hcap h
    refine ⟨fun c => ?_, fun _ c => ?_, nofun⟩
    · match c with
      | 0 => exact (netProc_lines h0).1.words
      | 1 => exact (netProc_lines h1).1.words
    · match c with
      | 0 => exact netProc_cursor h0 (hready hcap 0)
      | 1 => exact netProc_cursor h1 (hready hcap 1)

/-- Settles O50: `sampleRun_frame` for the registers, `sampleWet_rv` for the delay lines. -/
theorem sampleEmitsOrRaises : Obligations.SampleEmitsOrRaises := by
  intro s hready
  obtain ⟨e, t, hrun⟩ := sampleRun_answers s.opLast hready
  have ht := exec_sample_of_run hrun
  obtain ⟨wet, d, hwet⟩ := exec_sample_cases ht
  obtain ⟨nz', ph', n', hb, -⟩ := afterDry_frame s
  have hbready : (afterDry s).status.capReverb = true → (afterDry s).reverbReady := by
    rw [hb]
    exact hready
  have hlines := sampleWet_rv hbready hwet
  rw [hb] at hlines
  have hdrv : t.rv = d.rv := by
    rw [exec_sample_of_wet hwet rfl] at ht
    split at ht
    all_goals
      cases ht
      rfl
  rw [← hdrv] at hlines
  obtain ⟨hwords, hcursors, hnone⟩ := hlines
  obtain ⟨nz, ph, n, rv, hkept, -, hend⟩ := sampleRun_frame hrun
  refine ⟨t, ht, ?_⟩
  rcases hend with ⟨-, l, r, hl, hr, rfl⟩ | ⟨-, rfl⟩
  · exact ⟨.inl ⟨rfl, rfl, l, r, hl, hr, rfl⟩, rfl, rfl, rfl, rfl, rfl, rfl, rfl, rfl, rfl, rfl,
      rfl, rfl, rfl, fun c => (hkept c).len, hwords, hcursors, hnone⟩
  · exact ⟨.inr ⟨rfl, rfl, rfl⟩, rfl, rfl, rfl, rfl, rfl, rfl, rfl, rfl, rfl, rfl, rfl,
      rfl, rfl, fun c => (hkept c).len, hwords, hcursors, hnone⟩

/-! ### Mono -/

/-- Settles O55: equal tones through equal networks. -/
theorem amplitudeModulatedIsMono : Obligations.AmplitudeModulatedIsMono := by
  intro s t hent hrv ht
  have hmono : (dryOf s).right = (dryOf s).left := by
    rw [dryOf_eq, sampleTone_am hent]
    rfl
  obtain ⟨wet, d, hwet⟩ := exec_sample_cases ht
  obtain ⟨nz, ph, n, hb, -⟩ := afterDry_frame s
  have hwetmono : wet.right = wet.left ∧ d.rv[0] = d.rv[1] := by
    cases hcap : (afterDry s).status.capReverb with
    | false =>
      rw [sampleWet_none hcap] at hwet
      cases hwet
      rw [hb]
      exact ⟨rfl, hrv⟩
    | true =>
      obtain ⟨n0, n1, h0, h1, rfl⟩ := sampleWet_cases hcap hwet
      have hsame : (afterDry s).rv[(1 : Fin 2)] = (afterDry s).rv[(0 : Fin 2)] := by
        rw [hb]
        exact hrv.symm
      rw [hmono, hsame, h0] at h1
      obtain ⟨hw, hn⟩ := Prod.mk.inj (Except.ok.inj h1)
      exact ⟨hw.symm, hn⟩
  obtain ⟨y, hy⟩ : ∃ y, sampleShape (dryOf s) wet d = y := ⟨_, rfl⟩
  have hymono : y.right = y.left := by
    rw [← hy, sampleShape, hmono, hwetmono.1]
  rw [exec_sample_of_wet hwet hy] at ht
  obtain ⟨_, _, _, _, hd⟩ := sampleWet_units hwet
  split at ht
  · cases ht
    refine ⟨hwetmono.2, fun p hp => ?_⟩
    obtain rfl := List.singleton_inj.mp (List.append_cancel_left hp)
    exact hymono.symm
  · cases ht
    refine ⟨hwetmono.2, fun p hp => ?_⟩
    rw [raiseError_out, hd] at hp
    simp at hp

/-! ### Silence -/

/-- The start of a session with noise off: the phases at +0.0, cleared lines, softness and gain in
their ranges. -/
structure SilentStart (s : State) : Prop where
  phases : ∀ k : Fin 5, s.ph[k] = fZero
  noise : noiseOn s = false
  lines : s.status.capReverb = true →
    s.reverbReady ∧ ∀ (c : Fin 2) (j : Fin 5), s.rv[c].line[j] = []
  soft : inRange fZero fOne s.act.soft = true
  gainFinite : fisFinite s.act.gainLin = true
  gainSign : fsign s.act.gainLin = false

/-- A gain that is not negative keeps +0.0. -/
theorem fmul_zero_right {g : F64} (hfinite : fisFinite g = true) (hsign : fsign g = false) :
    fmul g fZero = fZero := by
  rw [fmul_comm_of_finite hfinite (by decide), fmul_zero_left hfinite, hsign]
  decide

/-- Silence through cleared lines is silence. -/
theorem netProc_silent {n n' : Network} {v : F64} (hlines : ∀ j : Fin 5, n.line[j] = [])
    (h : netProc fZero n = .ok (v, n')) : v = fZero := by
  obtain ⟨-, r, hr, rfl⟩ := netProc_lines h
  have hzero (j : Fin 5) : r j = fZero := by
    rw [hr, hlines]
    rfl
  rw [hzero, hzero, hzero, hzero, hzero]
  decide +kernel

theorem envelope_zero {s : State} (hsoft : inRange fZero fOne s.act.soft = true) :
    envelope fZero s = fZero := by
  have hgate : fle fZero fZero = true := by decide
  unfold envelope
  split
  · exact envRt_gated hgate hsoft
  · exact envBatch_gated hgate hsoft

theorem shape_zero (s : State) : shape fZero s = fZero := by
  unfold shape
  split
  · decide +kernel
  · exact TANH_zero

theorem SilentStart.oscSin {s : State} (h : SilentStart s) (k : Fin 5) :
    oscSin k s = fZero := by
  rw [Machine.oscSin, paVal, h.phases, SIN_zero]

theorem SilentStart.dry {s : State} (h : SilentStart s) : dryOf s = ⟨fZero, fZero⟩ := by
  have htone : sampleTone s = ⟨fZero, fZero⟩ := by
    by_cases hent : s.act.ent = 0
    · have hproduct : fmul fZero fZero = fZero := by decide +kernel
      rw [sampleTone_am hent, toneAm, h.oscSin, h.oscSin, envelope_zero h.soft, hproduct]
    · rw [sampleTone_binaural hent, toneBinaural, h.oscSin, h.oscSin]
  rw [dryOf_silent h.noise, htone, fmul_zero_right h.gainFinite h.gainSign]

/-- The first sample is a silent pair. -/
theorem SilentStart.sampleRun {s : State} (h : SilentStart s) (last : Bool) : ∃ nz ph n rv,
    sampleRun last s = .ok (.emitted, { s with nz := nz, ph := ph, draws := n, rv := rv
                                               out := s.out ++ [⟨fZero, fZero, last⟩]
                                               pos := s.pos + 1 }) := by
  obtain ⟨nz', ph', n', hb, -⟩ := afterDry_frame s
  have hready : (afterDry s).status.capReverb = true → (afterDry s).reverbReady := by
    rw [hb]
    exact fun hcap => (h.lines hcap).1
  obtain ⟨wet, d, hwet⟩ := sampleWet_answers (dry := dryOf s) hready
  obtain ⟨nz, ph, n, rv, hd⟩ := sampleWet_units hwet
  have hshape : sampleShape (dryOf s) wet d = ⟨fZero, fZero⟩ := by
    cases hcap : s.status.capReverb with
    | false =>
      have hdcap : d.status.capReverb = false := by rw [hd, hcap]
      rw [sampleShape_dry hdcap, h.dry, shape_zero]
    | true =>
      have hdcap : d.status.capReverb = true := by rw [hd, hcap]
      have hbcap : (afterDry s).status.capReverb = true := by rw [hb, hcap]
      have hlines : ∀ (c : Fin 2) (j : Fin 5), (afterDry s).rv[c].line[j] = [] := by
        rw [hb]
        exact (h.lines hcap).2
      have hmix : fadd fZero (fmul kWet fZero) = fZero := by decide +kernel
      obtain ⟨n0, n1, h0, h1, -⟩ := sampleWet_cases hbcap hwet
      rw [h.dry] at h0 h1
      rw [sampleShape_wet hdcap, netProc_silent (hlines 0) h0, netProc_silent (hlines 1) h1, h.dry,
        hmix, shape_zero]
  refine ⟨nz, ph, n, rv, ?_⟩
  rw [sampleRun_of_wet hwet hshape, if_pos ⟨by decide, by decide⟩, hd]

/-- The premises of the corner case, as the statements write them. -/
theorem silentStart_of {s : State} (hph : ∀ k : Fin 5, s.ph[k] = fZero)
    (hnoise : s.status.capNoise = false ∨ s.act.ntype = 0xFFFFFFFFFFFFFFFF)
    (hlines : s.status.capReverb = true →
      s.reverbReady ∧ ∀ (c : Fin 2) (j : Fin 5), s.rv[c].line[j] = [])
    (hsoft0 : fle fZero s.act.soft = true) (hsoft1 : fle s.act.soft fOne = true)
    (hfinite : fisFinite s.act.gainLin = true) (hsign : fsign s.act.gainLin = false) :
    SilentStart s :=
  ⟨hph, noiseOn_eq_false_iff.mpr hnoise, hlines, inRange_iff.mpr ⟨hsoft0, hsoft1⟩, hfinite, hsign⟩

/-- Settles O54, by `SilentStart.sampleRun`. -/
theorem sampleZeroIsSilence : Obligations.SampleZeroIsSilence := by
  intro s hph hnoise hlines hsoft0 hsoft1 hfinite hsign
  obtain ⟨nz, ph, n, rv, hrun⟩ :=
    (silentStart_of hph hnoise hlines hsoft0 hsoft1 hfinite hsign).sampleRun s.opLast
  exact ⟨_, exec_sample_of_run hrun, rfl, rfl, rfl⟩

/-- Settles O20: RENDER 0 by `exec_render_zero`; RENDER 1 is one silent sample, and the end. -/
theorem renderCompletes : Obligations.RenderCompletes := by
  refine ⟨fun s hstate => ?_,
    fun s hstate hmode hpos hph hnoise hlines hsoft0 hsoft1 hfinite hsign => ?_⟩
  · rw [exec_render_zero hstate, renderStart_act]
  · obtain ⟨nz, ph, n, rv, hrun⟩ :=
      (silentStart_of hph hnoise hlines hsoft0 hsoft1 hfinite hsign).sampleRun true
    have hlast : lastFlag 0 s = true := rfl
    have hmore : moreSamples s = true := by
      rw [moreSamples, decide_eq_true (BitVec.lt_def.mpr hpos), Bool.or_true]
    have hsnapshot : renderStart s = s := by
      rw [renderStart, hmode, if_neg (by decide)]
    obtain ⟨m, hm⟩ : ∃ m : State, m = { s with
        nz := nz, ph := ph, draws := n, rv := rv
        out := s.out ++ [⟨fZero, fZero, true⟩], pos := s.pos + 1 } := ⟨_, rfl⟩
    rw [← hm] at hrun
    have hloop : renderLoop (1 : WData).toNat 0 (renderStart s) = .ok (.emitted, 1, m) := by
      have hone : (1 : WData).toNat = 0 + 1 := rfl
      rw [hsnapshot, hone, renderLoop, if_pos hmore, hlast, hrun]
      rfl
    have hmstate : m.status.state = .rendering := by rw [hm, hstate]
    have hmmode : m.act.mode = 0 := by rw [hm, hmode]
    refine ⟨_, exec_render_of_loop hstate hloop, ?_⟩
    rw [renderEnd, finishRender_status hmstate]
    simp only [hmmode, true_and]
    rw [hm]
    exact ⟨rfl, rfl, rfl, rfl, rfl, rfl, rfl⟩

end Sys2Proof.Machine
end
